-- ==== Sys2Proof/Word.lean ====
section
/-! DEFINITION. The word types of the block (00_scope.md R8, 10_state.md R20, R29). -/

namespace Sys2Proof

/-- A buffer or stream byte. -/
abbrev Byte := BitVec 8

/-- A register value: 32 bits unsigned unless a rule says otherwise (R8). -/
abbrev Word := BitVec 32

end Sys2Proof
end

