-- ==== Sys2Proof/Syntax.lean ====
section
/-! DEFINITION. The 42 commands of WPK-CMD version 1 (30_encoding.md R103), one constructor per row of the opcode table.
A command whose IMM8 must be 0 carries no immediate; the five others carry IMM8 as it stands in the word. -/

namespace Sys2Proof

/-- A command of 30_encoding.md R103. -/
inductive Instr where
  -- UNIT 0x0: system (45_system.md)
  | nop
  | clearAll
  -- UNIT 0x1: codecs
  | hufCompress
  | hufDecompress
  | lzssCompress
  | lzssDecompress
  | lzwCompress
  | lzwDecompress
  -- UNIT 0x2: bitstream_shifter
  | bsInit
  | bsReadBit
  /-- `BS_READ_BITS n` -/
  | bsReadBits (n : Byte)
  /-- `BS_READ_BYTES n` -/
  | bsReadBytes (n : Byte)
  | bsWriteBit
  /-- `BS_WRITE_BITS n` -/
  | bsWriteBits (n : Byte)
  /-- `BS_WRITE_BYTES n` -/
  | bsWriteBytes (n : Byte)
  | bsFinish
  | bsStatus
  -- UNIT 0x3: priority_queue_min_heap
  | pqClear
  | pqPush
  | pqPop
  | pqSize
  -- UNIT 0x4: chained_hash_dictionary
  | hdClear
  | hdInsert
  | hdRemoveOldest
  | hdCount
  | hdGet
  -- UNIT 0x5: circular_window_buffer
  | cwClear
  | cwWrite
  | cwRead
  | cwMoveCursor
  | cwStatus
  -- UNIT 0x6: huffman_tree_builder
  | htClear
  | htBuild
  | htNode
  /-- `HT_CODE k` -/
  | htCode (k : Byte)
  -- UNIT 0x7: lzss_match_finder
  | lzssFind
  -- UNIT 0x8: lzw_trie_traversal and lzw_code_width_controller
  | lzwClear
  | lzwLookup
  | lzwInsert
  | lzwWidth
  | lzwStatus
  | lzwEntry
  deriving DecidableEq, Repr

end Sys2Proof
end

