-- ==== Sys2Proof/WellFormed.lean ====
section
/-! DEFINITION. Which commands are legal: IMM8 in the range 30_encoding.md R103 gives for the opcode (R104). -/

namespace Sys2Proof

/-- The immediate is in the range R103 gives: n in 1..32 for the bit commands, n in 1..4 for the byte commands,
k in 0..7 for `HT_CODE`. Every other command has no immediate to check. -/
def Instr.wellFormed : Instr → Bool
  | .bsReadBits n => decide (1 ≤ n.toNat ∧ n.toNat ≤ 32)
  | .bsReadBytes n => decide (1 ≤ n.toNat ∧ n.toNat ≤ 4)
  | .bsWriteBits n => decide (1 ≤ n.toNat ∧ n.toNat ≤ 32)
  | .bsWriteBytes n => decide (1 ≤ n.toNat ∧ n.toNat ≤ 4)
  | .htCode k => decide (k.toNat ≤ 7)
  | .nop | .clearAll | .hufCompress | .hufDecompress | .lzssCompress | .lzssDecompress | .lzwCompress
  | .lzwDecompress | .bsInit | .bsReadBit | .bsWriteBit | .bsFinish | .bsStatus | .pqClear | .pqPush | .pqPop
  | .pqSize | .hdClear | .hdInsert | .hdRemoveOldest | .hdCount | .hdGet | .cwClear | .cwWrite | .cwRead
  | .cwMoveCursor | .cwStatus | .htClear | .htBuild | .htNode | .lzssFind | .lzwClear | .lzwLookup | .lzwInsert
  | .lzwWidth | .lzwStatus | .lzwEntry => true

end Sys2Proof
end

