-- ==== Sys2Proof/Decode.lean ====
section
/-! DEFINITION. The command word: its decoder (30_encoding.md R100, R103 to R105), total on every 32-bit word and refusing by
name, and its encoder (R103: the word of a mnemonic is `OPCODE << 24 | IMM8`). -/

namespace Sys2Proof

/-- Why a command word is illegal (R104). -/
inductive Illegal where
  /-- OPCODE is not in R103's table. -/
  | opcode
  /-- CMD[23:8] is not 0. -/
  | reserved
  /-- IMM8 is outside the range R103 gives for the opcode. -/
  | immediate
  deriving DecidableEq, Repr

/-- CMD[31:24]: UNIT and OP (R100). -/
def opcodeField (w : Word) : Byte := w.extractLsb' 24 8

/-- CMD[23:8], which must be 0 (R100). -/
def reservedField (w : Word) : BitVec 16 := w.extractLsb' 8 16

/-- CMD[7:0], read as an unsigned number (R100, R101). -/
def immField (w : Word) : Byte := w.extractLsb' 0 8

/-- The command of an opcode, before RSV and IMM8 are checked: R103's table, with what the command does with IMM8. `none` for
an opcode that is not in the table. -/
def commandOf (op imm : Byte) : Option Instr :=
  match op with
  | 0x00#8 => some .nop
  | 0x01#8 => some .clearAll
  | 0x10#8 => some .hufCompress
  | 0x11#8 => some .hufDecompress
  | 0x12#8 => some .lzssCompress
  | 0x13#8 => some .lzssDecompress
  | 0x14#8 => some .lzwCompress
  | 0x15#8 => some .lzwDecompress
  | 0x20#8 => some .bsInit
  | 0x21#8 => some .bsReadBit
  | 0x22#8 => some (.bsReadBits imm)
  | 0x23#8 => some (.bsReadBytes imm)
  | 0x24#8 => some .bsWriteBit
  | 0x25#8 => some (.bsWriteBits imm)
  | 0x26#8 => some (.bsWriteBytes imm)
  | 0x27#8 => some .bsFinish
  | 0x28#8 => some .bsStatus
  | 0x30#8 => some .pqClear
  | 0x31#8 => some .pqPush
  | 0x32#8 => some .pqPop
  | 0x33#8 => some .pqSize
  | 0x40#8 => some .hdClear
  | 0x41#8 => some .hdInsert
  | 0x42#8 => some .hdRemoveOldest
  | 0x43#8 => some .hdCount
  | 0x44#8 => some .hdGet
  | 0x50#8 => some .cwClear
  | 0x51#8 => some .cwWrite
  | 0x52#8 => some .cwRead
  | 0x53#8 => some .cwMoveCursor
  | 0x54#8 => some .cwStatus
  | 0x60#8 => some .htClear
  | 0x61#8 => some .htBuild
  | 0x62#8 => some .htNode
  | 0x63#8 => some (.htCode imm)
  | 0x70#8 => some .lzssFind
  | 0x80#8 => some .lzwClear
  | 0x81#8 => some .lzwLookup
  | 0x82#8 => some .lzwInsert
  | 0x83#8 => some .lzwWidth
  | 0x84#8 => some .lzwStatus
  | 0x85#8 => some .lzwEntry
  | _ => none

/-- The command takes an immediate; for every other command IMM8 must be 0 (R103). -/
def Instr.hasImm : Instr → Bool
  | .bsReadBits _ | .bsReadBytes _ | .bsWriteBits _ | .bsWriteBytes _ | .htCode _ => true
  | .nop | .clearAll | .hufCompress | .hufDecompress | .lzssCompress | .lzssDecompress | .lzwCompress
  | .lzwDecompress | .bsInit | .bsReadBit | .bsWriteBit | .bsFinish | .bsStatus | .pqClear | .pqPush | .pqPop
  | .pqSize | .hdClear | .hdInsert | .hdRemoveOldest | .hdCount | .hdGet | .cwClear | .cwWrite | .cwRead
  | .cwMoveCursor | .cwStatus | .htClear | .htBuild | .htNode | .lzssFind | .lzwClear | .lzwLookup | .lzwInsert
  | .lzwWidth | .lzwStatus | .lzwEntry => false

/-- Decodes a command word (R105): match OPCODE, then check RSV, then IMM8. Every word is one command of R103 or illegal
(R104). -/
def decode (w : Word) : Except Illegal Instr :=
  match commandOf (opcodeField w) (immField w) with
  | none => .error .opcode
  | some i =>
    if reservedField w ≠ 0 then .error .reserved
    else if i.hasImm then (if i.wellFormed then .ok i else .error .immediate)
    else if immField w ≠ 0 then .error .immediate
    else .ok i

/-- OPCODE of a command (R103). -/
def opcodeOf : Instr → Byte
  | .nop => 0x00
  | .clearAll => 0x01
  | .hufCompress => 0x10
  | .hufDecompress => 0x11
  | .lzssCompress => 0x12
  | .lzssDecompress => 0x13
  | .lzwCompress => 0x14
  | .lzwDecompress => 0x15
  | .bsInit => 0x20
  | .bsReadBit => 0x21
  | .bsReadBits _ => 0x22
  | .bsReadBytes _ => 0x23
  | .bsWriteBit => 0x24
  | .bsWriteBits _ => 0x25
  | .bsWriteBytes _ => 0x26
  | .bsFinish => 0x27
  | .bsStatus => 0x28
  | .pqClear => 0x30
  | .pqPush => 0x31
  | .pqPop => 0x32
  | .pqSize => 0x33
  | .hdClear => 0x40
  | .hdInsert => 0x41
  | .hdRemoveOldest => 0x42
  | .hdCount => 0x43
  | .hdGet => 0x44
  | .cwClear => 0x50
  | .cwWrite => 0x51
  | .cwRead => 0x52
  | .cwMoveCursor => 0x53
  | .cwStatus => 0x54
  | .htClear => 0x60
  | .htBuild => 0x61
  | .htNode => 0x62
  | .htCode _ => 0x63
  | .lzssFind => 0x70
  | .lzwClear => 0x80
  | .lzwLookup => 0x81
  | .lzwInsert => 0x82
  | .lzwWidth => 0x83
  | .lzwStatus => 0x84
  | .lzwEntry => 0x85

/-- IMM8 of a command: 0 where R103 says 0. -/
def immOf : Instr → Byte
  | .bsReadBits n | .bsReadBytes n | .bsWriteBits n | .bsWriteBytes n => n
  | .htCode k => k
  | .nop | .clearAll | .hufCompress | .hufDecompress | .lzssCompress | .lzssDecompress | .lzwCompress
  | .lzwDecompress | .bsInit | .bsReadBit | .bsWriteBit | .bsFinish | .bsStatus | .pqClear | .pqPush | .pqPop
  | .pqSize | .hdClear | .hdInsert | .hdRemoveOldest | .hdCount | .hdGet | .cwClear | .cwWrite | .cwRead
  | .cwMoveCursor | .cwStatus | .htClear | .htBuild | .htNode | .lzssFind | .lzwClear | .lzwLookup | .lzwInsert
  | .lzwWidth | .lzwStatus | .lzwEntry => 0

/-- The command word of a command: `OPCODE << 24 | IMM8` with RSV = 0 (R103). -/
def encode (i : Instr) : Word := opcodeOf i ++ 0#16 ++ immOf i

/-- The 32-bit word whose low `nbits` bits are those of `w` and whose other bits are 0. A command is one word in CMD (R100), so
it has no byte order (R77). -/
def tableWord (nbits w : Nat) : Word := BitVec.ofNat 32 (w % 2 ^ nbits)

/-- The command the decoder reads from the word whose bits are `w`, numbered as the opcode table numbers them (bit 0 the least
significant, R8); `none` where the word is illegal. -/
def decodeTableWord (nbits w : Nat) : Option Instr :=
  match decode (tableWord nbits w) with
  | .ok i => some i
  | .error _ => none

end Sys2Proof
end

