-- ==== Sys2Proof/Config.lean ====
section
/-! DEFINITION. What is fixed for the block: the constants of 00_scope.md R6 and R7, the OPEN parameters (R7, R25), and the
free values, which are opaque: nothing can evaluate one or prove a value of it. -/

namespace Sys2Proof.Config

/-! ### Constants the document settles (R6) and constants this spec settles (R7) -/

/-- LZSS history capacity, the largest encodable offset (R6). -/
abbrev lzssHistoryCap : Nat := 4095
/-- LZSS lookahead capacity (R6). -/
abbrev lzssLookaheadCap : Nat := 18
/-- Least encodable match length (R6). -/
abbrev lzssMinMatch : Nat := 3
/-- Greatest encodable match length (R6). -/
abbrev lzssMaxMatch : Nat := 18
/-- Offset field width; offset 0 ends the stream (R6). -/
abbrev lzssOffsetBits : Nat := 12
/-- Length field width (R6). -/
abbrev lzssLengthBits : Nat := 4
/-- LZW dictionary entries, indices 0..65535 (R6). -/
abbrev lzwDictCap : Nat := 65536
/-- First assignable LZW index (R6). -/
abbrev lzwFirstFree : Nat := 257
/-- The LZW end-of-stream index (R6). -/
abbrev lzwEof : Nat := 256
/-- Initial and least LZW code width (R6). -/
abbrev lzwMinWidth : Nat := 9
/-- Huffman EOF leaf weight (R7, D10). -/
abbrev eofWeight : Word := 1
/-- The 8-bit value written for the EOF leaf (R7, R178, D14). -/
abbrev eofLeafValue : Byte := 0
/-- Huffman node arena capacity (R7, D15). -/
abbrev hufMaxNodes : Nat := 513
/-- Priority queue capacity (R7, D36). -/
abbrev pqCap : Nat := 257
/-- Hash dictionary capacity (R7, D36). -/
abbrev hdCap : Nat := 4095
/-- Bucket count of the reference hash organisation; unobservable (R7, R290, D19). -/
abbrev hdBuckets : Nat := 4096
/-- Multiplier of the reference hash; unobservable (R7, R290, D19). -/
abbrev hdHashMul : Nat := 31
/-- Circular window capacity, 4095 + 18 (R7, D18). -/
abbrev cwCap : Nat := 4113
/-- Window positions are below this (R7 POS_BITS, R301). -/
abbrev cwTopPosition : Nat := 2 ^ 32 - 1
/-- The command-set version (R20). -/
abbrev version : Word := 1
/-- Bytes of the REG space (R70). -/
abbrev regSpaceBytes : Nat := 4096
/-- The parent operand that means NONE in LZW_LOOKUP, and the value LZW_ENTRY gives for "no parent" (R253, R257, D34). -/
abbrev noneWord : Word := 0xFFFFFFFF

/-! ### The OPEN parameters (R7, R25) -/

/-- The block's parameters, "a value the model takes as an argument" (R7). Every block has its own, so they stand in State;
the reset state takes those of `Config.params`. -/
structure Params where
  /-- IN_CAP, input buffer bytes. -/
  inCap : Nat
  /-- OUT_CAP, output buffer bytes. -/
  outCap : Nat
  tagHuf : Word
  tagLzss : Word
  tagLzw : Word
  deriving DecidableEq, Repr

/-- The constraints R7 and R25 put on the parameters: both capacities in 1..2^28, the tags pairwise distinct. -/
def Params.wf (p : Params) : Bool :=
  decide (1 ≤ p.inCap) && decide (p.inCap ≤ 2 ^ 28) && decide (1 ≤ p.outCap) && decide (p.outCap ≤ 2 ^ 28) &&
  decide (p.tagHuf ≠ p.tagLzss) && decide (p.tagHuf ≠ p.tagLzw) && decide (p.tagLzss ≠ p.tagLzw)

/-- Parameters that meet their constraints. The default values only show that there are some. -/
structure LegalParams where
  params : Params := { inCap := 1, outCap := 1, tagHuf := 0, tagLzss := 1, tagLzw := 2 }
  legal : params.wf = true := by decide
  deriving Inhabited

/-- The parameters of the block that is reset: any legal ones (log 3). -/
opaque legalParams : LegalParams

/-- IN_CAP, OUT_CAP and the tags of the block that is reset. -/
def params : Params := legalParams.params

/-! ### Free values (93_implementation_defined.md `any value`) -/

/-- The byte IN_BUF holds at an address after power-on, "drawn once at reset and stable until written" (R26, R370; log 4). -/
opaque inPowerOn : Nat → Byte

/-- The byte OUT_BUF holds at an address after power-on (R26, R370; log 4). -/
opaque outPowerOn : Nat → Byte

/-- The byte a slot of cw_buf holds after power-on (R370; log 14). No command reads one in a reachable state. -/
opaque cwPowerOn : Nat → Byte

/-- The n-th unspecified byte: an OUT byte of a failed or abandoned command (R335, R372; log 6, log 7), or what a host read
of OUT gives while BUSY (R381; log 5). -/
opaque freeByte : Nat → Byte

/-- The n-th unspecified word: what a host read of OUT_LEN or RESULT0..2 gives while BUSY (R381; log 5). -/
opaque freeWord : Nat → Word

end Sys2Proof.Config
end

