-- ==== Sys2Proof/Machine/State.lean ====
section
/-! DEFINITION. The state of the block as plain data (10_state.md), the reasons a step can stop, and the state after power-on
reset (70_reset_and_hazards.md R370). Each sub-unit of 10_state.md §3 is a field of its own. -/

namespace Sys2Proof.Machine

/-! ### Why a step stops, and what error a command ends with -/

/-- A step stops with a fault. No command ever does: every command completes (R387). -/
inductive Fault where
  /-- Raised by a host access to a REG offset of 4096 or above, which the REG space does not have (R70). Safe: the model
  stops where the spec gives no meaning (log 11). -/
  | regOutsideSpace
  deriving DecidableEq, Repr

/-- A step is refused. -/
inductive Refusal where
  /-- Raised by no arm of `exec`: every command has its meaning. Safe. -/
  | notModelled (mnemonic : String)
  /-- Raised by a host access whose width is not 32 bits for REG, or not 8 bits for IN and OUT, or whose REG offset is not a
  multiple of 4: "a model refuses the program that makes it" (R71). Safe (log 11). -/
  | accessWidth
  deriving DecidableEq, Repr

/-- The errors a command can end with (60_exceptions.md R330). "No error" is `none` of `Option Err`. -/
inductive Err where
  | invalidHeader
  | unexpectedEndOfStream
  | outOfBounds
  | corruptStream
  | capacityExceeded
  | illegalCommand
  | stateError
  deriving DecidableEq, Repr

/-! ### The host's side: accesses and the order of moves -/

/-- The three address spaces of the host port (R70). -/
inductive Space where
  | reg
  | input
  | output
  deriving DecidableEq, Repr

/-- A host access through the port primitives of R73; `bytes` is the access width in bytes. -/
inductive Access where
  | read (space : Space) (addr bytes : Nat)
  | write (space : Space) (addr bytes : Nat) (value : Word)
  deriving DecidableEq, Repr

/-- One move of one agent (R3, R386). -/
inductive Event where
  | host (a : Access)
  | engine
  deriving DecidableEq, Repr

/-! ### Sub-unit state (10_state.md §3) -/

/-- Data kept for the keys that have any, in rising order of the key. -/
abbrev Sparse (α : Type) := List (Nat × α)

/-- Buffer bytes that have been written, in rising order of the address. -/
abbrev Memory := List Host.Cell

/-- bitstream_shifter (R27). OUT_LEN stands with the registers. -/
structure Shifter where
  /-- bs_rpos, a bit offset into IN_BUF. -/
  rpos : Nat
  /-- bs_acc, the partial output byte, right-aligned. -/
  acc : Byte
  /-- bs_nacc, the number of bits in it, 0..7. -/
  nacc : Nat
  deriving DecidableEq, Repr

/-- An entry of pq_heap (R28, R280). -/
structure HeapEntry where
  weight : Word
  payload : Word
  deriving DecidableEq, Repr

/-- hd_list (R29): for each 24-bit key that has positions, the positions oldest first. -/
abbrev Dict := Sparse (List Word)

/-- circular_window_buffer (R30). -/
structure Window where
  /-- cw_buf, by slot. -/
  buf : Memory
  /-- cw_head, the next position to write. -/
  head : Nat
  /-- cw_cursor, the read cursor. -/
  cursor : Nat
  deriving DecidableEq, Repr

/-- A Huffman node (R31): leaf (value, weight), internal (left, right, weight), EOF leaf (weight). -/
inductive Node where
  | leaf (value : Byte) (weight : Word)
  | internal (left right : Nat) (weight : Word)
  | eof (weight : Word)
  deriving DecidableEq, Repr

/-- huffman_tree_builder (R31); ht_nnodes is the number of nodes. -/
structure Tree where
  /-- ht_count, by byte value. -/
  counts : Vector Word 256
  /-- ht_node[0..ht_nnodes-1]. -/
  nodes : List Node
  /-- ht_root, a node index. -/
  root : Nat
  /-- ht_valid. -/
  valid : Bool
  deriving DecidableEq, Repr

/-- An LZW dictionary entry (lzw_prefix[i], lzw_last[i]) (R32, R240). -/
structure TrieEntry where
  /-- lzw_prefix[i], the index whose sequence this entry extends. -/
  parent : Nat
  /-- lzw_last[i], the byte it adds. -/
  last : Byte
  deriving DecidableEq, Repr

/-- The entries 257..lzw_next-1, in index order (R32). -/
abbrev Trie := List TrieEntry

/-- The command as latched at acceptance (R34, R340). -/
structure Latch where
  cmd : Word
  arg0 : Word
  arg1 : Word
  inLen : Word
  deriving DecidableEq, Repr

/-- The whole block. -/
structure State where
  /-- IN_CAP, OUT_CAP, TAG_HUF, TAG_LZSS, TAG_LZW, the constant registers (R20, R25). -/
  params : Config.Params
  /-- CTRL.IRQ_EN (R22). -/
  irqEn : Bool
  /-- STATUS.DONE (R23). -/
  done : Bool
  /-- STATUS.ERR_CODE (R23, R330). -/
  err : Option Err
  /-- STATUS.VIOLATION (R23, R380). -/
  violation : Bool
  /-- CMD (R20). -/
  cmd : Word
  /-- ARG0 (R20). -/
  arg0 : Word
  /-- ARG1 (R20). -/
  arg1 : Word
  /-- RESULT0 (R20). -/
  result0 : Word
  /-- RESULT1 (R20). -/
  result1 : Word
  /-- RESULT2 (R20). -/
  result2 : Word
  /-- IN_LEN (R20, R24). -/
  inLen : Word
  /-- OUT_LEN (R20, R24). -/
  outLen : Word
  /-- IN_BUF (R26): the bytes written since power-on; an address not listed holds its power-on byte. -/
  inBuf : Memory
  /-- OUT_BUF (R26), in the same form. -/
  outBuf : Memory
  /-- bitstream_shifter (R27). -/
  bs : Shifter
  /-- priority_queue_min_heap (R28): the live entries, entry 0 first; pq_size is their number. -/
  pq : List HeapEntry
  /-- chained_hash_dictionary (R29). -/
  hd : Dict
  /-- circular_window_buffer (R30). -/
  cw : Window
  /-- huffman_tree_builder (R31). -/
  ht : Tree
  /-- lzw_trie_traversal and lzw_code_width_controller (R32). -/
  lzw : Trie
  /-- The latched command (R34). STATUS.BUSY is 1 exactly while there is one. -/
  latch : Option Latch
  /-- The model's own: the moves to come, in order (log 1). -/
  agenda : List Event
  /-- The model's own: what host reads have returned, newest first (log 8). -/
  readLog : List Word
  /-- The model's own: how many free values have been drawn (log 5). -/
  draws : Nat
  deriving DecidableEq, Repr

/-! ### Reset -/

/-- The cleared bitstream_shifter (R27). -/
def Shifter.cleared : Shifter := { rpos := 0, acc := 0, nacc := 0 }

/-- The cleared huffman_tree_builder (R31). -/
def Tree.cleared : Tree := { counts := Vector.replicate 256 0, nodes := [], root := 0, valid := false }

/-- The power-on state of a block with the given parameters (R370): registers 0, sub-units cleared, no latched command, and no
byte of a buffer written. -/
def State.powerOn (p : Config.Params) : State where
  params := p
  irqEn := false
  done := false
  err := none
  violation := false
  cmd := 0
  arg0 := 0
  arg1 := 0
  result0 := 0
  result1 := 0
  result2 := 0
  inLen := 0
  outLen := 0
  inBuf := []
  outBuf := []
  bs := Shifter.cleared
  pq := []
  hd := []
  cw := { buf := [], head := 0, cursor := 0 }
  ht := Tree.cleared
  lzw := []
  latch := none
  agenda := []
  readLog := []
  draws := 0

/-- The machine right after power-on reset (R370), with the block's parameters (log 3). -/
def State.reset : State := State.powerOn Config.params

end Sys2Proof.Machine
end

