-- ==== Sys2Proof/Machine/Ops.lean ====
section
/-! DEFINITION. The named operations over buffers and registers: sparse data in rising order, buffer reads and writes, clearing
the sub-units (10_state.md R60), acceptance (60_exceptions.md R340), completion with and without an error (R331, R342), and the
return, the host's acknowledgement (R344). -/

namespace Sys2Proof.Machine

/-- What a step answers. -/
abbrev Out := Host.Outcome State Fault Refusal

/-! ### Sparse data: one canonical form, the keys strictly rising -/

/-- The keys rise strictly. -/
abbrev Sparse.wf {α : Type} (m : Sparse α) : Prop := List.Pairwise (fun x y => x.1 < y.1) m

/-- What is kept for a key. -/
def Sparse.get {α : Type} : Sparse α → Nat → Option α
  | [], _ => none
  | (k, v) :: rest, a => if k = a then some v else Sparse.get rest a

/-- Keeps `v` for the key `a`. -/
def Sparse.put {α : Type} : Sparse α → Nat → α → Sparse α
  | [], a, v => [(a, v)]
  | (k, w) :: rest, a, v =>
    if a < k then (a, v) :: (k, w) :: rest
    else if a = k then (a, v) :: rest
    else (k, w) :: Sparse.put rest a v

/-- Keeps nothing for the key `a`. -/
def Sparse.del {α : Type} : Sparse α → Nat → Sparse α
  | [], _ => []
  | (k, w) :: rest, a => if k = a then rest else (k, w) :: Sparse.del rest a

/-! ### The buffers (R26). A byte is listed from the first write on; what an unlisted address holds is the power-on byte, a free
value, so no listed byte can be said to equal it (log 4). -/

/-- The canonical form of a buffer. -/
abbrev Memory.wf (m : Memory) : Prop := Sparse.wf m

/-- Stores bytes at an address and the ones after it. -/
def Memory.store : Memory → Nat → List Byte → Memory
  | m, _, [] => m
  | m, a, b :: bytes => Memory.store (Sparse.put m a b) (a + 1) bytes

/-- `count` unspecified bytes, the free values from number `first` on. -/
def freeBytes (first : Nat) : Nat → List Byte
  | 0 => []
  | count + 1 => Config.freeByte first :: freeBytes (first + 1) count

/-- IN[a] (R26). -/
def State.inByte (s : State) (a : Nat) : Byte := (Sparse.get s.inBuf a).getD (Config.inPowerOn a)

/-- OUT[a] (R26). -/
def State.outByte (s : State) (a : Nat) : Byte := (Sparse.get s.outBuf a).getD (Config.outPowerOn a)

/-- IN[0..n-1], what a command reads (R74, R140). -/
def State.inBytes (s : State) (n : Nat) : List Byte := (List.range n).map s.inByte

/-- `count` OUT bytes from `first` on become unspecified (R335, R372; log 6, log 7). -/
def State.spoilOut (s : State) (first count : Nat) : State :=
  { s with outBuf := Memory.store s.outBuf first (freeBytes s.draws count), draws := s.draws + count }

/-! ### Clearing (R60, R322) -/

/-- Every sub-unit of 10_state.md §3 in its cleared state. The bytes of cw_buf stay; none is readable (R30, R302). -/
def State.clearUnits (s : State) : State :=
  { s with
    bs := Shifter.cleared
    pq := []
    hd := []
    cw := { s.cw with head := 0, cursor := 0 }
    ht := Tree.cleared
    lzw := [] }

/-! ### Issue (R340) -/

/-- STATUS.BUSY: a command is latched and not yet completed (R23, R34). -/
def State.busy (s : State) : Bool := s.latch.isSome

/-- What acceptance latches: the registers as they stand (R340). -/
def State.latchNow (s : State) : Latch := { cmd := s.cmd, arg0 := s.arg0, arg1 := s.arg1, inLen := s.inLen }

/-- Acceptance of the command in CMD (R340). -/
def State.accept (s : State) : State := { s with latch := some s.latchNow, done := false, err := none }

/-! ### Completion (R342). The block has no trap: raising an error IS the completion with that error (R331, R344). -/

/-- The values a command leaves in RESULT0..2; those its rule does not name are 0 (R342). -/
structure Results where
  r0 : Word := 0
  r1 : Word := 0
  r2 : Word := 0
  deriving DecidableEq, Repr

/-- Completion without an error: the results, ERR_CODE 0, BUSY 0, DONE 1 (R342). -/
def State.complete (s : State) (r : Results) : State :=
  { s with result0 := r.r0, result1 := r.r1, result2 := r.r2, err := none, latch := none, done := true }

/-- `raise e`: completion with an error, all three results 0 (R331, R342). -/
def State.raise (s : State) (e : Err) : State :=
  { s with result0 := 0, result1 := 0, result2 := 0, err := some e, latch := none, done := true }

/-- The host's acknowledgement, the block's only "return" (R344): a write of STATUS clears DONE if bit 1 of the value is 1 and
VIOLATION if bit 8 is 1, and does nothing else (R23). -/
def State.acknowledge (s : State) (v : Word) : State :=
  { s with done := s.done && !v.getLsbD 1, violation := s.violation && !v.getLsbD 8 }

/-- A primitive command: its results and the state they stand in, or an error, which leaves every state but STATUS and RESULT0..2
as it was (R334). -/
def settle (s : State) (run : Except Err (Results × State)) : Out :=
  .next <|
    match run with
    | .ok (r, t) => t.complete r
    | .error e => s.raise e

/-- A codec command that raised: the error, and how many OUT bytes (from index 0 on) it had written (R335). -/
structure CodecRaise where
  err : Err
  written : Nat
  deriving DecidableEq, Repr

/-- A codec command that succeeded: the output bytes and the numbers it leaves in RESULT1 and RESULT2; RESULT0 is OUT_LEN. -/
structure CodecDone where
  out : List Byte
  r1 : Nat
  r2 : Nat
  deriving DecidableEq, Repr

/-- A codec command's end (R60, R335): every sub-unit cleared; on success the output in OUT from index 0 on and its length in
OUT_LEN; on an error OUT_LEN = 0 and the bytes written unspecified. -/
def settleCodec (s : State) (run : Except CodecRaise CodecDone) : Out :=
  .next <|
    match run with
    | .ok d =>
      State.complete
        { s.clearUnits with outBuf := Memory.store s.outBuf 0 d.out, outLen := BitVec.ofNat 32 d.out.length }
        { r0 := BitVec.ofNat 32 d.out.length, r1 := BitVec.ofNat 32 d.r1, r2 := BitVec.ofNat 32 d.r2 }
    | .error e => State.raise { (s.clearUnits.spoilOut 0 e.written) with outLen := 0 } e.err

end Sys2Proof.Machine
end

