-- ==== Sys2Proof/Machine/Operands.lean ====
section
/-! DEFINITION. Operands of a command (30_encoding.md R101, 60_exceptions.md R332, R340): the latched ARG0, ARG1 and IN_LEN, and
what a command reads of them. -/

namespace Sys2Proof.Machine

/-- The registers a command reads: the latched ones (R340). Where no command is latched they are what an acceptance would latch
now (log 13). -/
def State.operands (s : State) : Latch := s.latch.getD s.latchNow

/-- ARG0 as latched. -/
def State.opArg0 (s : State) : Word := s.operands.arg0

/-- ARG1 as latched. -/
def State.opArg1 (s : State) : Word := s.operands.arg1

/-- IN_LEN as latched, a number of bytes. -/
def State.opLen (s : State) : Nat := s.operands.inLen.toNat

/-- A byte operand: bits 7:0 (R101). -/
def byteOperand (w : Word) : Byte := w.extractLsb' 0 8

/-- A 24-bit key operand: bits 23:0 (R101). -/
def keyOperand (w : Word) : Nat := (w.extractLsb' 0 24).toNat

/-- `sext_32`: the value read as two's complement (R9, R101). -/
def signedOperand (w : Word) : Int := w.toInt

/-- The acceptance check of a command that reads IN fails: IN_LEN > IN_CAP (R24, R332). -/
def State.inTooLong (s : State) : Bool := decide (s.params.inCap < s.opLen)

/-- A primitive command that reads IN: CAPACITY_EXCEEDED if IN_LEN > IN_CAP, before anything of its own (R332). -/
def withInput (s : State) (run : Except Err (Results × State)) : Except Err (Results × State) :=
  if s.inTooLong then .error .capacityExceeded else run

/-- A codec command: the same check (R332), then its function of IN[0..IN_LEN-1]. -/
def withInputBytes (s : State) (run : List Byte → Except CodecRaise CodecDone) : Except CodecRaise CodecDone :=
  if s.inTooLong then .error { err := .capacityExceeded, written := 0 } else run (s.inBytes s.opLen)

end Sys2Proof.Machine
end

