-- ==== Sys2Proof/Machine/Bitstream.lean ====
section
/-! DEFINITION. UNIT 0x2, the bitstream_shifter (40_bitstream.md): the bit functions every codec uses (R140 to R149) and the nine
primitive commands (R150 to R159). Bits are a list of Bool in stream order. -/

namespace Sys2Proof.Machine

/-! ### Bits and numbers, most significant bit first (20_memory.md R75, R76) -/

/-- The low `n` bits of `v`, most significant first (R146). -/
def bitsOf (v : Nat) : Nat → List Bool
  | 0 => []
  | n + 1 => v.testBit n :: bitsOf v n

/-- The number whose bits are these, the first the most significant (R142). -/
def ofBits (bits : List Bool) : Nat := bits.foldl (fun v b => 2 * v + b.toNat) 0

/-- The bits of bytes in stream order (R75). -/
def streamBits (bytes : List Byte) : List Bool := bytes.flatMap (fun b => bitsOf b.toNat 8)

/-- The bit at stream offset `p` of the input: IN[p div 8][7 - (p mod 8)] (R140). -/
def State.inBit (s : State) (p : Nat) : Bool := (s.inByte (p / 8)).getLsbD (7 - p % 8)

/-! ### Reading (R141 to R144) -/

/-- ReadBits(n) on IN[0..L-1] from the cursor: the value, or `none` where the bits asked for extend past bit 8L-1, with nothing
consumed (R142, R144). -/
def State.readBits (s : State) (n : Nat) : Option Nat :=
  if 8 * s.opLen < s.bs.rpos + n then none
  else some (ofBits ((List.range n).map (fun i => s.inBit (s.bs.rpos + i))))

/-- ReadBits(n) on the bits a codec has not read yet: the value and the bits after it, or `none` at the end of the stream
(R142). -/
def takeBits : Nat → List Bool → Option (List Bool × List Bool)
  | 0, bits => some ([], bits)
  | _ + 1, [] => none
  | n + 1, b :: bits =>
    match takeBits n bits with
    | none => none
    | some (got, rest) => some (b :: got, rest)

/-! ### Writing (R145 to R149) -/

/-- The writer: OUT_LEN, the partial byte and its bit count, and the bytes appended so far, newest first. -/
structure Writer where
  len : Nat
  acc : Byte
  nacc : Nat
  out : List Byte
  deriving DecidableEq, Repr

/-- A writer at the start of a codec command: OUT_LEN 0 and nothing pending (R60). -/
def Writer.fresh : Writer := { len := 0, acc := 0, nacc := 0, out := [] }

/-- AppendByte(v) (R148); `cap` is OUT_CAP. -/
def appendByte (cap : Nat) (v : Byte) (w : Writer) : Except CodecRaise Writer :=
  if w.len = cap then .error { err := .capacityExceeded, written := w.len }
  else .ok { w with len := w.len + 1, out := v :: w.out }

/-- WriteBit(b) (R145). -/
def writeBit (cap : Nat) (b : Bool) (w : Writer) : Except CodecRaise Writer :=
  let acc : Byte := w.acc * 2 + (if b then 1 else 0)
  if w.nacc + 1 = 8 then
    match appendByte cap acc w with
    | .error e => .error e
    | .ok w' => .ok { w' with acc := 0, nacc := 0 }
  else .ok { w with acc := acc, nacc := w.nacc + 1 }

/-- WriteBit of each bit in order (R146). -/
def writeAll (cap : Nat) : List Bool → Writer → Except CodecRaise Writer
  | [], w => .ok w
  | b :: bits, w =>
    match writeBit cap b w with
    | .error e => .error e
    | .ok w' => writeAll cap bits w'

/-- Finish(): the partial byte, its written bits in the high positions and zeros below (R149). -/
def finishWriter (cap : Nat) (w : Writer) : Except CodecRaise Writer :=
  if w.nacc = 0 then .ok w
  else
    match appendByte cap (w.acc <<< (8 - w.nacc)) w with
    | .error e => .error e
    | .ok w' => .ok { w' with acc := 0, nacc := 0 }

/-- The end of a compress command: write the whole stream, count its bits, Finish (R183, R214, R246). -/
def packStream (cap : Nat) (bits : List Bool) (r2 : Nat) : Except CodecRaise CodecDone :=
  match writeAll cap bits Writer.fresh with
  | .error e => .error e
  | .ok w =>
    match finishWriter cap w with
    | .error e => .error e
    | .ok w' => .ok { out := w'.out.reverse, r1 := 8 * w.len + w.nacc, r2 := r2 }

/-- AppendByte of each byte in order (R148). -/
def appendAll (cap : Nat) : List Byte → Writer → Except CodecRaise Writer
  | [], w => .ok w
  | b :: bytes, w =>
    match appendByte cap b w with
    | .error e => .error e
    | .ok w' => appendAll cap bytes w'

/-- The tag of a stream as 32 bits MSB-first (30_encoding.md R107). -/
def tagBits (tag : Word) : List Bool := bitsOf tag.toNat 32

/-- The start of a decompress command: ReadBits(32) and the tag comparison; the bits after the tag. A stream of fewer than 32 bits
ran out before the tag could be compared (R333). -/
def openStream (tag : Word) (bits : List Bool) : Except CodecRaise (List Bool) :=
  match takeBits 32 bits with
  | none => .error { err := .unexpectedEndOfStream, written := 0 }
  | some (t, rest) =>
    if ofBits t = tag.toNat then .ok rest else .error { err := .invalidHeader, written := 0 }

/-! ### The shifter's own writer -/

/-- The writer the bitstream commands use: OUT at OUT_LEN and the pending bits (R27). -/
def State.writer (s : State) : Writer := { len := s.outLen.toNat, acc := s.bs.acc, nacc := s.bs.nacc, out := [] }

/-- What a bitstream write leaves: the appended bytes in OUT, OUT_LEN and the pending bits. -/
def State.withWriter (s : State) (w : Writer) : State :=
  { s with
    outBuf := Memory.store s.outBuf s.outLen.toNat w.out.reverse
    outLen := BitVec.ofNat 32 w.len
    bs := { s.bs with acc := w.acc, nacc := w.nacc } }

/-- The bytes that `nbits` more bits would complete fit in OUT (R150). -/
def State.bitsFit (s : State) (nbits : Nat) : Bool :=
  decide (s.outLen.toNat + (s.bs.nacc + nbits) / 8 ≤ s.params.outCap)

/-- The immediate is legal; if not, the command is ILLEGAL_COMMAND before anything else (R104, R332). -/
def withLegalImm (legal : Bool) (run : Except Err (Results × State)) : Except Err (Results × State) :=
  if legal then run else .error .illegalCommand

/-- BS_READ_BIT, BS_READ_BITS, BS_READ_BYTES: read `n` bits and move the cursor past them (R152 to R154). -/
def bsRead (n : Nat) (s : State) : Except Err (Results × State) :=
  withInput s <|
    match s.readBits n with
    | none => .error .unexpectedEndOfStream
    | some v =>
      .ok ({ r0 := BitVec.ofNat 32 v, r1 := BitVec.ofNat 32 (s.bs.rpos + n) },
        { s with bs := { s.bs with rpos := s.bs.rpos + n } })

/-- BS_WRITE_BIT, BS_WRITE_BITS, BS_WRITE_BYTES: the check of R150, then the low `n` bits of ARG0 (R155 to R157). -/
def bsWrite (n : Nat) (s : State) : Except Err (Results × State) :=
  if s.bitsFit n then
    match writeAll s.params.outCap (bitsOf s.opArg0.toNat n) s.writer with
    | .error e => .error e.err
    | .ok w => .ok ({ r0 := BitVec.ofNat 32 w.len, r1 := BitVec.ofNat 32 w.nacc }, s.withWriter w)
  else .error .capacityExceeded

/-- BS_FINISH: the check of R150, then Finish (R158). -/
def bsFlush (s : State) : Except Err (Results × State) :=
  if s.outLen.toNat + (if s.bs.nacc = 0 then 0 else 1) ≤ s.params.outCap then
    match finishWriter s.params.outCap s.writer with
    | .error e => .error e.err
    | .ok w => .ok ({ r0 := BitVec.ofNat 32 w.len }, s.withWriter w)
  else .error .capacityExceeded

/-! ### Commands -/

/-- BS_INIT (R151). OUT bytes are not erased. -/
def execBsInit (s : State) : Out := settle s (.ok ({}, { s with bs := Shifter.cleared, outLen := 0 }))

/-- BS_READ_BIT (R152). -/
def execBsReadBit (s : State) : Out := settle s (bsRead 1 s)

/-- BS_READ_BITS n (R153). -/
def execBsReadBits (n : Byte) (s : State) : Out :=
  settle s (withLegalImm (decide (1 ≤ n.toNat ∧ n.toNat ≤ 32)) (bsRead n.toNat s))

/-- BS_READ_BYTES n (R143, R154). -/
def execBsReadBytes (n : Byte) (s : State) : Out :=
  settle s (withLegalImm (decide (1 ≤ n.toNat ∧ n.toNat ≤ 4)) (bsRead (8 * n.toNat) s))

/-- BS_WRITE_BIT (R155). -/
def execBsWriteBit (s : State) : Out := settle s (bsWrite 1 s)

/-- BS_WRITE_BITS n (R156). -/
def execBsWriteBits (n : Byte) (s : State) : Out :=
  settle s (withLegalImm (decide (1 ≤ n.toNat ∧ n.toNat ≤ 32)) (bsWrite n.toNat s))

/-- BS_WRITE_BYTES n (R147, R157). -/
def execBsWriteBytes (n : Byte) (s : State) : Out :=
  settle s (withLegalImm (decide (1 ≤ n.toNat ∧ n.toNat ≤ 4)) (bsWrite (8 * n.toNat) s))

/-- BS_FINISH (R158). -/
def execBsFinish (s : State) : Out := settle s (bsFlush s)

/-- BS_STATUS (R159): the cursor, OUT_LEN, and (bs_acc << 8) | bs_nacc. -/
def execBsStatus (s : State) : Out :=
  settle s (.ok ({ r0 := BitVec.ofNat 32 s.bs.rpos, r1 := s.outLen,
                   r2 := (s.bs.acc.setWidth 32 <<< 8) ||| BitVec.ofNat 32 s.bs.nacc }, s))

end Sys2Proof.Machine
end

