-- ==== Sys2Proof/Machine/HashDict.lean ====
section
/-! DEFINITION. UNIT 0x4, the chained_hash_dictionary (44_collections.md R289 to R296): for each 24-bit key a list of positions,
oldest first. The reference bucket organisation of R290 stands at the end; no command reads it. -/

namespace Sys2Proof.Machine

/-- hd_list[k], oldest first (R29). -/
def Dict.list (d : Dict) (k : Nat) : List Word := (Sparse.get d k).getD []

/-- hd_total (R29): the sum of the lengths of all lists. -/
def Dict.total : Dict → Nat
  | [] => 0
  | (_, positions) :: rest => positions.length + Dict.total rest

/-- Appends a position at the newest end of hd_list[k] (R293). -/
def Dict.insert (d : Dict) (k : Nat) (x : Word) : Dict := Sparse.put d k (Dict.list d k ++ [x])

/-- Removes the oldest position of hd_list[k]; a key whose last position goes is no longer kept (R294). -/
def Dict.removeOldest (d : Dict) (k : Nat) : Dict :=
  match Dict.list d k with
  | [] => d
  | [_] => Sparse.del d k
  | _ :: x :: rest => Sparse.put d k (x :: rest)

/-- HD_CLEAR (R292). -/
def execHdClear (s : State) : Out := settle s (.ok ({}, { s with hd := [] }))

/-- HD_INSERT (R293). -/
def execHdInsert (s : State) : Out :=
  settle s <|
    if Dict.total s.hd = Config.hdCap then .error .capacityExceeded
    else
      let k := keyOperand s.opArg0
      let d := Dict.insert s.hd k s.opArg1
      .ok ({ r0 := BitVec.ofNat 32 (Dict.list d k).length, r1 := BitVec.ofNat 32 (Dict.total d) }, { s with hd := d })

/-- HD_REMOVE_OLDEST (R294). -/
def execHdRemoveOldest (s : State) : Out :=
  settle s <|
    let k := keyOperand s.opArg0
    match Dict.list s.hd k with
    | [] => .error .stateError
    | x :: _ =>
      let d := Dict.removeOldest s.hd k
      .ok ({ r0 := x, r1 := BitVec.ofNat 32 (Dict.list d k).length, r2 := BitVec.ofNat 32 (Dict.total d) },
        { s with hd := d })

/-- HD_COUNT (R295). -/
def execHdCount (s : State) : Out :=
  settle s (.ok ({ r0 := BitVec.ofNat 32 (Dict.list s.hd (keyOperand s.opArg0)).length,
                   r1 := BitVec.ofNat 32 (Dict.total s.hd) }, s))

/-- HD_GET (R296): ARG1 is the age rank, 0 the newest. -/
def execHdGet (s : State) : Out :=
  settle s <|
    match (Dict.list s.hd (keyOperand s.opArg0)).reverse[s.opArg1.toNat]? with
    | none => .error .outOfBounds
    | some x => .ok ({ r0 := x }, s)

/-! ### The reference organisation (R290): 4096 buckets, each a list of (key, position) pairs appended at the tail -/

/-- The buckets, by bucket number. -/
abbrev Buckets := Sparse (List (Nat × Word))

/-- h(k) = ((b0·31 + b1)·31 + b2) mod 4096 for the key b0 ‖ b1 ‖ b2 (R290). -/
def refHash (k : Nat) : Nat :=
  ((k / 65536 % 256 * Config.hdHashMul + k / 256 % 256) * Config.hdHashMul + k % 256) % Config.hdBuckets

/-- The pairs of a bucket. -/
def Buckets.pairs (b : Buckets) (h : Nat) : List (Nat × Word) := (Sparse.get b h).getD []

/-- The positions of one key: the subsequence of its bucket with that key (R290). -/
def Buckets.list (b : Buckets) (k : Nat) : List Word :=
  ((Buckets.pairs b (refHash k)).filter (fun e => e.1 == k)).map Prod.snd

/-- Appends a pair at the tail of the key's bucket (R290). -/
def Buckets.insert (b : Buckets) (k : Nat) (x : Word) : Buckets :=
  Sparse.put b (refHash k) (Buckets.pairs b (refHash k) ++ [(k, x)])

/-- Removes the first pair of the key's bucket whose key is `k` (R290). -/
def Buckets.removeOldest (b : Buckets) (k : Nat) : Buckets :=
  Sparse.put b (refHash k) ((Buckets.pairs b (refHash k)).eraseP (fun e => e.1 == k))

end Sys2Proof.Machine
end

