-- ==== Sys2Proof/Machine/Heap.lean ====
section
/-! DEFINITION. UNIT 0x3, the priority_queue_min_heap (44_collections.md R280 to R287): a 0-indexed binary min-heap ordered by
weight only. The heap is the list of its live entries. -/

namespace Sys2Proof.Machine

/-- The entry at an index; every index used is below the size. -/
def heapAt (h : List HeapEntry) (i : Nat) : HeapEntry := h.getD i { weight := 0, payload := 0 }

/-- The weight at an index. -/
def heapWeight (h : List HeapEntry) (i : Nat) : Nat := (heapAt h i).weight.toNat

/-- Swaps two entries. -/
def heapSwap (h : List HeapEntry) (i j : Nat) : List HeapEntry := (h.set i (heapAt h j)).set j (heapAt h i)

/-- The sift-up of Push, with a strict comparison: an entry never passes a parent of equal weight (R282). The first argument
bounds the number of rounds; `i` halves in each, so `i` rounds are enough. -/
def siftUp : Nat → List HeapEntry → Nat → List HeapEntry
  | 0, h, _ => h
  | fuel + 1, h, i =>
    if i = 0 then h
    else
      let j := (i - 1) / 2
      if heapWeight h i < heapWeight h j then siftUp fuel (heapSwap h i j) j else h

/-- Push(w, x) (R282). -/
def heapPush (h : List HeapEntry) (e : HeapEntry) : List HeapEntry := siftUp h.length (h ++ [e]) h.length

/-- The child the sift-down of Pop goes to: the smaller one, the left one on a tie, `i` itself if neither is smaller (R283). -/
def smallestAt (h : List HeapEntry) (i : Nat) : Nat :=
  let l := 2 * i + 1
  let r := 2 * i + 2
  let m := if l < h.length ∧ heapWeight h l < heapWeight h i then l else i
  if r < h.length ∧ heapWeight h r < heapWeight h m then r else m

/-- The sift-down of Pop (R283). The first argument bounds the number of rounds; `i` grows in each. -/
def siftDown : Nat → List HeapEntry → Nat → List HeapEntry
  | 0, h, _ => h
  | fuel + 1, h, i =>
    let m := smallestAt h i
    if m = i then h else siftDown fuel (heapSwap h i m) m

/-- Pop() (R283): the root entry and the heap without it; `none` of an empty heap. -/
def heapPop (h : List HeapEntry) : Option (HeapEntry × List HeapEntry) :=
  match h with
  | [] => none
  | top :: rest =>
    let size := rest.length
    if size = 0 then some (top, [])
    else some (top, siftDown size ((top :: rest).dropLast.set 0 (heapAt (top :: rest) size)) 0)

/-- PQ_CLEAR (R284). -/
def execPqClear (s : State) : Out := settle s (.ok ({}, { s with pq := [] }))

/-- PQ_PUSH (R285). -/
def execPqPush (s : State) : Out :=
  settle s <|
    if s.pq.length = Config.pqCap then .error .capacityExceeded
    else
      let h := heapPush s.pq { weight := s.opArg0, payload := s.opArg1 }
      .ok ({ r0 := BitVec.ofNat 32 h.length }, { s with pq := h })

/-- PQ_POP (R286). -/
def execPqPop (s : State) : Out :=
  settle s <|
    match heapPop s.pq with
    | none => .error .stateError
    | some (e, h) => .ok ({ r0 := e.weight, r1 := e.payload, r2 := BitVec.ofNat 32 h.length }, { s with pq := h })

/-- PQ_SIZE (R287): the size and, when not empty, the entry Pop would return. -/
def execPqSize (s : State) : Out :=
  settle s <|
    match s.pq with
    | [] => .ok ({}, s)
    | e :: rest => .ok ({ r0 := BitVec.ofNat 32 (rest.length + 1), r1 := e.weight, r2 := e.payload }, s)

end Sys2Proof.Machine
end

