-- ==== Sys2Proof/Machine/Huffman.lean ====
section
/-! DEFINITION. UNIT 0x6, the huffman_tree_builder, and the Huffman codec of UNIT 0x1 (41_huffman.md): tree construction (R170),
codes (R176), serialization (R177), the decoder (R180 to R182) and the commands. -/

namespace Sys2Proof.Machine

/-! ### Tree construction (R170) -/

/-- The nodes made so far and the heap of their indices. -/
abbrev Building := List Node × List HeapEntry

/-- NewNode and Push of it: the node takes the next index, and the index is its heap payload (R170). -/
def addNode (b : Building) (n : Node) (weight : Word) : Building :=
  (b.1 ++ [n], heapPush b.2 { weight := weight, payload := BitVec.ofNat 32 b.1.length })

/-- How often a byte value occurs in the input (R170). -/
def occurrences (input : List Byte) (v : Nat) : Nat := input.count (BitVec.ofNat 8 v)

/-- The leaf of one byte value, if it occurs (R170). -/
def addLeaf (input : List Byte) (b : Building) (v : Nat) : Building :=
  if occurrences input v = 0 then b
  else addNode b (.leaf (BitVec.ofNat 8 v) (BitVec.ofNat 32 (occurrences input v))) (BitVec.ofNat 32 (occurrences input v))

/-- All leaves in ascending byte value, then the EOF leaf (R170, D11). -/
def allLeaves (input : List Byte) : Building :=
  addNode ((List.range 256).foldl (addLeaf input) ([], [])) (.eof Config.eofWeight) Config.eofWeight

/-- The combining loop: pop two, the first popped the left child, push their internal node (R170, D13). The first argument bounds
the rounds; each leaves one entry fewer. -/
def combine : Nat → Building → Building
  | 0, b => b
  | fuel + 1, (nodes, heap) =>
    match heapPop heap with
    | none => (nodes, heap)
    | some (a, heap1) =>
      match heapPop heap1 with
      | none => (nodes, heap)
      | some (b, heap2) =>
        combine fuel
          (addNode (nodes, heap2) (.internal a.payload.toNat b.payload.toNat (a.weight + b.weight)) (a.weight + b.weight))

/-- ht_count of an input (R170). -/
def countTable (input : List Byte) : Vector Word 256 :=
  ⟨((List.range 256).map (fun v => BitVec.ofNat 32 (occurrences input v))).toArray, by simp⟩

/-- BuildTree() (R170). -/
def buildTree (input : List Byte) : Tree :=
  let leaves := allLeaves input
  let built := combine leaves.2.length leaves
  { counts := countTable input
    nodes := built.1
    root := match heapPop built.2 with
      | some (e, _) => e.payload.toNat
      | none => 0
    valid := true }

/-- D, the number of distinct byte values of an input (R171). -/
def distinctBytes (input : List Byte) : Nat := ((List.range 256).filter (fun v => occurrences input v != 0)).length

/-! ### Codes and serialization (R176, R177) -/

/-- The leaves below a node with their codes, each code its path after `path`, in preorder (R176). The first argument bounds the
depth; a tree of n nodes is less than n deep. -/
def leafCodes (nodes : List Node) : Nat → Nat → List Bool → List (Node × List Bool)
  | 0, _, _ => []
  | fuel + 1, n, path =>
    match nodes[n]? with
    | none => []
    | some (.internal l r _) => leafCodes nodes fuel l (path ++ [false]) ++ leafCodes nodes fuel r (path ++ [true])
    | some nd => [(nd, path)]

/-- The leaf a symbol stands for: a byte value 0..255, or 256 for the EOF leaf (R176). -/
def Node.isSymbol (sym : Nat) : Node → Bool
  | .leaf v _ => v.toNat == sym
  | .eof _ => sym == 256
  | .internal _ _ _ => false

/-- Code(s) (R176) looked up in the leaves and codes of a tree; empty where the tree has no such leaf. -/
def codeIn (codes : List (Node × List Bool)) (sym : Nat) : List Bool :=
  match codes.find? (fun c => c.1.isSymbol sym) with
  | some (_, code) => code
  | none => []

/-- The leaves of a tree with their codes. -/
def Tree.codes (t : Tree) : List (Node × List Bool) := leafCodes t.nodes t.nodes.length t.root []

/-- Code(s) (R176). -/
def Tree.code (t : Tree) (sym : Nat) : List Bool := codeIn t.codes sym

/-- Serialize(n), preorder (R177); the EOF leaf is written as a leaf of value EOF_LEAF_VALUE (R178). -/
def serialize (nodes : List Node) : Nat → Nat → List Bool
  | 0, _ => []
  | fuel + 1, n =>
    match nodes[n]? with
    | none => []
    | some (.internal l r _) => false :: (serialize nodes fuel l ++ serialize nodes fuel r)
    | some (.leaf v _) => true :: bitsOf v.toNat 8
    | some (.eof _) => true :: bitsOf Config.eofLeafValue.toNat 8

/-- The bits HUF_COMPRESS writes (R183): tag, tree, EOF code as the mark, the code of each input byte, EOF code as the end. -/
def hufStream (tag : Word) (t : Tree) (input : List Byte) : List Bool :=
  let codes := t.codes
  tagBits tag ++ serialize t.nodes t.nodes.length t.root ++ codeIn codes 256 ++
    input.flatMap (fun b => codeIn codes b.toNat) ++ codeIn codes 256

/-- HUF_COMPRESS as a function of the input (R183). -/
def hufCompress (p : Config.Params) (input : List Byte) : Except CodecRaise CodecDone :=
  let t := buildTree input
  packStream p.outCap (hufStream p.tagHuf t input) t.nodes.length

/-! ### Decoding (R180 to R182) -/

/-- Deserialize() (R180): the root of the tree read, the arena and the bits after it. The first argument bounds the depth: each
level holds a node of the arena, so 514 levels are enough (D15). -/
def deserialize : Nat → List Node → List Bool → Except Err (Nat × List Node × List Bool)
  | 0, _, _ => .error .capacityExceeded
  | _ + 1, _, [] => .error .unexpectedEndOfStream
  | _ + 1, nodes, true :: bits =>
    match takeBits 8 bits with
    | none => .error .unexpectedEndOfStream
    | some (v, rest) =>
      if nodes.length = Config.hufMaxNodes then .error .capacityExceeded
      else .ok (nodes.length, nodes ++ [.leaf (BitVec.ofNat 8 (ofBits v)) 0], rest)
  | fuel + 1, nodes, false :: bits =>
    if nodes.length = Config.hufMaxNodes then .error .capacityExceeded
    else
      match deserialize fuel (nodes ++ [.internal 0 0 0]) bits with
      | .error e => .error e
      | .ok (l, nodes1, bits1) =>
        match deserialize fuel nodes1 bits1 with
        | .error e => .error e
        | .ok (r, nodes2, bits2) => .ok (nodes.length, nodes2.set nodes.length (.internal l r 0), bits2)

/-- Walk(r): follows code bits from a node to a leaf; the leaf and the bits after its code, or `none` where the bits run out
(R181). A leaf root reads no bit. -/
def walk (nodes : List Node) : List Bool → Nat → Option (Nat × List Bool)
  | [], n =>
    match nodes[n]? with
    | some (.internal _ _ _) => none
    | _ => some (n, [])
  | b :: bits, n =>
    match nodes[n]? with
    | some (.internal l r _) => walk nodes bits (if b then r else l)
    | _ => some (n, b :: bits)

/-- value(n) of a leaf. -/
def nodeValue (nodes : List Node) (n : Nat) : Byte :=
  match nodes[n]? with
  | some (.leaf v _) => v
  | _ => 0

/-- The payload loop of HUF_DECOMPRESS (R184): walk from the root; the EOF leaf, told by its index (R182), ends it. The first
argument bounds the rounds: each but the last reads a bit, so one more than the bits left is enough. -/
def hufPayload (cap : Nat) (nodes : List Node) (root eofLeaf : Nat) :
    Nat → List Bool → Writer → Except CodecRaise (Writer × List Bool)
  | 0, _, w => .error { err := .unexpectedEndOfStream, written := w.len }
  | fuel + 1, bits, w =>
    match walk nodes bits root with
    | none => .error { err := .unexpectedEndOfStream, written := w.len }
    | some (n, rest) =>
      if n = eofLeaf then .ok (w, rest)
      else
        match appendByte cap (nodeValue nodes n) w with
        | .error e => .error e
        | .ok w' => hufPayload cap nodes root eofLeaf fuel rest w'

/-- HUF_DECOMPRESS as a function of the input (R184). -/
def hufDecompress (p : Config.Params) (input : List Byte) : Except CodecRaise CodecDone :=
  let bits := streamBits input
  match openStream p.tagHuf bits with
  | .error e => .error e
  | .ok bits1 =>
    match deserialize (Config.hufMaxNodes + 1) [] bits1 with
    | .error e => .error { err := e, written := 0 }
    | .ok (root, nodes, bits2) =>
      match walk nodes bits2 root with
      | none => .error { err := .unexpectedEndOfStream, written := 0 }
      | some (eofLeaf, bits3) =>
        match hufPayload p.outCap nodes root eofLeaf (bits3.length + 1) bits3 Writer.fresh with
        | .error e => .error e
        | .ok (w, rest) => .ok { out := w.out.reverse, r1 := bits.length - rest.length, r2 := nodes.length }

/-! ### Commands -/

/-- HUF_COMPRESS (R183). -/
def execHufCompress (s : State) : Out := settleCodec s (withInputBytes s (hufCompress s.params))

/-- HUF_DECOMPRESS (R184). -/
def execHufDecompress (s : State) : Out := settleCodec s (withInputBytes s (hufDecompress s.params))

/-- HT_CLEAR (R186). The priority queue is not touched. -/
def execHtClear (s : State) : Out := settle s (.ok ({}, { s with ht := Tree.cleared }))

/-- HT_BUILD (R187): builds the tree and leaves the priority queue empty. -/
def execHtBuild (s : State) : Out :=
  settle s <| withInput s <|
    let input := s.inBytes s.opLen
    let t := buildTree input
    .ok ({ r0 := BitVec.ofNat 32 t.root, r1 := BitVec.ofNat 32 t.nodes.length, r2 := BitVec.ofNat 32 (distinctBytes input) },
      { s with ht := t, pq := [] })

/-- The results of HT_NODE: kind and value, weight, children (R188, D44). -/
def nodeResults : Node → Results
  | .leaf v w => { r0 := v.setWidth 32, r1 := w, r2 := 0xFFFFFFFF }
  | .internal l r w => { r0 := 0x100, r1 := w, r2 := (BitVec.ofNat 32 l <<< 16) ||| BitVec.ofNat 32 r }
  | .eof w => { r0 := 0x200, r1 := w, r2 := 0xFFFFFFFF }

/-- HT_NODE (R188). -/
def execHtNode (s : State) : Out :=
  settle s <|
    if s.ht.valid then
      match s.ht.nodes[s.opArg0.toNat]? with
      | none => .error .outOfBounds
      | some n => .ok (nodeResults n, s)
    else .error .outOfBounds

/-- Slice `k` of a code: code bits 32k..32k+31, the first in bit 31, zeros where the code has ended (R189, D44). -/
def codeSlice (code : List Bool) (k : Nat) : Word :=
  let bits := (code.drop (32 * k)).take 32
  BitVec.ofNat 32 (ofBits (bits ++ List.replicate (32 - bits.length) false))

/-- Symbol `sym` has a code in the tree: the EOF leaf always, a byte value if it occurred (R189). -/
def Tree.hasSymbol (t : Tree) (sym : Nat) : Bool :=
  t.valid && (decide (256 ≤ sym) || (t.counts.toList.getD sym 0 != 0))

/-- HT_CODE k (R189). -/
def execHtCode (k : Byte) (s : State) : Out :=
  settle s <| withLegalImm (decide (k.toNat ≤ 7)) <|
    let sym := s.opArg0.toNat
    if 256 < sym then .error .outOfBounds
    else if s.ht.hasSymbol sym then
      let code := s.ht.code sym
      .ok ({ r0 := BitVec.ofNat 32 code.length, r1 := codeSlice code k.toNat, r2 := 1 }, s)
    else .ok ({}, s)

end Sys2Proof.Machine
end

