-- ==== Sys2Proof/Machine/Window.lean ====
section
/-! DEFINITION. UNIT 0x5, the circular_window_buffer (44_collections.md R300 to R306). -/

namespace Sys2Proof.Machine

/-- The byte at an absolute position: the slot `p mod CW_CAP` (R30, R300). -/
def Window.byteAt (w : Window) (p : Nat) : Byte :=
  (Sparse.get w.buf (p % Config.cwCap)).getD (Config.cwPowerOn (p % Config.cwCap))

/-- Position `p` is readable: written and not yet overwritten (R300). -/
def Window.readable (w : Window) (p : Nat) : Prop := w.head - Config.cwCap ≤ p ∧ p < w.head

/-- CwWrite(b): the write without its checks (R214, R303). -/
def Window.push (w : Window) (b : Byte) : Window :=
  { w with buf := Sparse.put w.buf (w.head % Config.cwCap) b, head := w.head + 1 }

/-- CW_CLEAR (R302): the bytes of cw_buf stay, but none is readable. -/
def execCwClear (s : State) : Out := settle s (.ok ({}, { s with cw := { s.cw with head := 0, cursor := 0 } }))

/-- CW_WRITE (R303): refused at the top position, and where it would evict the byte at the cursor (D37). -/
def execCwWrite (s : State) : Out :=
  settle s <|
    if s.cw.head = Config.cwTopPosition then .error .capacityExceeded
    else if s.cw.cursor + Config.cwCap < s.cw.head + 1 then .error .outOfBounds
    else .ok ({ r0 := BitVec.ofNat 32 s.cw.head }, { s with cw := Window.push s.cw (byteOperand s.opArg0) })

/-- CW_READ (R304): ARG0 is a signed displacement from the cursor. -/
def execCwRead (s : State) : Out :=
  settle s <|
    let p : Int := (s.cw.cursor : Int) + signedOperand s.opArg0
    if 0 ≤ p ∧ (s.cw.head : Int) - (Config.cwCap : Nat) ≤ p ∧ p < (s.cw.head : Int) then
      .ok ({ r0 := (s.cw.byteAt p.toNat).setWidth 32, r1 := BitVec.ofNat 32 p.toNat }, s)
    else .error .outOfBounds

/-- CW_MOVE_CURSOR (R305): the cursor may be set equal to the head. -/
def execCwMoveCursor (s : State) : Out :=
  settle s <|
    let c : Int := (s.cw.cursor : Int) + signedOperand s.opArg0
    if 0 ≤ c ∧ (s.cw.head : Int) - (Config.cwCap : Nat) ≤ c ∧ c ≤ (s.cw.head : Int) then
      .ok ({ r0 := BitVec.ofNat 32 c.toNat }, { s with cw := { s.cw with cursor := c.toNat } })
    else .error .outOfBounds

/-- CW_STATUS (R306): the head, the cursor, the number of readable positions. -/
def execCwStatus (s : State) : Out :=
  settle s (.ok ({ r0 := BitVec.ofNat 32 s.cw.head, r1 := BitVec.ofNat 32 s.cw.cursor,
                   r2 := BitVec.ofNat 32 (min s.cw.head Config.cwCap) }, s))

end Sys2Proof.Machine
end

