-- ==== Sys2Proof/Machine/Lzss.lean ====
section
/-! DEFINITION. UNIT 0x7, the lzss_match_finder, and the LZSS codec of UNIT 0x1 (42_lzss.md): FindMatch as a function of the input
(R211), the window-and-dictionary organisation that LZSS_COMPRESS runs (R213, R217), the emitter (R214) and the decoder (R219). -/

namespace Sys2Proof.Machine

/-! ### The match finder (R210, R211) -/

/-- key(p) = b0 ‖ b1 ‖ b2, the 24-bit key at a position (R210). -/
def keyAt (byte : Nat → Byte) (p : Nat) : Nat :=
  (byte p).toNat * 65536 + (byte (p + 1)).toNat * 256 + (byte (p + 2)).toNat

/-- The comparison loop: how far the bytes at `p` and `c` agree, from length `l` on, up to `lim` (R211). The first argument bounds
the rounds. -/
def extendMatch (byte : Nat → Byte) (p c lim : Nat) : Nat → Nat → Nat
  | 0, l => l
  | fuel + 1, l => if l < lim ∧ byte (p + l) = byte (c + l) then extendMatch byte p c lim fuel (l + 1) else l

/-- The match length of a candidate, which already agrees on the 3 bytes of the key (R211). -/
def matchLength (byte : Nat → Byte) (p c lim : Nat) : Nat := extendMatch byte p c lim lim 3

/-- The scan over the candidates in the order given: a candidate replaces the best so far only if strictly longer, and length 18
stops the scan (R211). The pair is (length M, offset O). -/
def scanMatches (byte : Nat → Byte) (c lim : Nat) : List Nat → Nat × Nat → Nat × Nat
  | [], best => best
  | p :: rest, best =>
    let l := matchLength byte p c lim
    let best' := if best.1 < l then (l, c - p) else best
    if best'.1 = Config.lzssMaxMatch then best' else scanMatches byte c lim rest best'

/-- A match shorter than 3 is no match (R211). -/
def atLeastMin (best : Nat × Nat) : Nat × Nat := if Config.lzssMinMatch ≤ best.1 then best else (0, 0)

/-- The candidates of R211, newest first: the positions c-1 down to max(0, c-4095) whose key is the key at c. -/
def candidates (byte : Nat → Byte) (c : Nat) : List Nat :=
  ((List.range (min c Config.lzssHistoryCap)).map (fun i => c - 1 - i)).filter (fun p => keyAt byte p == keyAt byte c)

/-- FindMatch(c) over the input, N its length (R211). -/
def findMatch (byte : Nat → Byte) (N c : Nat) : Nat × Nat :=
  if N - c < 3 then (0, 0)
  else atLeastMin (scanMatches byte c (min Config.lzssLookaheadCap (N - c)) (candidates byte c) (0, 0))

/-! ### The engine's organisation (R213, R217) -/

/-- The working state of LZSS_COMPRESS: the position, the window and the dictionary (R213). -/
structure LzssWork where
  c : Nat
  cw : Window
  hd : Dict
  deriving DecidableEq, Repr

/-- Fills the lookahead: while cw_head < min(N, 18), CwWrite(IN[cw_head]) (R214). -/
def fillLookahead (byte : Nat → Byte) : Nat → Window → Window
  | 0, w => w
  | count + 1, w => fillLookahead byte count (w.push (byte w.head))

/-- The work at the start of the loop: cleared window and dictionary, the lookahead filled (R214). -/
def LzssWork.start (byte : Nat → Byte) (N : Nat) : LzssWork :=
  { c := 0, cw := fillLookahead byte (min N Config.lzssLookaheadCap) { buf := [], head := 0, cursor := 0 }, hd := [] }

/-- The match finder of the engine: scans hd_list[key(c)] newest to oldest, reading window bytes (R213). -/
def LzssWork.find (w : LzssWork) (N : Nat) : Nat × Nat :=
  if N - w.c < 3 then (0, 0)
  else
    atLeastMin (scanMatches w.cw.byteAt w.c (min Config.lzssLookaheadCap (N - w.c))
      ((Dict.list w.hd (keyAt w.cw.byteAt w.c)).reverse.map BitVec.toNat) (0, 0))

/-- Advance(): the one-position slide of the window and the dictionary, in the order of R217. The removal reads its key from the
window before the new byte is written (R385). -/
def LzssWork.advance (byte : Nat → Byte) (N : Nat) (w : LzssWork) : LzssWork :=
  let hd1 := if Config.lzssHistoryCap ≤ w.c then Dict.removeOldest w.hd (keyAt w.cw.byteAt (w.c - Config.lzssHistoryCap))
    else w.hd
  let hd2 := if w.c + 3 ≤ N then Dict.insert hd1 (keyAt w.cw.byteAt w.c) (BitVec.ofNat 32 w.c) else hd1
  let cw1 : Window := { w.cw with cursor := w.c + 1 }
  { c := w.c + 1
    cw := if w.cw.head < N then cw1.push (byte w.cw.head) else cw1
    hd := hd2 }

/-- `Advance()` repeated (R214). -/
def LzssWork.advanceBy (byte : Nat → Byte) (N : Nat) : Nat → LzssWork → LzssWork
  | 0, w => w
  | times + 1, w => LzssWork.advanceBy byte N times (LzssWork.advance byte N w)

/-! ### The emitter (R109, R214) -/

/-- A block of the stream but the end block. -/
inductive Block where
  | literal (b : Byte)
  | pointer (offset length : Nat)
  deriving DecidableEq, Repr

/-- The bits of a block: `0` and the byte, or `1`, the offset in 12 bits and length - 3 in 4 bits (R109). -/
def Block.bits : Block → List Bool
  | .literal b => false :: bitsOf b.toNat 8
  | .pointer offset length =>
    true :: (bitsOf offset Config.lzssOffsetBits ++ bitsOf (length - Config.lzssMinMatch) Config.lzssLengthBits)

/-- The end block: offset 0, length field 0 (R109, D16). -/
def endBlockBits : List Bool := true :: (bitsOf 0 Config.lzssOffsetBits ++ bitsOf 0 Config.lzssLengthBits)

/-- The block is a pointer. -/
def Block.isPointer : Block → Bool
  | .pointer _ _ => true
  | .literal _ => false

/-- The blocks LZSS_COMPRESS emits from a working state on (R214). The first argument bounds the rounds: each advances by at
least one position. -/
def lzssBlocks (byte : Nat → Byte) (N : Nat) : Nat → LzssWork → List Block
  | 0, _ => []
  | fuel + 1, w =>
    if w.c < N then
      let m := w.find N
      if Config.lzssMinMatch ≤ m.1 then
        .pointer m.2 m.1 :: lzssBlocks byte N fuel (LzssWork.advanceBy byte N m.1 w)
      else .literal (byte w.c) :: lzssBlocks byte N fuel (LzssWork.advance byte N w)
    else []

/-- The same greedy parse decided by FindMatch over the input (R211, R214): the normative result, which the engine's organisation
computes (R213). -/
def lzssParse (byte : Nat → Byte) (N : Nat) : Nat → Nat → List Block
  | 0, _ => []
  | fuel + 1, c =>
    if c < N then
      let m := findMatch byte N c
      if Config.lzssMinMatch ≤ m.1 then .pointer m.2 m.1 :: lzssParse byte N fuel (c + m.1)
      else .literal (byte c) :: lzssParse byte N fuel (c + 1)
    else []

/-- The bits LZSS_COMPRESS writes for its blocks (R214). -/
def lzssStream (tag : Word) (blocks : List Block) : List Bool :=
  tagBits tag ++ blocks.flatMap Block.bits ++ endBlockBits

/-- The byte of an input at a position. -/
def inputAt (input : List Byte) (p : Nat) : Byte := input.getD p 0

/-- LZSS_COMPRESS as a function of the input (R214). -/
def lzssCompress (p : Config.Params) (input : List Byte) : Except CodecRaise CodecDone :=
  let byte := inputAt input
  let blocks := lzssBlocks byte input.length input.length (LzssWork.start byte input.length)
  packStream p.outCap (lzssStream p.tagLzss blocks) (blocks.filter Block.isPointer).length

/-! ### The decoder (R219) -/

/-- The copy of a pointer: AppendByte(OUT[OUT_LEN - o]) `count` times, each byte read after the one before is appended (R219,
R220). -/
def copyBack (cap o : Nat) : Nat → Writer → Except CodecRaise Writer
  | 0, w => .ok w
  | count + 1, w =>
    match appendByte cap (w.out.getD (o - 1) 0) w with
    | .error e => .error e
    | .ok w' => copyBack cap o count w'

/-- The block loop of LZSS_DECOMPRESS (R219): the output, the pointer blocks decoded and the bits after the end block. The first
argument bounds the rounds: each reads a bit. -/
def lzssPayload (cap : Nat) : Nat → List Bool → Writer → Nat → Except CodecRaise (Writer × Nat × List Bool)
  | 0, _, w, _ => .error { err := .unexpectedEndOfStream, written := w.len }
  | _ + 1, [], w, _ => .error { err := .unexpectedEndOfStream, written := w.len }
  | fuel + 1, true :: bits, w, nptr =>
    match takeBits Config.lzssOffsetBits bits with
    | none => .error { err := .unexpectedEndOfStream, written := w.len }
    | some (o, bits1) =>
      match takeBits Config.lzssLengthBits bits1 with
      | none => .error { err := .unexpectedEndOfStream, written := w.len }
      | some (l, bits2) =>
        if ofBits o = 0 then .ok (w, nptr, bits2)
        else if w.len < ofBits o then .error { err := .outOfBounds, written := w.len }
        else
          match copyBack cap (ofBits o) (ofBits l + Config.lzssMinMatch) w with
          | .error e => .error e
          | .ok w' => lzssPayload cap fuel bits2 w' (nptr + 1)
  | fuel + 1, false :: bits, w, nptr =>
    match takeBits 8 bits with
    | none => .error { err := .unexpectedEndOfStream, written := w.len }
    | some (b, bits1) =>
      match appendByte cap (BitVec.ofNat 8 (ofBits b)) w with
      | .error e => .error e
      | .ok w' => lzssPayload cap fuel bits1 w' nptr

/-- LZSS_DECOMPRESS as a function of the input (R219). -/
def lzssDecompress (p : Config.Params) (input : List Byte) : Except CodecRaise CodecDone :=
  let bits := streamBits input
  match openStream p.tagLzss bits with
  | .error e => .error e
  | .ok bits1 =>
    match lzssPayload p.outCap (bits1.length + 1) bits1 Writer.fresh 0 with
    | .error e => .error e
    | .ok (w, nptr, rest) => .ok { out := w.out.reverse, r1 := bits.length - rest.length, r2 := nptr }

/-! ### Commands -/

/-- LZSS_COMPRESS (R214). -/
def execLzssCompress (s : State) : Out := settleCodec s (withInputBytes s (lzssCompress s.params))

/-- LZSS_DECOMPRESS (R219). -/
def execLzssDecompress (s : State) : Out := settleCodec s (withInputBytes s (lzssDecompress s.params))

/-- LZSS_FIND (R212): FindMatch at ARG0 over IN; no sub-unit state changes. -/
def execLzssFind (s : State) : Out :=
  settle s <| withInput s <|
    if s.opLen < s.opArg0.toNat then .error .outOfBounds
    else
      let m := findMatch s.inByte s.opLen s.opArg0.toNat
      .ok ({ r0 := BitVec.ofNat 32 m.1, r1 := BitVec.ofNat 32 m.2 }, s)

end Sys2Proof.Machine
end

