-- ==== Sys2Proof/Machine/Lzw.lean ====
section
/-! DEFINITION. UNIT 0x8, the lzw_trie_traversal and lzw_code_width_controller, and the LZW codec of UNIT 0x1 (43_lzw.md). The
dictionary is the list of its entries 257..lzw_next-1; the trie is looked up in it (R240). -/

namespace Sys2Proof.Machine

/-! ### Dictionary, trie and width (R240 to R242) -/

/-- lzw_next: the next index to be assigned (R32). -/
def Trie.next (t : Trie) : Nat := Config.lzwFirstFree + t.length

/-- `bitlen(E)` (R9). -/
def bitlen (e : Nat) : Nat := if e = 0 then 0 else Nat.log2 e + 1

/-- W(E) = max(9, bitlen(E)) (R241). -/
def codeWidth (e : Nat) : Nat := max Config.lzwMinWidth (bitlen e)

/-- lzw_width, always W(lzw_next) (R32, R241). -/
def Trie.width (t : Trie) : Nat := codeWidth t.next

/-- lzw_child(p, b): the index of the entry (p, b) (R240). -/
def Trie.child (t : Trie) (p : Nat) (b : Byte) : Option Nat :=
  (t.findIdx? (fun e => e.parent == p && e.last == b)).map (Config.lzwFirstFree + ·)

/-- The entry of an index above 256. -/
def Trie.entry (t : Trie) (i : Nat) : Option TrieEntry :=
  if i < Config.lzwFirstFree then none else t[i - Config.lzwFirstFree]?

/-- Insert(p, b): the new entry; when it is the one at index 65535 the dictionary is flushed (R242). The Bool says whether it
flushed. -/
def Trie.insert (t : Trie) (p : Nat) (b : Byte) : Trie × Bool :=
  if t.next + 1 = Config.lzwDictCap then ([], true) else (t ++ [{ parent := p, last := b }], false)

/-- Seq(i), last byte first, rebuilt by walking the parents (R240, R243). The first argument bounds the walk; a parent's index is
less than its entry's. Index 256 has no sequence. -/
def Trie.seqRev (t : Trie) : Nat → Nat → List Byte
  | 0, _ => []
  | fuel + 1, i =>
    if i < 256 then [BitVec.ofNat 8 i]
    else
      match Trie.entry t i with
      | none => []
      | some e => e.last :: Trie.seqRev t fuel e.parent

/-- Seq(i) (R240). -/
def Trie.seq (t : Trie) (i : Nat) : List Byte := (Trie.seqRev t (t.length + 1) i).reverse

/-- A live index that has a sequence: not 256, below lzw_next (R253, R254, R257). -/
def Trie.live (t : Trie) (i : Nat) : Bool := decide (i ≠ Config.lzwEof ∧ i < t.next)

/-! ### Encoder (R244 to R246) -/

/-- One more of a count of flushes, if there was one (R242). -/
def addFlush (nflush : Nat) (flushed : Bool) : Nat := if flushed then nflush + 1 else nflush

/-- EncodeEnd(): the final code, which counts as one more code although nothing is inserted, then the EOF index at the width that
count gives (R245, D20). -/
def lzwEncodeEnd (t : Trie) (nflush : Nat) : Option Nat → List Bool × Nat
  | none => (bitsOf Config.lzwEof (codeWidth t.next), nflush)
  | some cur =>
    let flushed := decide (t.next + 1 = Config.lzwDictCap)
    let next := if flushed then Config.lzwFirstFree else t.next + 1
    (bitsOf cur (codeWidth t.next) ++ bitsOf Config.lzwEof (codeWidth next), addFlush nflush flushed)

/-- EncodeByte for each input byte, then EncodeEnd: the bits written and the flushes (R244, R245). `cur` is the index of the
longest known sequence that ends at the last byte read. -/
def lzwEncode : List Byte → Option Nat → Trie → Nat → List Bool × Nat
  | [], cur, t, nflush => lzwEncodeEnd t nflush cur
  | b :: rest, none, t, nflush => lzwEncode rest (some b.toNat) t nflush
  | b :: rest, some cur, t, nflush =>
    match Trie.child t cur b with
    | some i => lzwEncode rest (some i) t nflush
    | none =>
      let ins := Trie.insert t cur b
      let tail := lzwEncode rest (some b.toNat) ins.1 (addFlush nflush ins.2)
      (bitsOf cur (codeWidth t.next) ++ tail.1, tail.2)

/-- LZW_COMPRESS as a function of the input (R246). -/
def lzwCompress (p : Config.Params) (input : List Byte) : Except CodecRaise CodecDone :=
  let r := lzwEncode input none [] 0
  packStream p.outCap (tagBits p.tagLzw ++ r.1) r.2

/-! ### Decoder (R248 to R251) -/

/-- The sequence a code stands for and the dictionary after it, or `none` for an index the encoder cannot have written (R248, R249,
R251). -/
def lzwDecodeCode (t : Trie) (prev : Option Nat) (c : Nat) : Option (List Byte × Trie × Bool) :=
  match prev with
  | none => if 255 < c then none else some ([BitVec.ofNat 8 c], t, false)
  | some pv =>
    if t.next < c then none
    else
      let s := if c < t.next then Trie.seq t c else Trie.seq t pv ++ (Trie.seq t pv).take 1
      if t.next = 65535 ∧ 255 < c then none
      else
        let ins := Trie.insert t pv (s.headD 0)
        some (s, ins.1, ins.2)

/-- The code loop of LZW_DECOMPRESS (R248): the output, the flushes and the bits after the EOF code. `encNext` is the encoder's
count at the code being read (R250). The first argument bounds the rounds: each reads a bit. -/
def lzwPayload (cap : Nat) :
    Nat → List Bool → Writer → Trie → Nat → Option Nat → Nat → Except CodecRaise (Writer × Nat × List Bool)
  | 0, _, w, _, _, _, _ => .error { err := .unexpectedEndOfStream, written := w.len }
  | fuel + 1, bits, w, t, encNext, prev, nflush =>
    match takeBits (codeWidth encNext) bits with
    | none => .error { err := .unexpectedEndOfStream, written := w.len }
    | some (code, rest) =>
      let c := ofBits code
      if c = Config.lzwEof then .ok (w, nflush, rest)
      else
        match lzwDecodeCode t prev c with
        | none => .error { err := .corruptStream, written := w.len }
        | some (s, t', flushed) =>
          match appendAll cap s w with
          | .error e => .error e
          | .ok w' =>
            let encNext' := if encNext + 1 = Config.lzwDictCap then Config.lzwFirstFree else encNext + 1
            lzwPayload cap fuel rest w' t' encNext' (some c) (addFlush nflush flushed)

/-- LZW_DECOMPRESS as a function of the input (R248). -/
def lzwDecompress (p : Config.Params) (input : List Byte) : Except CodecRaise CodecDone :=
  let bits := streamBits input
  match openStream p.tagLzw bits with
  | .error e => .error e
  | .ok bits1 =>
    match lzwPayload p.outCap (bits1.length + 1) bits1 Writer.fresh [] Config.lzwFirstFree none 0 with
    | .error e => .error e
    | .ok (w, nflush, rest) => .ok { out := w.out.reverse, r1 := bits.length - rest.length, r2 := nflush }

/-! ### Commands -/

/-- LZW_COMPRESS (R246). -/
def execLzwCompress (s : State) : Out := settleCodec s (withInputBytes s (lzwCompress s.params))

/-- LZW_DECOMPRESS (R248). -/
def execLzwDecompress (s : State) : Out := settleCodec s (withInputBytes s (lzwDecompress s.params))

/-- LZW_CLEAR: Flush() (R252). -/
def execLzwClear (s : State) : Out := settle s (.ok ({}, { s with lzw := [] }))

/-- LZW_LOOKUP (R253). -/
def execLzwLookup (s : State) : Out :=
  settle s <|
    let b := byteOperand s.opArg1
    if s.opArg0 = Config.noneWord then .ok ({ r0 := 1, r1 := b.setWidth 32 }, s)
    else if Trie.live s.lzw s.opArg0.toNat then
      match Trie.child s.lzw s.opArg0.toNat b with
      | some i => .ok ({ r0 := 1, r1 := BitVec.ofNat 32 i }, s)
      | none => .ok ({}, s)
    else .error .outOfBounds

/-- LZW_INSERT (R254). -/
def execLzwInsert (s : State) : Out :=
  settle s <|
    let p := s.opArg0.toNat
    let b := byteOperand s.opArg1
    if Trie.live s.lzw p then
      match Trie.child s.lzw p b with
      | some _ => .error .stateError
      | none =>
        let ins := Trie.insert s.lzw p b
        .ok ({ r0 := BitVec.ofNat 32 (Trie.next s.lzw), r1 := BitVec.ofNat 32 (Trie.width ins.1),
               r2 := if ins.2 then 1 else 0 }, { s with lzw := ins.1 })
    else .error .outOfBounds

/-- LZW_WIDTH (R255). -/
def execLzwWidth (s : State) : Out :=
  settle s <|
    if 65535 < s.opArg0.toNat then .error .outOfBounds
    else .ok ({ r0 := BitVec.ofNat 32 (codeWidth s.opArg0.toNat) }, s)

/-- LZW_STATUS (R256). -/
def execLzwStatus (s : State) : Out :=
  settle s (.ok ({ r0 := BitVec.ofNat 32 (Trie.next s.lzw), r1 := BitVec.ofNat 32 (Trie.width s.lzw),
                   r2 := BitVec.ofNat 32 (Trie.next s.lzw - Config.lzwFirstFree) }, s))

/-- LZW_ENTRY (R257): the parent index, the last byte and the length of the sequence. -/
def execLzwEntry (s : State) : Out :=
  settle s <|
    let i := s.opArg0.toNat
    if i ≤ 255 then .ok ({ r0 := Config.noneWord, r1 := s.opArg0, r2 := 1 }, s)
    else
      match Trie.entry s.lzw i with
      | none => .error .outOfBounds
      | some e => .ok ({ r0 := BitVec.ofNat 32 e.parent, r1 := e.last.setWidth 32,
                         r2 := BitVec.ofNat 32 (Trie.seq s.lzw i).length }, s)

end Sys2Proof.Machine
end

