-- ==== Sys2Proof/Machine/System.lean ====
section
/-! DEFINITION. UNIT 0x0, the system commands (45_system.md). -/

namespace Sys2Proof.Machine

/-- NOP (R320): the completion and nothing else. -/
def execNop (s : State) : Out := settle s (.ok ({}, s))

/-- CLEAR_ALL (R322): every sub-unit cleared and OUT_LEN 0; IN_BUF, IN_LEN, ARG0, ARG1, IRQ_EN and the bytes of OUT_BUF stay. -/
def execClearAll (s : State) : Out := settle s (.ok ({}, { s.clearUnits with outLen := 0 }))

end Sys2Proof.Machine
end

