-- ==== Sys2Proof/Machine/Dispatch.lean ====
section
/-! DEFINITION. The dispatch: what the engine does with each command (30_encoding.md R103), one arm per constructor. -/

namespace Sys2Proof.Machine

/-- One command, run from the state in which the engine holds it (R386). -/
def exec (i : Instr) (s : State) : Host.Outcome State Fault Refusal :=
  match i with
  | .nop => Sys2Proof.Machine.execNop s
  | .clearAll => Sys2Proof.Machine.execClearAll s
  | .hufCompress => Sys2Proof.Machine.execHufCompress s
  | .hufDecompress => Sys2Proof.Machine.execHufDecompress s
  | .lzssCompress => Sys2Proof.Machine.execLzssCompress s
  | .lzssDecompress => Sys2Proof.Machine.execLzssDecompress s
  | .lzwCompress => Sys2Proof.Machine.execLzwCompress s
  | .lzwDecompress => Sys2Proof.Machine.execLzwDecompress s
  | .bsInit => Sys2Proof.Machine.execBsInit s
  | .bsReadBit => Sys2Proof.Machine.execBsReadBit s
  | .bsReadBits n => Sys2Proof.Machine.execBsReadBits n s
  | .bsReadBytes n => Sys2Proof.Machine.execBsReadBytes n s
  | .bsWriteBit => Sys2Proof.Machine.execBsWriteBit s
  | .bsWriteBits n => Sys2Proof.Machine.execBsWriteBits n s
  | .bsWriteBytes n => Sys2Proof.Machine.execBsWriteBytes n s
  | .bsFinish => Sys2Proof.Machine.execBsFinish s
  | .bsStatus => Sys2Proof.Machine.execBsStatus s
  | .pqClear => Sys2Proof.Machine.execPqClear s
  | .pqPush => Sys2Proof.Machine.execPqPush s
  | .pqPop => Sys2Proof.Machine.execPqPop s
  | .pqSize => Sys2Proof.Machine.execPqSize s
  | .hdClear => Sys2Proof.Machine.execHdClear s
  | .hdInsert => Sys2Proof.Machine.execHdInsert s
  | .hdRemoveOldest => Sys2Proof.Machine.execHdRemoveOldest s
  | .hdCount => Sys2Proof.Machine.execHdCount s
  | .hdGet => Sys2Proof.Machine.execHdGet s
  | .cwClear => Sys2Proof.Machine.execCwClear s
  | .cwWrite => Sys2Proof.Machine.execCwWrite s
  | .cwRead => Sys2Proof.Machine.execCwRead s
  | .cwMoveCursor => Sys2Proof.Machine.execCwMoveCursor s
  | .cwStatus => Sys2Proof.Machine.execCwStatus s
  | .htClear => Sys2Proof.Machine.execHtClear s
  | .htBuild => Sys2Proof.Machine.execHtBuild s
  | .htNode => Sys2Proof.Machine.execHtNode s
  | .htCode k => Sys2Proof.Machine.execHtCode k s
  | .lzssFind => Sys2Proof.Machine.execLzssFind s
  | .lzwClear => Sys2Proof.Machine.execLzwClear s
  | .lzwLookup => Sys2Proof.Machine.execLzwLookup s
  | .lzwInsert => Sys2Proof.Machine.execLzwInsert s
  | .lzwWidth => Sys2Proof.Machine.execLzwWidth s
  | .lzwStatus => Sys2Proof.Machine.execLzwStatus s
  | .lzwEntry => Sys2Proof.Machine.execLzwEntry s

end Sys2Proof.Machine
end

