-- ==== Sys2Proof/Machine/Engine.lean ====
section
/-! DEFINITION. The engine's one step per command (70_reset_and_hazards.md R386), and which OUT bytes a command may have written
when a soft reset abandons it (R372). -/

namespace Sys2Proof.Machine

/-- The engine executes the latched command (R386). An illegal word completes with ILLEGAL_COMMAND and no other effect (R104; log 9). -/
def engineStep (s : State) : Out :=
  match decode s.operands.cmd with
  | .ok i => exec i s
  | .error _ => .next (s.raise .illegalCommand)

/-! ### Abandoned commands (R372) -/

/-- How many OUT bytes, from index 0 on, a codec command writes before it ends. -/
def codecSpan (run : Except CodecRaise CodecDone) : Nat :=
  match run with
  | .ok d => d.out.length
  | .error e => e.written

/-- How many OUT bytes, from OUT_LEN on, a bitstream command appends. -/
def appendSpan (s : State) (run : Except Err (Results × State)) : Nat :=
  match run with
  | .ok (_, t) => t.outLen.toNat - s.outLen.toNat
  | .error _ => 0

/-- The OUT bytes a command may write: the first index and the count (log 7). -/
def outSpan (s : State) : Instr → Nat × Nat
  | .hufCompress => (0, codecSpan (withInputBytes s (hufCompress s.params)))
  | .hufDecompress => (0, codecSpan (withInputBytes s (hufDecompress s.params)))
  | .lzssCompress => (0, codecSpan (withInputBytes s (lzssCompress s.params)))
  | .lzssDecompress => (0, codecSpan (withInputBytes s (lzssDecompress s.params)))
  | .lzwCompress => (0, codecSpan (withInputBytes s (lzwCompress s.params)))
  | .lzwDecompress => (0, codecSpan (withInputBytes s (lzwDecompress s.params)))
  | .bsWriteBit => (s.outLen.toNat, appendSpan s (bsWrite 1 s))
  | .bsWriteBits n => (s.outLen.toNat, appendSpan s (bsWrite n.toNat s))
  | .bsWriteBytes n => (s.outLen.toNat, appendSpan s (bsWrite (8 * n.toNat) s))
  | .bsFinish => (s.outLen.toNat, appendSpan s (bsFlush s))
  | .nop | .clearAll | .bsInit | .bsReadBit | .bsReadBits _ | .bsReadBytes _ | .bsStatus | .pqClear | .pqPush | .pqPop
  | .pqSize | .hdClear | .hdInsert | .hdRemoveOldest | .hdCount | .hdGet | .cwClear | .cwWrite | .cwRead | .cwMoveCursor
  | .cwStatus | .htClear | .htBuild | .htNode | .htCode _ | .lzssFind | .lzwClear | .lzwLookup | .lzwInsert | .lzwWidth
  | .lzwStatus | .lzwEntry => (s.outLen.toNat, 0)

/-- The command in progress is abandoned: the OUT bytes it may have written become unspecified (R372). -/
def State.abandon (s : State) : State :=
  if s.busy then
    match decode s.operands.cmd with
    | .ok i => s.spoilOut (outSpan s i).1 (outSpan s i).2
    | .error _ => s
  else s

/-- Soft reset (R372): every register and sub-unit as after power-on; IN_BUF and OUT_BUF keep their bytes, but for those an
abandoned command may have written. The model's own fields stay. -/
def State.softReset (s : State) : State :=
  let t := s.abandon
  { State.powerOn s.params with
    inBuf := t.inBuf
    outBuf := t.outBuf
    agenda := t.agenda
    readLog := t.readLog
    draws := t.draws }

end Sys2Proof.Machine
end

