-- ==== Sys2Proof/Machine/Flags.lean ====
section
/-! DEFINITION. The flags: CTRL and STATUS as the host reads them (10_state.md R22, R23), the error codes (60_exceptions.md
R330) and the interrupt output (R345). -/

namespace Sys2Proof.Machine

/-- The number of an error in STATUS.ERR_CODE (R330). -/
def errCode : Option Err → BitVec 4
  | none => 0
  | some .invalidHeader => 1
  | some .unexpectedEndOfStream => 2
  | some .outOfBounds => 3
  | some .corruptStream => 4
  | some .capacityExceeded => 5
  | some .illegalCommand => 6
  | some .stateError => 7

/-- One flag as a bit. -/
def flagBit (b : Bool) : BitVec 1 := if b then 1 else 0

/-- CTRL (R22): IRQ_EN in bit 1; START, SOFT_RESET and the reserved bits read 0. -/
def State.ctrlWord (s : State) : Word := 0#30 ++ flagBit s.irqEn ++ 0#1

/-- STATUS.ERROR, always (ERR_CODE ≠ 0) (R23, R338). -/
def State.errorFlag (s : State) : Bool := decide (errCode s.err ≠ 0)

/-- STATUS (R23): VIOLATION bit 8, ERR_CODE bits 7:4, ERROR bit 2, DONE bit 1, BUSY bit 0, the reserved bits 0. -/
def State.statusWord (s : State) : Word :=
  0#23 ++ flagBit s.violation ++ errCode s.err ++ 0#1 ++ flagBit s.errorFlag ++ flagBit s.done ++ flagBit s.busy

/-- The interrupt output: IRQ = CTRL.IRQ_EN ∧ STATUS.DONE, level-sensitive (R345). -/
def State.irq (s : State) : Bool := s.irqEn && s.done

end Sys2Proof.Machine
end

