-- ==== Sys2Proof/Machine/HostPort.lean ====
section
/-! DEFINITION. The host port (20_memory.md R70 to R73): register reads and writes (10_state.md R20 to R25), buffer accesses, and
what changes while BUSY (70_reset_and_hazards.md R380, R381). -/

namespace Sys2Proof.Machine

/-- What a host read returned, kept for whoever looks (log 8). -/
def State.deliver (s : State) (v : Word) : State := { s with readLog := v :: s.readLog }

/-- A read that returns an unspecified word while BUSY = 1, the register's value otherwise (R381). -/
def State.deliverIdle (s : State) (v : Word) : State :=
  if s.busy then { s.deliver (Config.freeWord s.draws) with draws := s.draws + 1 } else s.deliver v

/-- A register read at a word offset (R20, R73): reserved offsets read 0. OUT_LEN and RESULT0..2 are unspecified while BUSY; every
other register gives its value (R381). -/
def State.readReg (s : State) (off : Nat) : State :=
  match off with
  | 0x00 => s.deliver s.ctrlWord
  | 0x04 => s.deliver s.statusWord
  | 0x08 => s.deliver s.cmd
  | 0x0C => s.deliver s.arg0
  | 0x10 => s.deliver s.arg1
  | 0x14 => s.deliverIdle s.result0
  | 0x18 => s.deliverIdle s.result1
  | 0x1C => s.deliverIdle s.result2
  | 0x20 => s.deliver s.inLen
  | 0x24 => s.deliverIdle s.outLen
  | 0x28 => s.deliver (BitVec.ofNat 32 s.params.inCap)
  | 0x2C => s.deliver (BitVec.ofNat 32 s.params.outCap)
  | 0x30 => s.deliver s.params.tagHuf
  | 0x34 => s.deliver s.params.tagLzss
  | 0x38 => s.deliver s.params.tagLzw
  | 0x3C => s.deliver Config.version
  | _ => s.deliver 0

/-- A write of CTRL while BUSY = 0 (R22, R340, R372, R373): SOFT_RESET wins over START; START issues the command in CMD; IRQ_EN takes
bit 1. -/
def State.writeCtrl (s : State) (v : Word) : State :=
  if v.getLsbD 2 then s.softReset
  else if v.getLsbD 0 then { s with irqEn := v.getLsbD 1 }.accept
  else { s with irqEn := v.getLsbD 1 }

/-- A register write while BUSY = 0 (R20 to R24): a read-only or reserved register ignores it (R21). -/
def State.writeReg (s : State) (off : Nat) (v : Word) : State :=
  match off with
  | 0x00 => s.writeCtrl v
  | 0x04 => s.acknowledge v
  | 0x08 => { s with cmd := v }
  | 0x0C => { s with arg0 := v }
  | 0x10 => { s with arg1 := v }
  | 0x20 => { s with inLen := v }
  | _ => s

/-- A write that is ignored because BUSY = 1 (R380). -/
def State.violate (s : State) : State := { s with violation := true }

/-- A host write to REG (R380): while BUSY = 1 only a CTRL write with SOFT_RESET = 1 is acted on. -/
def State.hostWriteReg (s : State) (off : Nat) (v : Word) : State :=
  if s.busy then (if off = 0 ∧ v.getLsbD 2 then s.softReset else s.violate) else s.writeReg off v

/-- A host read of IN (R72, R73): 0x00 past IN_CAP. -/
def State.hostReadIn (s : State) (a : Nat) : State :=
  s.deliver (if a < s.params.inCap then (s.inByte a).setWidth 32 else 0)

/-- A host write to IN (R72, R73, R380): ignored past IN_CAP; ignored with VIOLATION while BUSY = 1. -/
def State.hostWriteIn (s : State) (a : Nat) (v : Word) : State :=
  if s.busy then s.violate
  else if a < s.params.inCap then { s with inBuf := Sparse.put s.inBuf a (v.extractLsb' 0 8) }
  else s

/-- A host write to OUT (R72, R73, R380): ignored at any address; with VIOLATION while BUSY = 1 (log 10). -/
def State.hostWriteOut (s : State) : State := if s.busy then s.violate else s

/-- A host read of OUT (R72, R73, R381): unspecified while BUSY = 1 at any address (log 18); else 0x00 past OUT_CAP. -/
def State.hostReadOut (s : State) (a : Nat) : State :=
  if s.busy then { s.deliver ((Config.freeByte s.draws).setWidth 32) with draws := s.draws + 1 }
  else s.deliver (if a < s.params.outCap then (s.outByte a).setWidth 32 else 0)

/-- A REG access is a 32-bit access at an offset that is a multiple of 4; any other is refused (R71). Offsets from 4096 on do not
exist (R70). -/
def regAccess (off bytes : Nat) (t : State) : Out :=
  if bytes = 4 ∧ off % 4 = 0 then (if off < Config.regSpaceBytes then .next t else .fault .regOutsideSpace)
  else .refused .accessWidth

/-- An IN or OUT access is an 8-bit access; any other is refused (R71). -/
def byteAccess (bytes : Nat) (t : State) : Out := if bytes = 1 then .next t else .refused .accessWidth

/-- One host access (R73). -/
def hostAccess (a : Access) (s : State) : Out :=
  match a with
  | .read .reg off n => regAccess off n (s.readReg off)
  | .read .input addr n => byteAccess n (s.hostReadIn addr)
  | .read .output addr n => byteAccess n (s.hostReadOut addr)
  | .write .reg off n v => regAccess off n (s.hostWriteReg off v)
  | .write .input addr n v => byteAccess n (s.hostWriteIn addr v)
  | .write .output _ n _ => byteAccess n s.hostWriteOut

/-- The engine's turn: it runs the accepted command, or has nothing to do (R354, R386). -/
def engineTurn (s : State) : Out := if s.busy then engineStep s else .next s

/-- The next move: the event at the front of the agenda; with none left the engine finishes what was accepted (R386, log 1). -/
def nextMove (s : State) : Out :=
  match s.agenda with
  | [] => engineTurn s
  | .engine :: rest => engineTurn { s with agenda := rest }
  | .host a :: rest => hostAccess a { s with agenda := rest }

/-- The state in which the engine's next step runs the command word `w`: what a host write of CMD and of CTRL with START = 1 leave
(R340), with the engine to move (log 2). -/
def State.withCommand (s : State) (w : Word) : State :=
  { State.accept { s with cmd := w } with agenda := .engine :: s.agenda }

end Sys2Proof.Machine
end

