-- ==== Sys2Proof/Machine/Step.lean ====
section
/-! DEFINITION. One step of the machine: one move of one agent (00_scope.md R3, 70_reset_and_hazards.md R386). -/

namespace Sys2Proof.Machine

/-- One move of one agent: a host access, or the engine's step. -/
def step (s : State) : Host.Outcome State Fault Refusal := nextMove s

/-- `s` with the command whose table bits are `w` accepted and the engine to move next. The block fetches nothing (R321): its
"fetch" is the read of CMD at acceptance (R86, R340). -/
def State.withFetchWord (s : State) (nbits w : Nat) : State := s.withCommand (tableWord nbits w)

end Sys2Proof.Machine
end

