-- ==== Sys2Proof/Safety.lean ====
section
/-! DEFINITION. The terms in which the claims are stated: what the host can see of the output, which unit a command belongs to, what
stays the same, and the invariants of a safe run. -/

namespace Sys2Proof.Machine

/-! ### The command table of 30_encoding.md R103, as the rule lists it -/

/-- OPCODE and the least and greatest legal IMM8 of every command (R103). -/
def commandTable : List (Nat × Nat × Nat) :=
  [(0x00, 0, 0), (0x01, 0, 0),
   (0x10, 0, 0), (0x11, 0, 0), (0x12, 0, 0), (0x13, 0, 0), (0x14, 0, 0), (0x15, 0, 0),
   (0x20, 0, 0), (0x21, 0, 0), (0x22, 1, 32), (0x23, 1, 4), (0x24, 0, 0)] ++
  [(0x25, 1, 32), (0x26, 1, 4), (0x27, 0, 0), (0x28, 0, 0),
   (0x30, 0, 0), (0x31, 0, 0), (0x32, 0, 0), (0x33, 0, 0),
   (0x40, 0, 0), (0x41, 0, 0), (0x42, 0, 0), (0x43, 0, 0), (0x44, 0, 0)] ++
  [(0x50, 0, 0), (0x51, 0, 0), (0x52, 0, 0), (0x53, 0, 0), (0x54, 0, 0),
   (0x60, 0, 0), (0x61, 0, 0), (0x62, 0, 0), (0x63, 0, 7), (0x70, 0, 0),
   (0x80, 0, 0), (0x81, 0, 0), (0x82, 0, 0), (0x83, 0, 0), (0x84, 0, 0), (0x85, 0, 0)]

/-- The word is a legal command (R104): its OPCODE is in the table, RSV is 0 and IMM8 is in the opcode's range. -/
def LegalWord (w : Word) : Prop :=
  ∃ row ∈ commandTable, w.toNat / 2 ^ 24 = row.1 ∧ w.toNat / 2 ^ 8 % 2 ^ 16 = 0 ∧
    row.2.1 ≤ w.toNat % 2 ^ 8 ∧ w.toNat % 2 ^ 8 ≤ row.2.2

/-! ### Which command does what -/

/-- A codec command; every other command is a primitive command (R334). -/
def IsCodec (i : Instr) : Prop :=
  i = .hufCompress ∨ i = .hufDecompress ∨ i = .lzssCompress ∨ i = .lzssDecompress ∨ i = .lzwCompress ∨ i = .lzwDecompress

/-- A compress command with its tag and its stream over an input: the bits it writes, and what it leaves in RESULT2 (R183, R214, R246). -/
def CompressForm (p : Config.Params) (x : List Byte) (i : Instr) (tag : Word) (stream : List Bool)
    (r2 : Nat) : Prop :=
  (i = .hufCompress ∧ tag = p.tagHuf ∧ stream = hufStream p.tagHuf (buildTree x) x ∧ r2 = (buildTree x).nodes.length) ∨
  (i = .lzssCompress ∧ tag = p.tagLzss ∧
    stream = lzssStream p.tagLzss (lzssBlocks (inputAt x) x.length x.length (LzssWork.start (inputAt x) x.length)) ∧
    r2 = ((lzssBlocks (inputAt x) x.length x.length (LzssWork.start (inputAt x) x.length)).filter Block.isPointer).length) ∨
  (i = .lzwCompress ∧ tag = p.tagLzw ∧ stream = tagBits p.tagLzw ++ (lzwEncode x none [] 0).1 ∧ r2 = (lzwEncode x none [] 0).2)

/-- A decompress command with its function of the input (R184, R219, R248). -/
def DecompressForm (p : Config.Params) (i : Instr) (run : List Byte → Except CodecRaise CodecDone) : Prop :=
  (i = .hufDecompress ∧ run = hufDecompress p) ∨ (i = .lzssDecompress ∧ run = lzssDecompress p) ∨
  (i = .lzwDecompress ∧ run = lzwDecompress p)

/-- A bitstream read command with the number of bits it reads (R152 to R154). -/
def ReadForm (i : Instr) (n : Nat) : Prop :=
  (i = .bsReadBit ∧ n = 1) ∨ (∃ k : Byte, i = .bsReadBits k ∧ 1 ≤ k.toNat ∧ k.toNat ≤ 32 ∧ n = k.toNat) ∨
  (∃ k : Byte, i = .bsReadBytes k ∧ 1 ≤ k.toNat ∧ k.toNat ≤ 4 ∧ n = 8 * k.toNat)

/-- A bitstream write command with the number of bits it writes (R155 to R157). -/
def WriteForm (i : Instr) (n : Nat) : Prop :=
  (i = .bsWriteBit ∧ n = 1) ∨ (∃ k : Byte, i = .bsWriteBits k ∧ 1 ≤ k.toNat ∧ k.toNat ≤ 32 ∧ n = k.toNat) ∨
  (∃ k : Byte, i = .bsWriteBytes k ∧ 1 ≤ k.toNat ∧ k.toNat ≤ 4 ∧ n = 8 * k.toNat)

/-- A command that may store to OUT: the codec commands, the bitstream writes and BS_FINISH (R74, R384). -/
def StoresOut (i : Instr) : Prop := IsCodec i ∨ i = .bsFinish ∨ ∃ n, WriteForm i n

/-- A command that may change OUT_LEN: those that store to OUT, BS_INIT and CLEAR_ALL (R24). -/
def ChangesOutLen (i : Instr) : Prop := StoresOut i ∨ i = .bsInit ∨ i = .clearAll

/-- A command that clears every sub-unit: the codec commands and CLEAR_ALL (R384). -/
def ClearsAll (i : Instr) : Prop := IsCodec i ∨ i = .clearAll

/-! ### Paths in a tree -/

/-- The node a path leads to from a node: 0 goes to the left child, 1 to the right (R176); none where the path leaves the tree. -/
def nodeAt (nodes : List Node) : Nat → List Bool → Option Node
  | n, [] => nodes[n]?
  | n, b :: path =>
    match nodes[n]? with
    | some (.internal l r _) => nodeAt nodes (if b then r else l) path
    | _ => none

/-! ### What the host can read of the output -/

/-- OUT[0..OUT_LEN-1]. -/
def State.outBytes (s : State) : List Byte := (List.range s.outLen.toNat).map s.outByte

/-- All bits written so far: those of the complete bytes, then the bits pending in the partial byte (R27). -/
def State.outBits (s : State) : List Bool := streamBits s.outBytes ++ bitsOf s.bs.acc.toNat s.bs.nacc

/-! ### What stays the same -/

/-- Everything that only the host or a reset writes: the constants, IRQ_EN, VIOLATION, CMD, ARG0, ARG1, IN_LEN, IN_BUF, and the
model's agenda and read log. -/
def SameHostSide (s t : State) : Prop :=
  t.params = s.params ∧ t.irqEn = s.irqEn ∧ t.violation = s.violation ∧ t.cmd = s.cmd ∧ t.arg0 = s.arg0 ∧
  t.arg1 = s.arg1 ∧ t.inLen = s.inLen ∧ t.inBuf = s.inBuf ∧ (∀ a, t.inByte a = s.inByte a) ∧
  t.agenda = s.agenda ∧ t.readLog = s.readLog

/-- Every sub-unit as it was. -/
def SameUnits (s t : State) : Prop :=
  t.bs = s.bs ∧ t.pq = s.pq ∧ t.hd = s.hd ∧ t.cw = s.cw ∧ t.ht = s.ht ∧ t.lzw = s.lzw

/-- The output as it was: OUT_LEN and every byte of OUT. -/
def SameOutput (s t : State) : Prop := t.outLen = s.outLen ∧ ∀ a, t.outByte a = s.outByte a

/-- Every sub-unit in its cleared state (R60, R371). -/
def UnitsCleared (t : State) : Prop :=
  t.bs.rpos = 0 ∧ t.bs.acc = 0 ∧ t.bs.nacc = 0 ∧ t.pq = [] ∧ t.hd = [] ∧ t.cw.head = 0 ∧ t.cw.cursor = 0 ∧
  (∀ v : Fin 256, t.ht.counts[v] = 0) ∧ t.ht.nodes = [] ∧ t.ht.root = 0 ∧ t.ht.valid = false ∧
  t.lzw = [] ∧ Trie.next t.lzw = 257 ∧ Trie.width t.lzw = 9

/-- The command completed without error and left these results (R342). -/
def CompletedWith (t : State) (r0 r1 r2 : Word) : Prop :=
  t.result0 = r0 ∧ t.result1 = r1 ∧ t.result2 = r2 ∧ t.err = none ∧ t.done = true ∧ t.busy = false

/-- The command completed with an error and changed STATUS and RESULT0..2 only (R334, R342). -/
def FailedWith (s t : State) (e : Err) : Prop :=
  t.result0 = 0 ∧ t.result1 = 0 ∧ t.result2 = 0 ∧ t.err = some e ∧ t.done = true ∧ t.busy = false ∧
  SameHostSide s t ∧ SameUnits s t ∧ SameOutput s t

/-! ### Invariants -/

/-- Legal parameters; the buffers in canonical form and inside their capacities; OUT_LEN ≤ OUT_CAP (R7, R24, R26). -/
def BuffersOk (s : State) : Prop :=
  s.params.wf = true ∧ Memory.wf s.inBuf ∧ (∀ c ∈ s.inBuf, c.1 < s.params.inCap) ∧
  Memory.wf s.outBuf ∧ (∀ c ∈ s.outBuf, c.1 < s.params.outCap) ∧ s.outLen.toNat ≤ s.params.outCap

/-- Fewer than 8 bits are pending, the partial byte holds no others, and the cursor is a bit offset of IN_BUF (R14, R27). -/
def ShifterOk (s : State) : Prop :=
  s.bs.nacc < 8 ∧ s.bs.acc.toNat < 2 ^ s.bs.nacc ∧ s.bs.rpos ≤ 8 * s.params.inCap

/-- Heap order (R281). -/
def HeapOrder (h : List HeapEntry) : Prop :=
  ∀ i, 0 < i → i < h.length → heapWeight h ((i - 1) / 2) ≤ heapWeight h i

/-- At most PQ_CAP entries, in heap order (R28, R281). -/
def HeapOk (s : State) : Prop := s.pq.length ≤ 257 ∧ HeapOrder s.pq

/-- The dictionary in canonical form (keys rising, no empty list), 24-bit keys, at most HD_CAP positions (R29). -/
def DictOk (s : State) : Prop :=
  Sparse.wf s.hd ∧ (∀ e ∈ s.hd, e.1 < 2 ^ 24 ∧ e.2 ≠ []) ∧ Dict.total s.hd ≤ 4095

/-- The cursor is in the window, the head is a 32-bit position, and every readable position has been written (R30, R300, R301). -/
def WindowOk (s : State) : Prop :=
  Memory.wf s.cw.buf ∧ (∀ c ∈ s.cw.buf, c.1 < 4113) ∧ s.cw.head ≤ 2 ^ 32 - 1 ∧
  s.cw.head - 4113 ≤ s.cw.cursor ∧ s.cw.cursor ≤ s.cw.head ∧
  ∀ p, s.cw.readable p → (Sparse.get s.cw.buf (p % 4113)).isSome = true

/-- The tree is the cleared one or the one BuildTree makes of some input that fits IN_BUF (R31, R188). -/
def TreeOk (s : State) : Prop :=
  s.ht = Tree.cleared ∨ ∃ input : List Byte, input.length ≤ s.params.inCap ∧ s.ht = buildTree input

/-- At most 65278 entries; every entry extends an index that was live before it (the prefix property); no entry twice (R32,
R240). -/
def TrieOk (s : State) : Prop :=
  s.lzw.length ≤ 65278 ∧ (∀ i e, s.lzw[i]? = some e → e.parent < 257 + i ∧ e.parent ≠ 256) ∧ s.lzw.Nodup

/-- While a command is latched it is what the registers hold, and STATUS shows neither DONE nor an error (R340, R380). -/
def IssueOk (s : State) : Prop := ∀ l, s.latch = some l → l = s.latchNow ∧ s.done = false ∧ s.err = none

/-- All invariants together. -/
def State.Inv (s : State) : Prop :=
  BuffersOk s ∧ ShifterOk s ∧ HeapOk s ∧ DictOk s ∧ WindowOk s ∧ TreeOk s ∧ TrieOk s ∧ IssueOk s

end Sys2Proof.Machine
end

