-- ==== Sys2Proof/Certificates/Slice0/Obligations.lean ====
section
/-! DEFINITION. The statements for the provers, from the spec's numbered rules. -/

open Sys2Proof Sys2Proof.Machine

/-! ### Encoding (30_encoding.md) -/

/-- R103, R105: the word of every legal command decodes to that command, with every immediate. -/
def Obligations.DecodeOfEncode : Prop :=
  ∀ i : Instr, i.wellFormed = true → decode (encode i) = .ok i

/-- R100, R103, R104, R105: the decoder accepts exactly the words R103's table calls legal, and such a word is the one word of the
command it decodes to. -/
def Obligations.EveryWordIsOneCommandOrIllegal : Prop :=
  ∀ w : Word, ((∃ i, decode w = .ok i) ↔ LegalWord w) ∧ ∀ i, decode w = .ok i → encode i = w ∧ i.wellFormed = true

/-- R103: one word of every unit, written out from the opcode map. -/
def Obligations.TableWordsDecode : Prop :=
  decode 0x00000000 = .ok .nop ∧ decode 0x12000000 = .ok .lzssCompress ∧ decode 0x2200000C = .ok (.bsReadBits 12) ∧
  decode 0x31000000 = .ok .pqPush ∧ decode 0x42000000 = .ok .hdRemoveOldest ∧ decode 0x53000000 = .ok .cwMoveCursor ∧
  decode 0x63000007 = .ok (.htCode 7) ∧ decode 0x70000000 = .ok .lzssFind ∧ decode 0x85000000 = .ok .lzwEntry ∧
  decode 0x22000000 = .error .immediate ∧ decode 0x21000100 = .error .reserved ∧ decode 0x90000000 = .error .opcode

/-! ### Issue, the engine step and completion (60_exceptions.md, 70_reset_and_hazards.md) -/

/-- R386: when the engine is to move and the latched word decodes, the step is exec of that command; the step takes the engine's
event off the agenda and does nothing else around it. -/
def Obligations.StepRunsLatchedCommand : Prop :=
  ∀ (s : State) (l : Latch) (i : Instr), s.latch = some l → decode l.cmd = .ok i →
    (s.agenda = [] → step s = exec i s) ∧
    (∀ rest, s.agenda = .engine :: rest → step s = exec i { s with agenda := rest })

/-- R104, R330, R342: when the engine is to move and the latched word is illegal, the step completes it with ILLEGAL_COMMAND and no
other effect but taking the engine's event off the agenda. That this is the engine's step is the model's reading (log 9). -/
def Obligations.IllegalWordCompletes : Prop :=
  ∀ (s : State) (l : Latch), s.latch = some l → ¬ LegalWord l.cmd →
    (s.agenda = [] → ∃ t, step s = .next t ∧ FailedWith s t .illegalCommand ∧ t.statusWord.extractLsb' 4 4 = 6#4) ∧
    (∀ rest, s.agenda = .engine :: rest → ∃ t, step s = .next t ∧
      FailedWith { s with agenda := rest } t .illegalCommand ∧ t.statusWord.extractLsb' 4 4 = 6#4)

/-- R340: a host write of CTRL with START = 1 and SOFT_RESET = 0 while BUSY = 0 issues the command in CMD. -/
def Obligations.StartIssuesCommand : Prop :=
  ∀ (s : State) (v : Word) (rest : List Event),
    s.agenda = .host (.write .reg 0 4 v) :: rest → s.busy = false → v.getLsbD 0 = true → v.getLsbD 2 = false →
    ∃ t, step s = .next t ∧ t.busy = true ∧ t.done = false ∧ t.err = none ∧ t.irqEn = v.getLsbD 1 ∧
      t.operands = { cmd := s.cmd, arg0 := s.arg0, arg1 := s.arg1, inLen := s.inLen } ∧
      t.params = s.params ∧ t.violation = s.violation ∧ t.cmd = s.cmd ∧ t.arg0 = s.arg0 ∧ t.arg1 = s.arg1 ∧
      t.inLen = s.inLen ∧ t.result0 = s.result0 ∧ t.result1 = s.result1 ∧ t.result2 = s.result2 ∧
      (∀ a, t.inByte a = s.inByte a) ∧ SameUnits s t ∧ SameOutput s t ∧ t.agenda = rest

/-- R380, R341: while BUSY = 1 a host write to REG (but for CTRL with SOFT_RESET) or to IN is ignored and sets VIOLATION; VIOLATION
stays 1 until the host writes 1 to STATUS bit 8 while BUSY = 0, or a reset. -/
def Obligations.WriteWhileBusyOnlyViolates : Prop :=
  (∀ (s : State) (a : Access) (rest : List Event), s.agenda = .host a :: rest → s.busy = true →
    ((∃ off v, a = .write .reg off 4 v ∧ off % 4 = 0 ∧ off < 4096 ∧ ¬ (off = 0 ∧ v.getLsbD 2 = true)) ∨
      ∃ addr v, a = .write .input addr 1 v) →
    step s = .next { s with agenda := rest, violation := true }) ∧
  (∀ s t : State, s.violation = true → step s = .next t → t.violation = false → ∃ (v : Word) (rest : List Event),
    (s.agenda = .host (.write .reg 4 4 v) :: rest ∧ v.getLsbD 8 = true ∧ s.busy = false) ∨
    (s.agenda = .host (.write .reg 0 4 v) :: rest ∧ v.getLsbD 2 = true))

/-- R370, R372, R373: a CTRL write with SOFT_RESET = 1, at any time and whatever START is, puts every register and sub-unit in the
state of R370; IN_BUF keeps its bytes, and so does OUT_BUF if no command was in progress. Which OUT bytes an abandoned command may
have written is the model's deduction (log 7): none for an illegal word, those of `outSpan` for a command; every other byte stays. -/
def Obligations.SoftResetRestoresReset : Prop :=
  ∀ (s : State) (v : Word) (rest : List Event),
    s.agenda = .host (.write .reg 0 4 v) :: rest → v.getLsbD 2 = true →
    ∃ t, step s = .next t ∧ t.params = s.params ∧ t.ctrlWord = 0 ∧ t.statusWord = 0 ∧ t.irq = false ∧ t.cmd = 0 ∧
      t.arg0 = 0 ∧ t.arg1 = 0 ∧ t.result0 = 0 ∧ t.result1 = 0 ∧ t.result2 = 0 ∧ t.inLen = 0 ∧ t.outLen = 0 ∧
      t.latch = none ∧ UnitsCleared t ∧ (∀ a, t.inByte a = s.inByte a) ∧
      (s.busy = false → ∀ a, t.outByte a = s.outByte a) ∧
      (s.busy = true → (∀ i, decode s.operands.cmd ≠ .ok i) → ∀ a, t.outByte a = s.outByte a) ∧
      (∀ i, s.busy = true → decode s.operands.cmd = .ok i →
        ∀ a, (a < (outSpan s i).1 ∨ (outSpan s i).1 + (outSpan s i).2 ≤ a) → t.outByte a = s.outByte a) ∧
      t.agenda = rest

/-- R23, R343, R344: a host write of STATUS while BUSY = 0 clears DONE if bit 1 is 1 and VIOLATION if bit 8 is 1, and nothing
else. -/
def Obligations.StatusWriteAcknowledges : Prop :=
  ∀ (s : State) (v : Word) (rest : List Event), s.agenda = .host (.write .reg 4 4 v) :: rest → s.busy = false →
    step s = .next { s with agenda := rest, done := if v.getLsbD 1 then false else s.done,
                            violation := if v.getLsbD 8 then false else s.violation }

/-- R22, R23, R338: where the fields of STATUS and CTRL stand, ERROR = (ERR_CODE ≠ 0), and that the reserved bits read 0; R330: the number of each error. -/
def Obligations.StatusAndCtrlLayout : Prop :=
  ∀ s : State,
    s.statusWord.getLsbD 0 = s.busy ∧ s.statusWord.getLsbD 1 = s.done ∧
    s.statusWord.getLsbD 2 = decide (errCode s.err ≠ 0#4) ∧ s.statusWord.getLsbD 3 = false ∧
    s.statusWord.extractLsb' 4 4 = errCode s.err ∧ s.statusWord.getLsbD 8 = s.violation ∧
    (∀ j, 9 ≤ j → s.statusWord.getLsbD j = false) ∧
    s.ctrlWord.getLsbD 1 = s.irqEn ∧ (∀ j, j ≠ 1 → s.ctrlWord.getLsbD j = false) ∧
    errCode none = 0 ∧ errCode (some .invalidHeader) = 1 ∧ errCode (some .unexpectedEndOfStream) = 2 ∧
    errCode (some .outOfBounds) = 3 ∧ errCode (some .corruptStream) = 4 ∧ errCode (some .capacityExceeded) = 5 ∧
    errCode (some .illegalCommand) = 6 ∧ errCode (some .stateError) = 7

/-- R343, R345, R346: IRQ is IRQ_EN ∧ DONE, and DONE rises at the completion of a command only. -/
def Obligations.DoneRisesOnlyAtCompletion : Prop :=
  ∀ s t : State, step s = .next t → t.irq = (t.irqEn && t.done) ∧
    (s.done = false → t.done = true → s.busy = true ∧ t.busy = false)

/-- R342, R387: every command, legal or not, with or without an error, completes: BUSY 0, DONE 1, and with an error every RESULT
is 0. -/
def Obligations.EveryCommandCompletes : Prop :=
  ∀ (i : Instr) (s : State), ∃ t, exec i s = .next t ∧ t.busy = false ∧ t.done = true ∧
    (t.err ≠ none → t.result0 = 0 ∧ t.result1 = 0 ∧ t.result2 = 0)

/-! ### The host port (20_memory.md, 10_state.md) -/

/-- R20, R21, R22, R73, R345, R381: what a 32-bit read of every register offset returns: while BUSY = 1 an unspecified value for
RESULT0..2 and OUT_LEN, and otherwise, the polling read of STATUS included, the register's value. And while BUSY = 0: a host write of
CTRL with START = 0 and SOFT_RESET = 0 only sets IRQ_EN to bit 1; one to CMD, ARG0, ARG1 or IN_LEN stores the value and nothing else;
one to a read-only or reserved register is ignored. How a value is delivered, and the counter an unspecified one advances, are the
model's own (log 8, log 5). -/
def Obligations.RegisterMap : Prop :=
  ∀ (s : State) (off : Nat) (v : Word) (rest : List Event), off % 4 = 0 → off < 4096 →
    (s.agenda = .host (.read .reg off 4) :: rest →
      if s.busy = true ∧ (off = 0x14 ∨ off = 0x18 ∨ off = 0x1C ∨ off = 0x24) then
        ∃ w, step s = .next { s with agenda := rest, readLog := w :: s.readLog, draws := s.draws + 1 }
      else step s = .next { s with agenda := rest, readLog :=
        (if off = 0x00 then s.ctrlWord else if off = 0x04 then s.statusWord else if off = 0x08 then s.cmd
         else if off = 0x0C then s.arg0 else if off = 0x10 then s.arg1 else if off = 0x14 then s.result0
         else if off = 0x18 then s.result1 else if off = 0x1C then s.result2 else if off = 0x20 then s.inLen
         else if off = 0x24 then s.outLen else if off = 0x28 then BitVec.ofNat 32 s.params.inCap
         else if off = 0x2C then BitVec.ofNat 32 s.params.outCap else if off = 0x30 then s.params.tagHuf
         else if off = 0x34 then s.params.tagLzss else if off = 0x38 then s.params.tagLzw
         else if off = 0x3C then 1 else 0) :: s.readLog }) ∧
    (s.agenda = .host (.write .reg off 4 v) :: rest → s.busy = false → off ≠ 0x04 →
      (off = 0x00 → v.getLsbD 0 = false ∧ v.getLsbD 2 = false) →
      ∃ t, step s = .next t ∧ t.irq = ((if off = 0x00 then v.getLsbD 1 else s.irqEn) && s.done) ∧
        t =
          { s with
            agenda := rest
            irqEn := if off = 0x00 then v.getLsbD 1 else s.irqEn
            cmd := if off = 0x08 then v else s.cmd
            arg0 := if off = 0x0C then v else s.arg0
            arg1 := if off = 0x10 then v else s.arg1
            inLen := if off = 0x20 then v else s.inLen })

/-- R72, R73, R381: what an 8-bit host access to IN or OUT does, inside and past the capacity: a read of IN gives its byte, BUSY or
not; a read of OUT gives its byte while BUSY = 0 and an unspecified one while BUSY = 1, at any address (log 18); a write to OUT is
ignored, and while BUSY = 1 sets VIOLATION, which is deduced from R73 and D9, since R380 names REG and IN (log 10); a write to IN
while BUSY = 0 stores its low 8 bits. How a value is delivered, and the counter an unspecified one advances, are the model's own (log 8, log 5). -/
def Obligations.BufferAccesses : Prop :=
  ∀ (s : State) (addr : Nat) (v : Word) (rest : List Event),
    (s.agenda = .host (.read .input addr 1) :: rest →
      step s = .next { s with agenda := rest, readLog :=
        (if addr < s.params.inCap then (s.inByte addr).setWidth 32 else 0) :: s.readLog }) ∧
    (s.agenda = .host (.read .output addr 1) :: rest →
      (s.busy = false → step s = .next { s with agenda := rest, readLog :=
        (if addr < s.params.outCap then (s.outByte addr).setWidth 32 else 0) :: s.readLog }) ∧
      (s.busy = true → ∃ b : Byte, step s = .next
        { s with agenda := rest, readLog := b.setWidth 32 :: s.readLog, draws := s.draws + 1 })) ∧
    (s.agenda = .host (.write .output addr 1 v) :: rest →
      step s = .next { s with agenda := rest, violation := s.violation || s.busy }) ∧
    (s.agenda = .host (.write .input addr 1 v) :: rest → s.busy = false →
      ∃ t, step s = .next t ∧ { t with inBuf := s.inBuf } = { s with agenda := rest } ∧
        ∀ b, t.inByte b = if b = addr ∧ addr < s.params.inCap then v.setWidth 8 else s.inByte b)

/-- R71: a REG access that is not 32 bits at a multiple of 4, or an IN or OUT access that is not 8 bits, is refused. -/
def Obligations.OddAccessesAreRefused : Prop :=
  ∀ (s : State) (a : Access) (rest : List Event), s.agenda = .host a :: rest →
    ((∃ off n, (a = .read .reg off n ∨ ∃ v, a = .write .reg off n v) ∧ (n ≠ 4 ∨ off % 4 ≠ 0)) ∨
      (∃ sp addr n, sp ≠ .reg ∧ (a = .read sp addr n ∨ ∃ v, a = .write sp addr n v) ∧ n ≠ 1)) →
    step s = .refused .accessWidth

/-- R34, R82, R83, R380: while a command stays in progress no step changes the latched command, IN, the result registers, the output
or any sub-unit. -/
def Obligations.NothingMovesWhileBusy : Prop :=
  ∀ s t : State, s.busy = true → step s = .next t → t.busy = true →
    t.latch = s.latch ∧ t.cmd = s.cmd ∧ t.arg0 = s.arg0 ∧ t.arg1 = s.arg1 ∧ t.inLen = s.inLen ∧ t.irqEn = s.irqEn ∧
    t.done = s.done ∧ t.err = s.err ∧ t.result0 = s.result0 ∧ t.result1 = s.result1 ∧ t.result2 = s.result2 ∧
    (∀ a, t.inByte a = s.inByte a) ∧ SameUnits s t ∧ SameOutput s t

/-! ### Frames over all commands -/

/-- R21, R60, R322: no command changes a register or buffer that is the host's to write. -/
def Obligations.CommandsLeaveHostSide : Prop :=
  ∀ (i : Instr) (s t : State), exec i s = .next t → SameHostSide s t

/-- R24, R26, R74: a command that does not store to OUT leaves every byte of it, and only the commands named change OUT_LEN; a
command that stores leaves every byte outside those it writes (`outSpan`: for a codec command the bytes from index 0 on, for a
bitstream command those from OUT_LEN on). That a codec command which raises an error, too, leaves every byte outside those it had
appended before the error is the model's deduction (log 6), no rule's words. -/
def Obligations.CommandsLeaveOutput : Prop :=
  ∀ (i : Instr) (s t : State), exec i s = .next t →
    (¬ StoresOut i → ∀ a, t.outByte a = s.outByte a) ∧ (¬ ChangesOutLen i → t.outLen = s.outLen) ∧
    (BuffersOk s → ∀ a, (a < (outSpan s i).1 ∨ (outSpan s i).1 + (outSpan s i).2 ≤ a) → t.outByte a = s.outByte a)

/-- R60, R322, R384: which commands may change each sub-unit; every other command leaves it as it was. -/
def Obligations.CommandsLeaveOtherUnits : Prop :=
  ∀ (i : Instr) (s t : State), exec i s = .next t → ¬ ClearsAll i →
    (i ≠ .bsInit ∧ i ≠ .bsFinish ∧ (∀ n, ¬ ReadForm i n) ∧ (∀ n, ¬ WriteForm i n) → t.bs = s.bs) ∧
    (i ≠ .pqClear ∧ i ≠ .pqPush ∧ i ≠ .pqPop ∧ i ≠ .htBuild → t.pq = s.pq) ∧
    (i ≠ .hdClear ∧ i ≠ .hdInsert ∧ i ≠ .hdRemoveOldest → t.hd = s.hd) ∧
    (i ≠ .cwClear ∧ i ≠ .cwWrite ∧ i ≠ .cwMoveCursor → t.cw = s.cw) ∧
    (i ≠ .htClear ∧ i ≠ .htBuild → t.ht = s.ht) ∧
    (i ≠ .lzwClear ∧ i ≠ .lzwInsert → t.lzw = s.lzw)

/-- R334: a primitive command that raises an error changes nothing but STATUS and RESULT0..2. -/
def Obligations.FailedPrimitiveChangesNothing : Prop :=
  ∀ (i : Instr) (s t : State) (e : Err), ¬ IsCodec i → exec i s = .next t → t.err = some e → FailedWith s t e

/-- R60, R335, R336: a codec command ends, in success or error, with every sub-unit cleared; with an error OUT_LEN = 0 and every
RESULT is 0. -/
def Obligations.CodecEndsWithUnitsCleared : Prop :=
  ∀ (i : Instr) (s t : State), IsCodec i → exec i s = .next t → UnitsCleared t ∧
    ∀ e, t.err = some e → t.outLen = 0 ∧ t.result0 = 0 ∧ t.result1 = 0 ∧ t.result2 = 0

/-- R383, R60: a codec command's result depends on the parameters, IN_LEN and IN[0..IN_LEN-1] alone, not on what earlier commands
left. -/
def Obligations.CodecResultIgnoresHistory : Prop :=
  ∀ (i : Instr) (s s' t t' : State), IsCodec i → s.params = s'.params → s.opLen = s'.opLen →
    (∀ a, a < s.opLen → s.inByte a = s'.inByte a) → exec i s = .next t → exec i s' = .next t' →
    t.err = t'.err ∧ t.result0 = t'.result0 ∧ t.result1 = t'.result1 ∧ t.result2 = t'.result2 ∧ t.outLen = t'.outLen ∧
    t.outBytes = t'.outBytes

/-- R74, R113, R140: no command reads IN at or past IN_LEN: two states that agree on everything but those bytes give the same
results, the same sub-units and the same output. -/
def Obligations.CommandsReadOnlyValidInput : Prop :=
  ∀ (i : Instr) (s : State) (m : Memory) (t t' : State),
    (∀ a, a < s.opLen → ({ s with inBuf := m } : State).inByte a = s.inByte a) →
    exec i s = .next t → exec i { s with inBuf := m } = .next t' → { t' with inBuf := t.inBuf } = t

/-- R24, R332: a command that reads IN with IN_LEN > IN_CAP ends with CAPACITY_EXCEEDED, after the check of the command word. -/
def Obligations.TooLongInputIsRefused : Prop :=
  ∀ (i : Instr) (s : State), s.params.inCap < s.opLen →
    (IsCodec i ∨ (∃ n, ReadForm i n) ∨ i = .htBuild ∨ i = .lzssFind) →
    ∃ t, exec i s = .next t ∧ t.err = some .capacityExceeded ∧ (¬ IsCodec i → FailedWith s t .capacityExceeded)

/-! ### System commands and clearing -/

/-- R320, R322, R151, R186, R252, R284, R292, R302: NOP has no effect but its completion, CLEAR_ALL clears every sub-unit and OUT_LEN,
and each other clearing command clears its own sub-unit; none leaves a result. -/
def Obligations.SystemAndClearCommandsComplete : Prop :=
  ∀ s : State,
    (∃ t, exec .nop s = .next t ∧ CompletedWith t 0 0 0 ∧ SameHostSide s t ∧ SameUnits s t ∧ SameOutput s t) ∧
    (∃ t, exec .clearAll s = .next t ∧ CompletedWith t 0 0 0 ∧ UnitsCleared t ∧ t.outLen = 0 ∧ SameHostSide s t ∧
      ∀ a, t.outByte a = s.outByte a) ∧
    (∃ t, exec .bsInit s = .next t ∧ CompletedWith t 0 0 0 ∧ t.bs.rpos = 0 ∧ t.bs.acc = 0 ∧ t.bs.nacc = 0 ∧ t.outLen = 0 ∧
      ∀ a, t.outByte a = s.outByte a) ∧
    (∃ t, exec .pqClear s = .next t ∧ CompletedWith t 0 0 0 ∧ t.pq = []) ∧
    (∃ t, exec .hdClear s = .next t ∧ CompletedWith t 0 0 0 ∧ (∀ k, Dict.list t.hd k = []) ∧ Dict.total t.hd = 0) ∧
    (∃ t, exec .cwClear s = .next t ∧ CompletedWith t 0 0 0 ∧ t.cw.head = 0 ∧ t.cw.cursor = 0 ∧ t.cw.buf = s.cw.buf ∧
      ∀ p, ¬ t.cw.readable p) ∧
    (∃ t, exec .htClear s = .next t ∧ CompletedWith t 0 0 0 ∧ (∀ v : Fin 256, t.ht.counts[v] = 0) ∧ t.ht.nodes = [] ∧
      t.ht.root = 0 ∧ t.ht.valid = false ∧ t.pq = s.pq) ∧
    (∃ t, exec .lzwClear s = .next t ∧ CompletedWith t 0 0 0 ∧ (∀ p b, Trie.child t.lzw p b = none) ∧
      Trie.next t.lzw = 257 ∧ Trie.width t.lzw = 9)

/-- R159, R256, R287, R295, R306: what each status command returns; it changes nothing. -/
def Obligations.StatusCommandsComplete : Prop :=
  ∀ s : State,
    (∃ t, exec .bsStatus s = .next t ∧ SameUnits s t ∧ SameOutput s t ∧
      CompletedWith t (BitVec.ofNat 32 s.bs.rpos) s.outLen ((s.bs.acc.setWidth 32 <<< 8) ||| BitVec.ofNat 32 s.bs.nacc)) ∧
    (∃ t, exec .pqSize s = .next t ∧ SameUnits s t ∧ SameOutput s t ∧
      (s.pq = [] → CompletedWith t 0 0 0) ∧
      (∀ e rest, s.pq = e :: rest → CompletedWith t (BitVec.ofNat 32 s.pq.length) e.weight e.payload)) ∧
    (∃ t, exec .hdCount s = .next t ∧ SameUnits s t ∧ SameOutput s t ∧
      CompletedWith t (BitVec.ofNat 32 (Dict.list s.hd (s.opArg0.toNat % 2 ^ 24)).length)
        (BitVec.ofNat 32 (Dict.total s.hd)) 0) ∧
    (∃ t, exec .cwStatus s = .next t ∧ SameUnits s t ∧ SameOutput s t ∧
      CompletedWith t (BitVec.ofNat 32 s.cw.head) (BitVec.ofNat 32 s.cw.cursor) (BitVec.ofNat 32 (min s.cw.head 4113))) ∧
    (∃ t, exec .lzwStatus s = .next t ∧ SameUnits s t ∧ SameOutput s t ∧
      CompletedWith t (BitVec.ofNat 32 (257 + s.lzw.length)) (BitVec.ofNat 32 (codeWidth (257 + s.lzw.length)))
        (BitVec.ofNat 32 s.lzw.length))

/-! ### bitstream_shifter (40_bitstream.md) -/

/-- R140 to R143, R152 to R154: a read of n bits that the input holds returns them most significant first and moves the cursor past
them. -/
def Obligations.ReadsReturnTheNextBits : Prop :=
  ∀ (i : Instr) (n : Nat) (s : State), ReadForm i n → s.opLen ≤ s.params.inCap → s.bs.rpos + n ≤ 8 * s.opLen →
    ∃ t, exec i s = .next t ∧
      (∀ j, j < n → t.result0.getLsbD (n - 1 - j) =
        (s.inByte ((s.bs.rpos + j) / 8)).getLsbD (7 - (s.bs.rpos + j) % 8)) ∧
      (∀ j, n ≤ j → t.result0.getLsbD j = false) ∧
      CompletedWith t t.result0 (BitVec.ofNat 32 (s.bs.rpos + n)) 0 ∧
      t.bs = { s.bs with rpos := s.bs.rpos + n } ∧ SameHostSide s t ∧ SameOutput s t

/-- R144, R150, R152 to R158, R334: a read that extends past the last bit ends with UNEXPECTED_END_OF_STREAM and consumes nothing; a
write, or a finish, whose completed bytes would not fit in OUT ends with CAPACITY_EXCEEDED and writes nothing. -/
def Obligations.BitstreamErrors : Prop :=
  ∀ (i : Instr) (n : Nat) (s : State),
    (ReadForm i n → s.opLen ≤ s.params.inCap → 8 * s.opLen < s.bs.rpos + n →
      ∃ t, exec i s = .next t ∧ FailedWith s t .unexpectedEndOfStream) ∧
    (WriteForm i n → s.params.outCap < s.outLen.toNat + (s.bs.nacc + n) / 8 →
      ∃ t, exec i s = .next t ∧ FailedWith s t .capacityExceeded) ∧
    (s.params.outCap < s.outLen.toNat + (if 0 < s.bs.nacc then 1 else 0) →
      ∃ t, exec .bsFinish s = .next t ∧ FailedWith s t .capacityExceeded)

/-- R145 to R148, R155 to R157: a write of n bits that fits appends the low n bits of ARG0, most significant first, to the bits
written so far, whatever the alignment, and leaves every OUT byte outside the completed ones. -/
def Obligations.WritesAppendTheBits : Prop :=
  ∀ (i : Instr) (n : Nat) (s : State), WriteForm i n → BuffersOk s → ShifterOk s →
    s.outLen.toNat + (s.bs.nacc + n) / 8 ≤ s.params.outCap →
    ∃ t, exec i s = .next t ∧ t.outBits = s.outBits ++ bitsOf s.opArg0.toNat n ∧
      t.outLen.toNat = s.outLen.toNat + (s.bs.nacc + n) / 8 ∧ t.bs.nacc = (s.bs.nacc + n) % 8 ∧ t.bs.rpos = s.bs.rpos ∧
      CompletedWith t t.outLen (BitVec.ofNat 32 t.bs.nacc) 0 ∧ SameHostSide s t ∧
      ∀ a, (a < s.outLen.toNat ∨ t.outLen.toNat ≤ a) → t.outByte a = s.outByte a

/-- R149, R158: BS_FINISH pads the partial byte with zero bits in its low positions, so that the output is whole bytes; with nothing
pending it writes nothing. -/
def Obligations.FinishPadsWithZeros : Prop :=
  ∀ s : State, BuffersOk s → ShifterOk s → s.outLen.toNat + (if 0 < s.bs.nacc then 1 else 0) ≤ s.params.outCap →
    ∃ t, exec .bsFinish s = .next t ∧ t.bs.nacc = 0 ∧
      t.outBits = s.outBits ++ List.replicate (if 0 < s.bs.nacc then 8 - s.bs.nacc else 0) false ∧
      t.outLen.toNat = s.outLen.toNat + (if 0 < s.bs.nacc then 1 else 0) ∧ t.bs.rpos = s.bs.rpos ∧
      CompletedWith t t.outLen 0 0 ∧ SameHostSide s t ∧
      ∀ a, (a < s.outLen.toNat ∨ t.outLen.toNat ≤ a) → t.outByte a = s.outByte a

/-! ### priority_queue_min_heap (44_collections.md §1) -/

/-- R280, R281, R285, R286: PQ_PUSH adds the entry and PQ_POP returns and removes an entry of least weight; both carry every other
entry unchanged and keep the heap order. -/
def Obligations.HeapCommandsKeepTheEntries : Prop :=
  ∀ s : State, HeapOrder s.pq →
    (s.pq.length < 257 → ∃ t, exec .pqPush s = .next t ∧
      t.pq.Perm ({ weight := s.opArg0, payload := s.opArg1 } :: s.pq) ∧ HeapOrder t.pq ∧
      CompletedWith t (BitVec.ofNat 32 (s.pq.length + 1)) 0 0 ∧ SameHostSide s t ∧ SameOutput s t) ∧
    (s.pq ≠ [] → ∃ (t : State) (e : HeapEntry), exec .pqPop s = .next t ∧ s.pq.Perm (e :: t.pq) ∧
      (∀ x ∈ s.pq, e.weight.toNat ≤ x.weight.toNat) ∧ HeapOrder t.pq ∧
      CompletedWith t e.weight e.payload (BitVec.ofNat 32 (s.pq.length - 1)) ∧ SameHostSide s t ∧ SameOutput s t)

/-! ### chained_hash_dictionary (44_collections.md §2) -/

/-- R293, R294: HD_INSERT appends the position at the newest end of its key's list, HD_REMOVE_OLDEST returns and removes the oldest
one; neither touches another key. -/
def Obligations.DictionaryIsFifoPerKey : Prop :=
  ∀ s : State, DictOk s →
    (Dict.total s.hd < 4095 → ∃ t, exec .hdInsert s = .next t ∧
      (∀ k, Dict.list t.hd k =
        if k = s.opArg0.toNat % 2 ^ 24 then Dict.list s.hd k ++ [s.opArg1] else Dict.list s.hd k) ∧
      CompletedWith t (BitVec.ofNat 32 ((Dict.list s.hd (s.opArg0.toNat % 2 ^ 24)).length + 1))
        (BitVec.ofNat 32 (Dict.total s.hd + 1)) 0 ∧ SameHostSide s t ∧ SameOutput s t) ∧
    (∀ (x : Word) (rest : List Word), Dict.list s.hd (s.opArg0.toNat % 2 ^ 24) = x :: rest →
      ∃ t, exec .hdRemoveOldest s = .next t ∧
        (∀ k, Dict.list t.hd k = if k = s.opArg0.toNat % 2 ^ 24 then rest else Dict.list s.hd k) ∧
        CompletedWith t x (BitVec.ofNat 32 rest.length) (BitVec.ofNat 32 (Dict.total s.hd - 1)) ∧
        SameHostSide s t ∧ SameOutput s t)

/-- R296: HD_GET returns the position of age rank ARG1, 0 the newest, and changes nothing; a rank that the list does not have is
OUT_OF_BOUNDS. -/
def Obligations.GetCountsFromNewest : Prop :=
  ∀ (s : State) (l : List Word), Dict.list s.hd (s.opArg0.toNat % 2 ^ 24) = l →
    (∀ x, s.opArg1.toNat < l.length → l[l.length - 1 - s.opArg1.toNat]? = some x →
      ∃ t, exec .hdGet s = .next t ∧ CompletedWith t x 0 0 ∧ SameHostSide s t ∧ SameUnits s t ∧ SameOutput s t) ∧
    (l.length ≤ s.opArg1.toNat → ∃ t, exec .hdGet s = .next t ∧ FailedWith s t .outOfBounds)

/-- R290: the reference organisation of 4096 hashed buckets has the same per-key lists, key collisions included. -/
def Obligations.BucketsRefineDictionary : Prop :=
  ∀ (b : Buckets) (d : Dict), Sparse.wf d → (∀ k, k < 2 ^ 24 → Buckets.list b k = Dict.list d k) →
    ∀ k, k < 2 ^ 24 →
      (∀ x k', k' < 2 ^ 24 → Buckets.list (Buckets.insert b k x) k' = Dict.list (Dict.insert d k x) k') ∧
      (∀ k', k' < 2 ^ 24 → Buckets.list (Buckets.removeOldest b k) k' = Dict.list (Dict.removeOldest d k) k')

/-! ### circular_window_buffer (44_collections.md §3) -/

/-- R303: CW_WRITE stores the byte at position cw_head, returns that position, and leaves every other position that stays
readable. -/
def Obligations.WindowWriteStoresAtHead : Prop :=
  ∀ s : State, s.cw.head < 2 ^ 32 - 1 → s.cw.head + 1 ≤ s.cw.cursor + 4113 →
    ∃ t, exec .cwWrite s = .next t ∧ t.cw.head = s.cw.head + 1 ∧ t.cw.cursor = s.cw.cursor ∧
      t.cw.byteAt s.cw.head = s.opArg0.setWidth 8 ∧
      (∀ p, t.cw.readable p → p ≠ s.cw.head → t.cw.byteAt p = s.cw.byteAt p) ∧
      CompletedWith t (BitVec.ofNat 32 s.cw.head) 0 0 ∧ SameHostSide s t ∧ SameOutput s t

/-- R300, R304, R305: CW_READ returns the byte and the position at the signed displacement from the cursor when it is readable, and changes
nothing; R305: CW_MOVE_CURSOR moves the cursor by it within the window, the head included; else both are OUT_OF_BOUNDS. -/
def Obligations.WindowAccessByDisplacement : Prop :=
  ∀ s : State,
    (∀ p : Nat, (p : Int) = s.cw.cursor + s.opArg0.toInt → s.cw.readable p →
      ∃ t, exec .cwRead s = .next t ∧ CompletedWith t ((s.cw.byteAt p).setWidth 32) (BitVec.ofNat 32 p) 0 ∧
        SameHostSide s t ∧ SameUnits s t ∧ SameOutput s t) ∧
    ((∀ p : Nat, (p : Int) = s.cw.cursor + s.opArg0.toInt → ¬ s.cw.readable p) →
      ∃ t, exec .cwRead s = .next t ∧ FailedWith s t .outOfBounds) ∧
    (∀ c : Nat, (c : Int) = s.cw.cursor + s.opArg0.toInt → s.cw.head - 4113 ≤ c → c ≤ s.cw.head →
      ∃ t, exec .cwMoveCursor s = .next t ∧ t.cw = { s.cw with cursor := c } ∧
        CompletedWith t (BitVec.ofNat 32 c) 0 0 ∧ SameHostSide s t ∧ SameOutput s t) ∧
    ((∀ c : Nat, (c : Int) = s.cw.cursor + s.opArg0.toInt → ¬ (s.cw.head - 4113 ≤ c ∧ c ≤ s.cw.head)) →
      ∃ t, exec .cwMoveCursor s = .next t ∧ FailedWith s t .outOfBounds)

/-! ### Huffman (41_huffman.md) -/

/-- R170, R171, R187: HT_BUILD makes a tree of 2D+1 nodes whose root is the last one, with the input's counts, and empties the
priority queue. -/
def Obligations.BuildMakesTheTree : Prop :=
  ∀ s : State, s.params.wf = true → s.opLen ≤ s.params.inCap →
    ∃ t, exec .htBuild s = .next t ∧ t.ht = buildTree (s.inBytes s.opLen) ∧ t.ht.valid = true ∧ t.pq = [] ∧
      (∀ v : Fin 256, t.ht.counts[v].toNat = (s.inBytes s.opLen).count (BitVec.ofFin v)) ∧
      t.ht.nodes.length = 2 * distinctBytes (s.inBytes s.opLen) + 1 ∧
      t.ht.root = 2 * distinctBytes (s.inBytes s.opLen) ∧
      CompletedWith t (BitVec.ofNat 32 t.ht.root) (BitVec.ofNat 32 t.ht.nodes.length)
        (BitVec.ofNat 32 (distinctBytes (s.inBytes s.opLen))) ∧ SameHostSide s t ∧ SameOutput s t

/-- R172: in a tree BuildTree makes, every internal node's children come before it and its weight is the sum of theirs, and exactly
one node is an EOF leaf. -/
def Obligations.BuiltTreeIsWellFormed : Prop :=
  ∀ input : List Byte, input.length ≤ 2 ^ 28 →
    (∀ (k l r : Nat) (w : Word), (buildTree input).nodes[k]? = some (.internal l r w) →
      l < k ∧ r < k ∧ ∃ a b, (buildTree input).nodes[l]? = some a ∧ (buildTree input).nodes[r]? = some b ∧
        (nodeResults a).r1 + (nodeResults b).r1 = w) ∧
    ((buildTree input).nodes.filter (fun n => match n with | .eof _ => true | _ => false)).length = 1

/-- R176: the codes of the leaves of any tree are a prefix code: no leaf's code starts the code of another, and each leads from the
root to its leaf, 0 to the left child and 1 to the right. In a tree BuildTree makes, every byte value that occurs and the EOF leaf is
listed once and nothing else is, and Code(s) is the path to the leaf of s. -/
def Obligations.CodesArePrefixFree : Prop :=
  (∀ t : Tree, List.Pairwise (fun a b => ¬ a.2 <+: b.2 ∧ ¬ b.2 <+: a.2) t.codes ∧
    ∀ c ∈ t.codes, nodeAt t.nodes t.root c.2 = some c.1 ∧ ∀ l r w, c.1 ≠ .internal l r w) ∧
  ∀ (input : List Byte) (sym : Nat), sym ≤ 256 →
    ((sym = 256 ∨ BitVec.ofNat 8 sym ∈ input) →
      ((buildTree input).codes.filter (fun c => c.1.isSymbol sym)).length = 1 ∧
      ∃ n, nodeAt (buildTree input).nodes (buildTree input).root ((buildTree input).code sym) = some n ∧
        n.isSymbol sym = true) ∧
    (¬ (sym = 256 ∨ BitVec.ofNat 8 sym ∈ input) →
      (buildTree input).codes.filter (fun c => c.1.isSymbol sym) = [])

/-- R188: HT_NODE returns kind, value, weight and children of a node of a built tree; another index, or no tree, is
OUT_OF_BOUNDS. -/
def Obligations.NodeCommandReadsArena : Prop :=
  ∀ s : State,
    (∀ (v : Byte) (w : Word), s.ht.valid = true → s.ht.nodes[s.opArg0.toNat]? = some (.leaf v w) →
      ∃ t, exec .htNode s = .next t ∧ CompletedWith t (v.setWidth 32) w 0xFFFFFFFF ∧ SameUnits s t ∧ SameOutput s t) ∧
    (∀ (l r : Nat) (w : Word), s.ht.valid = true → l < 2 ^ 16 → r < 2 ^ 16 →
      s.ht.nodes[s.opArg0.toNat]? = some (.internal l r w) →
      ∃ t, exec .htNode s = .next t ∧ CompletedWith t 0x100 w (BitVec.ofNat 32 (l * 2 ^ 16 + r)) ∧ SameUnits s t ∧
        SameOutput s t) ∧
    (∀ w : Word, s.ht.valid = true → s.ht.nodes[s.opArg0.toNat]? = some (.eof w) →
      ∃ t, exec .htNode s = .next t ∧ CompletedWith t 0x200 w 0xFFFFFFFF ∧ SameUnits s t ∧ SameOutput s t) ∧
    (s.ht.valid = false ∨ s.ht.nodes.length ≤ s.opArg0.toNat →
      ∃ t, exec .htNode s = .next t ∧ FailedWith s t .outOfBounds)

/-- R189: HT_CODE k of a symbol that has a code returns its length and its bits 32k..32k+31, the first in bit 31; of a byte value that
did not occur, or without a tree, it returns zeros; of a symbol above 256 it is OUT_OF_BOUNDS; k above 7 is ILLEGAL_COMMAND. -/
def Obligations.CodeCommandReturnsSlices : Prop :=
  ∀ (s : State) (k : Byte),
    (k.toNat ≤ 7 →
      (s.opArg0.toNat ≤ 256 → s.ht.valid = true →
        (s.opArg0.toNat < 256 → (s.ht.counts.toList.getD s.opArg0.toNat 0) ≠ 0) →
        ∃ t, exec (.htCode k) s = .next t ∧
          (∀ j, j < 32 → t.result1.getLsbD (31 - j) = (s.ht.code s.opArg0.toNat).getD (32 * k.toNat + j) false) ∧
          CompletedWith t (BitVec.ofNat 32 (s.ht.code s.opArg0.toNat).length) t.result1 1 ∧
          SameHostSide s t ∧ SameUnits s t ∧ SameOutput s t) ∧
      (s.opArg0.toNat ≤ 256 →
        (s.ht.valid = false ∨ (s.opArg0.toNat < 256 ∧ s.ht.counts.toList.getD s.opArg0.toNat 0 = 0)) →
        ∃ t, exec (.htCode k) s = .next t ∧ CompletedWith t 0 0 0 ∧ SameHostSide s t ∧ SameUnits s t ∧ SameOutput s t) ∧
      (256 < s.opArg0.toNat → ∃ t, exec (.htCode k) s = .next t ∧ FailedWith s t .outOfBounds)) ∧
    (7 < k.toNat → ∃ t, exec (.htCode k) s = .next t ∧ FailedWith s t .illegalCommand)

/-! ### LZSS match finder (42_lzss.md) -/

/-- R211, R212: with IN_LEN above IN_CAP LZSS_FIND is CAPACITY_EXCEEDED; else it returns a match that lies in the prefix and the input and really repeats its bytes, no candidate of R211 is
longer, none as long is nearer; or (0, 0) if no 3-byte key repeats. Past IN_LEN it is OUT_OF_BOUNDS. -/
def Obligations.FindReturnsBestMatch : Prop :=
  ∀ s : State, s.params.wf = true →
    (s.params.inCap < s.opLen → ∃ t, exec .lzssFind s = .next t ∧ FailedWith s t .capacityExceeded) ∧
    (s.opLen ≤ s.params.inCap → s.opArg0.toNat ≤ s.opLen → ∃ (t : State) (M O : Nat), exec .lzssFind s = .next t ∧
      CompletedWith t (BitVec.ofNat 32 M) (BitVec.ofNat 32 O) 0 ∧ SameHostSide s t ∧ SameUnits s t ∧ SameOutput s t ∧
      ((M = 0 ∧ O = 0) ∨
        (3 ≤ M ∧ M ≤ 18 ∧ 1 ≤ O ∧ O ≤ 4095 ∧ O ≤ s.opArg0.toNat ∧ s.opArg0.toNat + M ≤ s.opLen ∧
          ∀ j, j < M → s.inByte (s.opArg0.toNat - O + j) = s.inByte (s.opArg0.toNat + j))) ∧
      ∀ p l : Nat, p < s.opArg0.toNat → s.opArg0.toNat ≤ p + 4095 → 3 ≤ l → l ≤ 18 → s.opArg0.toNat + l ≤ s.opLen →
        (∀ j, j < l → s.inByte (p + j) = s.inByte (s.opArg0.toNat + j)) →
        l ≤ M ∧ (l = M → O ≤ s.opArg0.toNat - p)) ∧
    (s.opLen ≤ s.params.inCap → s.opLen < s.opArg0.toNat → ∃ t, exec .lzssFind s = .next t ∧ FailedWith s t .outOfBounds)

/-- R213, R217, R385: the window and the dictionary that LZSS_COMPRESS slides over the input give, block for block, the greedy parse
decided by FindMatch over the input. -/
def Obligations.WindowEngineRefinesFindMatch : Prop :=
  ∀ (byte : Nat → Byte) (N : Nat), N ≤ 2 ^ 28 →
    lzssBlocks byte N N (LzssWork.start byte N) = lzssParse byte N N 0

/-! ### The codecs -/

/-- R183, R214, R246, R107, R149: a compress command whose stream fits in OUT leaves it there, most significant bit first and padded
with zero bits to a whole byte; RESULT0 is the bytes, RESULT1 the bits before padding, and the stream starts with the
codec's tag. A stream that does not fit ends with CAPACITY_EXCEEDED, the only error. -/
def Obligations.CompressCommandsComplete : Prop :=
  ∀ (i : Instr) (s : State) (tag : Word) (stream : List Bool) (r2 : Nat), s.params.wf = true → s.opLen ≤ s.params.inCap →
    CompressForm s.params (s.inBytes s.opLen) i tag stream r2 →
    ((stream.length + 7) / 8 ≤ s.params.outCap → ∃ t, exec i s = .next t ∧ t.outLen.toNat = (stream.length + 7) / 8 ∧
      streamBits t.outBytes = stream ++ List.replicate (8 * t.outLen.toNat - stream.length) false ∧
      stream.take 32 = bitsOf tag.toNat 32 ∧
      CompletedWith t t.outLen (BitVec.ofNat 32 stream.length) (BitVec.ofNat 32 r2) ∧ UnitsCleared t ∧ SameHostSide s t ∧
      ∀ a, t.outLen.toNat ≤ a → t.outByte a = s.outByte a) ∧
    (s.params.outCap < (stream.length + 7) / 8 → ∃ t, exec i s = .next t ∧ t.err = some .capacityExceeded ∧ t.outLen = 0)

/-- R184, R219, R248: a decompress command whose stream is well formed leaves the decoded bytes in OUT from index 0 on, their number in
OUT_LEN and RESULT0, and clears every sub-unit. -/
def Obligations.DecompressCommandsComplete : Prop :=
  ∀ (i : Instr) (s : State) (run : List Byte → Except CodecRaise CodecDone) (d : CodecDone), s.params.wf = true →
    s.opLen ≤ s.params.inCap → DecompressForm s.params i run → run (s.inBytes s.opLen) = .ok d →
    ∃ t, exec i s = .next t ∧ t.outBytes = d.out ∧ t.outLen.toNat ≤ s.params.outCap ∧ d.r1 ≤ 8 * s.opLen ∧
      CompletedWith t t.outLen (BitVec.ofNat 32 d.r1) (BitVec.ofNat 32 d.r2) ∧ UnitsCleared t ∧ SameHostSide s t ∧
      ∀ a, t.outLen.toNat ≤ a → t.outByte a = s.outByte a

/-- R333, R330: a decompress command given fewer than 4 bytes ends with UNEXPECTED_END_OF_STREAM, and given 4 bytes that are not its
tag with INVALID_HEADER, whatever follows them. -/
def Obligations.HeaderErrorsOfDecompress : Prop :=
  ∀ (s : State) (i : Instr) (tag : Word), s.opLen ≤ s.params.inCap →
    ((i = .hufDecompress ∧ tag = s.params.tagHuf) ∨ (i = .lzssDecompress ∧ tag = s.params.tagLzss) ∨
      (i = .lzwDecompress ∧ tag = s.params.tagLzw)) →
    (s.opLen < 4 → ∃ t, exec i s = .next t ∧ t.err = some .unexpectedEndOfStream ∧ t.outLen = 0) ∧
    (4 ≤ s.opLen → s.inByte 0 ++ s.inByte 1 ++ s.inByte 2 ++ s.inByte 3 ≠ tag →
      ∃ t, exec i s = .next t ∧ t.err = some .invalidHeader ∧ t.outLen = 0)

/-- Scenario S-RT, R183, R184, R383: what HUF_COMPRESS leaves in OUT, copied to IN, HUF_DECOMPRESS turns back into the input. -/
def Obligations.HuffmanRoundTrip : Prop :=
  ∀ s t u : State, s.params.wf = true → exec .hufCompress s = .next t → t.err = none → s.opLen ≤ s.params.outCap →
    u.params = s.params → u.opLen ≤ u.params.inCap → u.inBytes u.opLen = t.outBytes →
    ∃ v, exec .hufDecompress u = .next v ∧ v.outBytes = s.inBytes s.opLen ∧
      CompletedWith v s.operands.inLen t.result1 t.result2

/-- Scenario S-RT, R214, R219, R383: what LZSS_COMPRESS leaves in OUT, copied to IN, LZSS_DECOMPRESS turns back into the input. -/
def Obligations.LzssRoundTrip : Prop :=
  ∀ s t u : State, s.params.wf = true → exec .lzssCompress s = .next t → t.err = none → s.opLen ≤ s.params.outCap →
    u.params = s.params → u.opLen ≤ u.params.inCap → u.inBytes u.opLen = t.outBytes →
    ∃ v, exec .lzssDecompress u = .next v ∧ v.outBytes = s.inBytes s.opLen ∧
      CompletedWith v s.operands.inLen t.result1 t.result2

/-- Scenario S-RT, R246, R248, R383: what LZW_COMPRESS leaves in OUT, copied to IN, LZW_DECOMPRESS turns back into the input, across
every flush. -/
def Obligations.LzwRoundTrip : Prop :=
  ∀ s t u : State, s.params.wf = true → exec .lzwCompress s = .next t → t.err = none → s.opLen ≤ s.params.outCap →
    u.params = s.params → u.opLen ≤ u.params.inCap → u.inBytes u.opLen = t.outBytes →
    ∃ v, exec .lzwDecompress u = .next v ∧ v.outBytes = s.inBytes s.opLen ∧
      v.err = none ∧ v.result0 = s.operands.inLen ∧ v.result1 = t.result1

/-! ### LZW dictionary and width (43_lzw.md) -/

/-- R241, R255: LZW_WIDTH returns the least width of at least 9 bits that holds the index; above 65535 it is OUT_OF_BOUNDS. -/
def Obligations.WidthIsLeastThatFits : Prop :=
  ∀ s : State,
    (s.opArg0.toNat ≤ 65535 → ∃ (t : State) (w : Nat), exec .lzwWidth s = .next t ∧
      CompletedWith t (BitVec.ofNat 32 w) 0 0 ∧ 9 ≤ w ∧ w ≤ 16 ∧ s.opArg0.toNat < 2 ^ w ∧
      (w = 9 ∨ 2 ^ (w - 1) ≤ s.opArg0.toNat) ∧ SameHostSide s t ∧ SameUnits s t ∧ SameOutput s t) ∧
    (65535 < s.opArg0.toNat → ∃ t, exec .lzwWidth s = .next t ∧ FailedWith s t .outOfBounds)

/-- R242, R254: LZW_INSERT of a new entry below the live parent assigns lzw_next; the entry is then found and every older one stays
found; the one at 65535 flushes the dictionary. -/
def Obligations.InsertAssignsNextIndex : Prop :=
  ∀ s : State, TrieOk s → s.opArg0.toNat ≠ 256 → s.opArg0.toNat < 257 + s.lzw.length →
    Trie.child s.lzw s.opArg0.toNat (s.opArg1.setWidth 8) = none →
    (s.lzw.length < 65278 → ∃ t, exec .lzwInsert s = .next t ∧
      CompletedWith t (BitVec.ofNat 32 (257 + s.lzw.length)) (BitVec.ofNat 32 (codeWidth (258 + s.lzw.length))) 0 ∧
      Trie.next t.lzw = 258 + s.lzw.length ∧
      Trie.child t.lzw s.opArg0.toNat (s.opArg1.setWidth 8) = some (257 + s.lzw.length) ∧
      (∀ p b, ¬ (p = s.opArg0.toNat ∧ b = s.opArg1.setWidth 8) → Trie.child t.lzw p b = Trie.child s.lzw p b) ∧
      SameHostSide s t ∧ SameOutput s t) ∧
    (s.lzw.length = 65278 → ∃ t, exec .lzwInsert s = .next t ∧ CompletedWith t 65535 9 1 ∧ t.lzw = [] ∧
      SameHostSide s t ∧ SameOutput s t)

/-- R253: LZW_LOOKUP gives the byte itself for the empty sequence, the child of a live parent if there is one, and (0, 0) if there is
none; R257, R240: LZW_ENTRY gives the parent, the last byte and the length of the sequence, which is the parent's sequence and the last byte;
for a single byte NONE, the byte and 1. Neither changes anything. -/
def Obligations.LookupAndEntryDescribeTheTrie : Prop :=
  ∀ s : State, TrieOk s →
    (s.opArg0 = 0xFFFFFFFF → ∃ t, exec .lzwLookup s = .next t ∧
      CompletedWith t 1 ((s.opArg1.setWidth 8).setWidth 32) 0 ∧ SameUnits s t ∧ SameOutput s t) ∧
    (s.opArg0 ≠ 0xFFFFFFFF → s.opArg0.toNat ≠ 256 → s.opArg0.toNat < 257 + s.lzw.length →
      ∃ t, exec .lzwLookup s = .next t ∧ SameUnits s t ∧ SameOutput s t ∧
        (∀ i, Trie.child s.lzw s.opArg0.toNat (s.opArg1.setWidth 8) = some i →
          CompletedWith t 1 (BitVec.ofNat 32 i) 0 ∧
          s.lzw[i - 257]? = some { parent := s.opArg0.toNat, last := s.opArg1.setWidth 8 }) ∧
        (Trie.child s.lzw s.opArg0.toNat (s.opArg1.setWidth 8) = none → CompletedWith t 0 0 0 ∧
          ({ parent := s.opArg0.toNat, last := s.opArg1.setWidth 8 } : TrieEntry) ∉ s.lzw)) ∧
    (s.opArg0.toNat ≤ 255 → ∃ t, exec .lzwEntry s = .next t ∧ CompletedWith t 0xFFFFFFFF s.opArg0 1 ∧ SameUnits s t ∧
      SameOutput s t) ∧
    (∀ e, 257 ≤ s.opArg0.toNat → s.lzw[s.opArg0.toNat - 257]? = some e →
      ∃ t, exec .lzwEntry s = .next t ∧ SameUnits s t ∧ SameOutput s t ∧
        CompletedWith t (BitVec.ofNat 32 e.parent) (e.last.setWidth 32)
          (BitVec.ofNat 32 (Trie.seq s.lzw s.opArg0.toNat).length) ∧
        Trie.seq s.lzw s.opArg0.toNat = Trie.seq s.lzw e.parent ++ [e.last] ∧
        (Trie.seq s.lzw s.opArg0.toNat).length ≤ 1 + (s.opArg0.toNat - 256))

/-! ### Errors of the collections and of the LZW commands -/

/-- R285, R286, R293, R294, R301, R303: a push, insert or write that does not fit is CAPACITY_EXCEEDED, a pop or removal of nothing
STATE_ERROR, a window write that would evict the byte at the cursor OUT_OF_BOUNDS; R253, R254, R257: an index that is not live is
OUT_OF_BOUNDS, and the insertion of an entry that exists STATE_ERROR. -/
def Obligations.CollectionCommandErrors : Prop :=
  ∀ s : State,
    (s.pq.length = 257 → ∃ t, exec .pqPush s = .next t ∧ FailedWith s t .capacityExceeded) ∧
    (s.pq = [] → ∃ t, exec .pqPop s = .next t ∧ FailedWith s t .stateError) ∧
    (Dict.total s.hd = 4095 → ∃ t, exec .hdInsert s = .next t ∧ FailedWith s t .capacityExceeded) ∧
    (Dict.list s.hd (s.opArg0.toNat % 2 ^ 24) = [] → ∃ t, exec .hdRemoveOldest s = .next t ∧ FailedWith s t .stateError) ∧
    (s.cw.head = 2 ^ 32 - 1 → ∃ t, exec .cwWrite s = .next t ∧ FailedWith s t .capacityExceeded) ∧
    (s.cw.head < 2 ^ 32 - 1 → s.cw.cursor + 4113 < s.cw.head + 1 →
      ∃ t, exec .cwWrite s = .next t ∧ FailedWith s t .outOfBounds) ∧
    (s.opArg0.toNat = 256 ∨ 257 + s.lzw.length ≤ s.opArg0.toNat →
      (s.opArg0 ≠ 0xFFFFFFFF → ∃ t, exec .lzwLookup s = .next t ∧ FailedWith s t .outOfBounds) ∧
      (∃ t, exec .lzwInsert s = .next t ∧ FailedWith s t .outOfBounds) ∧
      (256 ≤ s.opArg0.toNat → ∃ t, exec .lzwEntry s = .next t ∧ FailedWith s t .outOfBounds)) ∧
    (s.opArg0.toNat ≠ 256 → s.opArg0.toNat < 257 + s.lzw.length →
      (∃ i, Trie.child s.lzw s.opArg0.toNat (s.opArg1.setWidth 8) = some i) →
      ∃ t, exec .lzwInsert s = .next t ∧ FailedWith s t .stateError)

/-! ### Invariants (10_state.md §3) -/

/-- R370: the registers, the interrupt and every sub-unit after power-on reset; every invariant of the
model holds there. -/
def Obligations.ResetState : Prop :=
  State.reset.params = Config.params ∧ State.reset.ctrlWord = 0 ∧ State.reset.statusWord = 0 ∧ State.reset.cmd = 0 ∧
  State.reset.arg0 = 0 ∧ State.reset.arg1 = 0 ∧ State.reset.result0 = 0 ∧ State.reset.result1 = 0 ∧
  State.reset.result2 = 0 ∧ State.reset.inLen = 0 ∧ State.reset.outLen = 0 ∧ State.reset.irq = false ∧
  State.reset.latch = none ∧ UnitsCleared State.reset ∧ State.reset.Inv

/-- R24, R26, R27, R74: every step keeps the buffers in canonical form and inside their capacities, OUT_LEN ≤ OUT_CAP, fewer than 8
bits pending, and the cursor a bit offset of IN_BUF; R31, R186, R187: and it keeps the tree the cleared one or one that BuildTree makes
of an input that fits IN_BUF. -/
def Obligations.StepKeepsBuffersShifterAndTree : Prop :=
  ∀ s t : State, step s = .next t →
    (BuffersOk s ∧ ShifterOk s → BuffersOk t ∧ ShifterOk t) ∧ (TreeOk s → TreeOk t)

/-- R28, R281: every step keeps the priority queue in heap order and within PQ_CAP. -/
def Obligations.StepKeepsHeapOrder : Prop :=
  ∀ s t : State, HeapOk s → step s = .next t → HeapOk t

/-- R29: every step keeps the dictionary in canonical form and within HD_CAP. -/
def Obligations.StepKeepsDictionary : Prop :=
  ∀ s t : State, DictOk s → step s = .next t → DictOk t

/-- R30, R300, R301: every step keeps the cursor in the window and every readable position written. -/
def Obligations.StepKeepsWindow : Prop :=
  ∀ s t : State, WindowOk s → step s = .next t → WindowOk t

/-- R32, R240: every step keeps the prefix property of the LZW dictionary, no entry twice, and lzw_next ≤ 65535. -/
def Obligations.StepKeepsTrie : Prop :=
  ∀ s t : State, TrieOk s → step s = .next t → TrieOk t

/-- R340, R380: every step keeps the latched command equal to the registers, with DONE and ERR_CODE 0 while BUSY = 1. -/
def Obligations.StepKeepsIssue : Prop :=
  ∀ s t : State, IssueOk s → step s = .next t → IssueOk t
end

