-- ==== Sys2Proof/Laws/State.lean ====
section
/-! SUPPORT. One lemma per field and state update, so that no later proof unfolds a record update. -/

namespace Sys2Proof.Machine

/-! ### accept -/

@[simp] theorem State.accept_params (s : State) : s.accept.params = s.params := rfl
@[simp] theorem State.accept_irqEn (s : State) : s.accept.irqEn = s.irqEn := rfl
@[simp] theorem State.accept_done (s : State) : s.accept.done = false := rfl
@[simp] theorem State.accept_err (s : State) : s.accept.err = none := rfl
@[simp] theorem State.accept_violation (s : State) : s.accept.violation = s.violation := rfl
@[simp] theorem State.accept_cmd (s : State) : s.accept.cmd = s.cmd := rfl
@[simp] theorem State.accept_arg0 (s : State) : s.accept.arg0 = s.arg0 := rfl
@[simp] theorem State.accept_arg1 (s : State) : s.accept.arg1 = s.arg1 := rfl
@[simp] theorem State.accept_result0 (s : State) : s.accept.result0 = s.result0 := rfl
@[simp] theorem State.accept_result1 (s : State) : s.accept.result1 = s.result1 := rfl
@[simp] theorem State.accept_result2 (s : State) : s.accept.result2 = s.result2 := rfl
@[simp] theorem State.accept_inLen (s : State) : s.accept.inLen = s.inLen := rfl
@[simp] theorem State.accept_outLen (s : State) : s.accept.outLen = s.outLen := rfl
@[simp] theorem State.accept_inBuf (s : State) : s.accept.inBuf = s.inBuf := rfl
@[simp] theorem State.accept_outBuf (s : State) : s.accept.outBuf = s.outBuf := rfl
@[simp] theorem State.accept_bs (s : State) : s.accept.bs = s.bs := rfl
@[simp] theorem State.accept_pq (s : State) : s.accept.pq = s.pq := rfl
@[simp] theorem State.accept_hd (s : State) : s.accept.hd = s.hd := rfl
@[simp] theorem State.accept_cw (s : State) : s.accept.cw = s.cw := rfl
@[simp] theorem State.accept_ht (s : State) : s.accept.ht = s.ht := rfl
@[simp] theorem State.accept_lzw (s : State) : s.accept.lzw = s.lzw := rfl
@[simp] theorem State.accept_latch (s : State) : s.accept.latch = some s.latchNow := rfl
@[simp] theorem State.accept_agenda (s : State) : s.accept.agenda = s.agenda := rfl
@[simp] theorem State.accept_readLog (s : State) : s.accept.readLog = s.readLog := rfl
@[simp] theorem State.accept_draws (s : State) : s.accept.draws = s.draws := rfl

/-! ### complete -/

@[simp] theorem State.complete_params (s : State) (r : Results) : (s.complete r).params = s.params := rfl
@[simp] theorem State.complete_irqEn (s : State) (r : Results) : (s.complete r).irqEn = s.irqEn := rfl
@[simp] theorem State.complete_done (s : State) (r : Results) : (s.complete r).done = true := rfl
@[simp] theorem State.complete_err (s : State) (r : Results) : (s.complete r).err = none := rfl
@[simp] theorem State.complete_violation (s : State) (r : Results) : (s.complete r).violation = s.violation := rfl
@[simp] theorem State.complete_cmd (s : State) (r : Results) : (s.complete r).cmd = s.cmd := rfl
@[simp] theorem State.complete_arg0 (s : State) (r : Results) : (s.complete r).arg0 = s.arg0 := rfl
@[simp] theorem State.complete_arg1 (s : State) (r : Results) : (s.complete r).arg1 = s.arg1 := rfl
@[simp] theorem State.complete_result0 (s : State) (r : Results) : (s.complete r).result0 = r.r0 := rfl
@[simp] theorem State.complete_result1 (s : State) (r : Results) : (s.complete r).result1 = r.r1 := rfl
@[simp] theorem State.complete_result2 (s : State) (r : Results) : (s.complete r).result2 = r.r2 := rfl
@[simp] theorem State.complete_inLen (s : State) (r : Results) : (s.complete r).inLen = s.inLen := rfl
@[simp] theorem State.complete_outLen (s : State) (r : Results) : (s.complete r).outLen = s.outLen := rfl
@[simp] theorem State.complete_inBuf (s : State) (r : Results) : (s.complete r).inBuf = s.inBuf := rfl
@[simp] theorem State.complete_outBuf (s : State) (r : Results) : (s.complete r).outBuf = s.outBuf := rfl
@[simp] theorem State.complete_bs (s : State) (r : Results) : (s.complete r).bs = s.bs := rfl
@[simp] theorem State.complete_pq (s : State) (r : Results) : (s.complete r).pq = s.pq := rfl
@[simp] theorem State.complete_hd (s : State) (r : Results) : (s.complete r).hd = s.hd := rfl
@[simp] theorem State.complete_cw (s : State) (r : Results) : (s.complete r).cw = s.cw := rfl
@[simp] theorem State.complete_ht (s : State) (r : Results) : (s.complete r).ht = s.ht := rfl
@[simp] theorem State.complete_lzw (s : State) (r : Results) : (s.complete r).lzw = s.lzw := rfl
@[simp] theorem State.complete_latch (s : State) (r : Results) : (s.complete r).latch = none := rfl
@[simp] theorem State.complete_agenda (s : State) (r : Results) : (s.complete r).agenda = s.agenda := rfl
@[simp] theorem State.complete_readLog (s : State) (r : Results) : (s.complete r).readLog = s.readLog := rfl
@[simp] theorem State.complete_draws (s : State) (r : Results) : (s.complete r).draws = s.draws := rfl

/-! ### raise -/

@[simp] theorem State.raise_params (s : State) (e : Err) : (s.raise e).params = s.params := rfl
@[simp] theorem State.raise_irqEn (s : State) (e : Err) : (s.raise e).irqEn = s.irqEn := rfl
@[simp] theorem State.raise_done (s : State) (e : Err) : (s.raise e).done = true := rfl
@[simp] theorem State.raise_err (s : State) (e : Err) : (s.raise e).err = some e := rfl
@[simp] theorem State.raise_violation (s : State) (e : Err) : (s.raise e).violation = s.violation := rfl
@[simp] theorem State.raise_cmd (s : State) (e : Err) : (s.raise e).cmd = s.cmd := rfl
@[simp] theorem State.raise_arg0 (s : State) (e : Err) : (s.raise e).arg0 = s.arg0 := rfl
@[simp] theorem State.raise_arg1 (s : State) (e : Err) : (s.raise e).arg1 = s.arg1 := rfl
@[simp] theorem State.raise_result0 (s : State) (e : Err) : (s.raise e).result0 = 0 := rfl
@[simp] theorem State.raise_result1 (s : State) (e : Err) : (s.raise e).result1 = 0 := rfl
@[simp] theorem State.raise_result2 (s : State) (e : Err) : (s.raise e).result2 = 0 := rfl
@[simp] theorem State.raise_inLen (s : State) (e : Err) : (s.raise e).inLen = s.inLen := rfl
@[simp] theorem State.raise_outLen (s : State) (e : Err) : (s.raise e).outLen = s.outLen := rfl
@[simp] theorem State.raise_inBuf (s : State) (e : Err) : (s.raise e).inBuf = s.inBuf := rfl
@[simp] theorem State.raise_outBuf (s : State) (e : Err) : (s.raise e).outBuf = s.outBuf := rfl
@[simp] theorem State.raise_bs (s : State) (e : Err) : (s.raise e).bs = s.bs := rfl
@[simp] theorem State.raise_pq (s : State) (e : Err) : (s.raise e).pq = s.pq := rfl
@[simp] theorem State.raise_hd (s : State) (e : Err) : (s.raise e).hd = s.hd := rfl
@[simp] theorem State.raise_cw (s : State) (e : Err) : (s.raise e).cw = s.cw := rfl
@[simp] theorem State.raise_ht (s : State) (e : Err) : (s.raise e).ht = s.ht := rfl
@[simp] theorem State.raise_lzw (s : State) (e : Err) : (s.raise e).lzw = s.lzw := rfl
@[simp] theorem State.raise_latch (s : State) (e : Err) : (s.raise e).latch = none := rfl
@[simp] theorem State.raise_agenda (s : State) (e : Err) : (s.raise e).agenda = s.agenda := rfl
@[simp] theorem State.raise_readLog (s : State) (e : Err) : (s.raise e).readLog = s.readLog := rfl
@[simp] theorem State.raise_draws (s : State) (e : Err) : (s.raise e).draws = s.draws := rfl

/-! ### acknowledge -/

@[simp] theorem State.acknowledge_params (s : State) (v : Word) : (s.acknowledge v).params = s.params := rfl
@[simp] theorem State.acknowledge_irqEn (s : State) (v : Word) : (s.acknowledge v).irqEn = s.irqEn := rfl
@[simp] theorem State.acknowledge_done (s : State) (v : Word) : (s.acknowledge v).done = (s.done && !v.getLsbD 1) := rfl
@[simp] theorem State.acknowledge_err (s : State) (v : Word) : (s.acknowledge v).err = s.err := rfl
@[simp] theorem State.acknowledge_violation (s : State) (v : Word) : (s.acknowledge v).violation = (s.violation && !v.getLsbD 8) := rfl
@[simp] theorem State.acknowledge_cmd (s : State) (v : Word) : (s.acknowledge v).cmd = s.cmd := rfl
@[simp] theorem State.acknowledge_arg0 (s : State) (v : Word) : (s.acknowledge v).arg0 = s.arg0 := rfl
@[simp] theorem State.acknowledge_arg1 (s : State) (v : Word) : (s.acknowledge v).arg1 = s.arg1 := rfl
@[simp] theorem State.acknowledge_result0 (s : State) (v : Word) : (s.acknowledge v).result0 = s.result0 := rfl
@[simp] theorem State.acknowledge_result1 (s : State) (v : Word) : (s.acknowledge v).result1 = s.result1 := rfl
@[simp] theorem State.acknowledge_result2 (s : State) (v : Word) : (s.acknowledge v).result2 = s.result2 := rfl
@[simp] theorem State.acknowledge_inLen (s : State) (v : Word) : (s.acknowledge v).inLen = s.inLen := rfl
@[simp] theorem State.acknowledge_outLen (s : State) (v : Word) : (s.acknowledge v).outLen = s.outLen := rfl
@[simp] theorem State.acknowledge_inBuf (s : State) (v : Word) : (s.acknowledge v).inBuf = s.inBuf := rfl
@[simp] theorem State.acknowledge_outBuf (s : State) (v : Word) : (s.acknowledge v).outBuf = s.outBuf := rfl
@[simp] theorem State.acknowledge_bs (s : State) (v : Word) : (s.acknowledge v).bs = s.bs := rfl
@[simp] theorem State.acknowledge_pq (s : State) (v : Word) : (s.acknowledge v).pq = s.pq := rfl
@[simp] theorem State.acknowledge_hd (s : State) (v : Word) : (s.acknowledge v).hd = s.hd := rfl
@[simp] theorem State.acknowledge_cw (s : State) (v : Word) : (s.acknowledge v).cw = s.cw := rfl
@[simp] theorem State.acknowledge_ht (s : State) (v : Word) : (s.acknowledge v).ht = s.ht := rfl
@[simp] theorem State.acknowledge_lzw (s : State) (v : Word) : (s.acknowledge v).lzw = s.lzw := rfl
@[simp] theorem State.acknowledge_latch (s : State) (v : Word) : (s.acknowledge v).latch = s.latch := rfl
@[simp] theorem State.acknowledge_agenda (s : State) (v : Word) : (s.acknowledge v).agenda = s.agenda := rfl
@[simp] theorem State.acknowledge_readLog (s : State) (v : Word) : (s.acknowledge v).readLog = s.readLog := rfl
@[simp] theorem State.acknowledge_draws (s : State) (v : Word) : (s.acknowledge v).draws = s.draws := rfl

/-! ### clearUnits -/

@[simp] theorem State.clearUnits_params (s : State) : s.clearUnits.params = s.params := rfl
@[simp] theorem State.clearUnits_irqEn (s : State) : s.clearUnits.irqEn = s.irqEn := rfl
@[simp] theorem State.clearUnits_done (s : State) : s.clearUnits.done = s.done := rfl
@[simp] theorem State.clearUnits_err (s : State) : s.clearUnits.err = s.err := rfl
@[simp] theorem State.clearUnits_violation (s : State) : s.clearUnits.violation = s.violation := rfl
@[simp] theorem State.clearUnits_cmd (s : State) : s.clearUnits.cmd = s.cmd := rfl
@[simp] theorem State.clearUnits_arg0 (s : State) : s.clearUnits.arg0 = s.arg0 := rfl
@[simp] theorem State.clearUnits_arg1 (s : State) : s.clearUnits.arg1 = s.arg1 := rfl
@[simp] theorem State.clearUnits_result0 (s : State) : s.clearUnits.result0 = s.result0 := rfl
@[simp] theorem State.clearUnits_result1 (s : State) : s.clearUnits.result1 = s.result1 := rfl
@[simp] theorem State.clearUnits_result2 (s : State) : s.clearUnits.result2 = s.result2 := rfl
@[simp] theorem State.clearUnits_inLen (s : State) : s.clearUnits.inLen = s.inLen := rfl
@[simp] theorem State.clearUnits_outLen (s : State) : s.clearUnits.outLen = s.outLen := rfl
@[simp] theorem State.clearUnits_inBuf (s : State) : s.clearUnits.inBuf = s.inBuf := rfl
@[simp] theorem State.clearUnits_outBuf (s : State) : s.clearUnits.outBuf = s.outBuf := rfl
@[simp] theorem State.clearUnits_bs (s : State) : s.clearUnits.bs = Shifter.cleared := rfl
@[simp] theorem State.clearUnits_pq (s : State) : s.clearUnits.pq = [] := rfl
@[simp] theorem State.clearUnits_hd (s : State) : s.clearUnits.hd = [] := rfl
@[simp] theorem State.clearUnits_cw (s : State) : s.clearUnits.cw = { s.cw with head := 0, cursor := 0 } := rfl
@[simp] theorem State.clearUnits_ht (s : State) : s.clearUnits.ht = Tree.cleared := rfl
@[simp] theorem State.clearUnits_lzw (s : State) : s.clearUnits.lzw = [] := rfl
@[simp] theorem State.clearUnits_latch (s : State) : s.clearUnits.latch = s.latch := rfl
@[simp] theorem State.clearUnits_agenda (s : State) : s.clearUnits.agenda = s.agenda := rfl
@[simp] theorem State.clearUnits_readLog (s : State) : s.clearUnits.readLog = s.readLog := rfl
@[simp] theorem State.clearUnits_draws (s : State) : s.clearUnits.draws = s.draws := rfl

/-! ### spoilOut -/

@[simp] theorem State.spoilOut_params (s : State) (first count : Nat) : (s.spoilOut first count).params = s.params := rfl
@[simp] theorem State.spoilOut_irqEn (s : State) (first count : Nat) : (s.spoilOut first count).irqEn = s.irqEn := rfl
@[simp] theorem State.spoilOut_done (s : State) (first count : Nat) : (s.spoilOut first count).done = s.done := rfl
@[simp] theorem State.spoilOut_err (s : State) (first count : Nat) : (s.spoilOut first count).err = s.err := rfl
@[simp] theorem State.spoilOut_violation (s : State) (first count : Nat) : (s.spoilOut first count).violation = s.violation := rfl
@[simp] theorem State.spoilOut_cmd (s : State) (first count : Nat) : (s.spoilOut first count).cmd = s.cmd := rfl
@[simp] theorem State.spoilOut_arg0 (s : State) (first count : Nat) : (s.spoilOut first count).arg0 = s.arg0 := rfl
@[simp] theorem State.spoilOut_arg1 (s : State) (first count : Nat) : (s.spoilOut first count).arg1 = s.arg1 := rfl
@[simp] theorem State.spoilOut_result0 (s : State) (first count : Nat) : (s.spoilOut first count).result0 = s.result0 := rfl
@[simp] theorem State.spoilOut_result1 (s : State) (first count : Nat) : (s.spoilOut first count).result1 = s.result1 := rfl
@[simp] theorem State.spoilOut_result2 (s : State) (first count : Nat) : (s.spoilOut first count).result2 = s.result2 := rfl
@[simp] theorem State.spoilOut_inLen (s : State) (first count : Nat) : (s.spoilOut first count).inLen = s.inLen := rfl
@[simp] theorem State.spoilOut_outLen (s : State) (first count : Nat) : (s.spoilOut first count).outLen = s.outLen := rfl
@[simp] theorem State.spoilOut_inBuf (s : State) (first count : Nat) : (s.spoilOut first count).inBuf = s.inBuf := rfl
@[simp] theorem State.spoilOut_outBuf (s : State) (first count : Nat) : (s.spoilOut first count).outBuf = Memory.store s.outBuf first (freeBytes s.draws count) := rfl
@[simp] theorem State.spoilOut_bs (s : State) (first count : Nat) : (s.spoilOut first count).bs = s.bs := rfl
@[simp] theorem State.spoilOut_pq (s : State) (first count : Nat) : (s.spoilOut first count).pq = s.pq := rfl
@[simp] theorem State.spoilOut_hd (s : State) (first count : Nat) : (s.spoilOut first count).hd = s.hd := rfl
@[simp] theorem State.spoilOut_cw (s : State) (first count : Nat) : (s.spoilOut first count).cw = s.cw := rfl
@[simp] theorem State.spoilOut_ht (s : State) (first count : Nat) : (s.spoilOut first count).ht = s.ht := rfl
@[simp] theorem State.spoilOut_lzw (s : State) (first count : Nat) : (s.spoilOut first count).lzw = s.lzw := rfl
@[simp] theorem State.spoilOut_latch (s : State) (first count : Nat) : (s.spoilOut first count).latch = s.latch := rfl
@[simp] theorem State.spoilOut_agenda (s : State) (first count : Nat) : (s.spoilOut first count).agenda = s.agenda := rfl
@[simp] theorem State.spoilOut_readLog (s : State) (first count : Nat) : (s.spoilOut first count).readLog = s.readLog := rfl
@[simp] theorem State.spoilOut_draws (s : State) (first count : Nat) : (s.spoilOut first count).draws = s.draws + count := rfl

/-! ### withWriter -/

@[simp] theorem State.withWriter_params (s : State) (w : Writer) : (s.withWriter w).params = s.params := rfl
@[simp] theorem State.withWriter_irqEn (s : State) (w : Writer) : (s.withWriter w).irqEn = s.irqEn := rfl
@[simp] theorem State.withWriter_done (s : State) (w : Writer) : (s.withWriter w).done = s.done := rfl
@[simp] theorem State.withWriter_err (s : State) (w : Writer) : (s.withWriter w).err = s.err := rfl
@[simp] theorem State.withWriter_violation (s : State) (w : Writer) : (s.withWriter w).violation = s.violation := rfl
@[simp] theorem State.withWriter_cmd (s : State) (w : Writer) : (s.withWriter w).cmd = s.cmd := rfl
@[simp] theorem State.withWriter_arg0 (s : State) (w : Writer) : (s.withWriter w).arg0 = s.arg0 := rfl
@[simp] theorem State.withWriter_arg1 (s : State) (w : Writer) : (s.withWriter w).arg1 = s.arg1 := rfl
@[simp] theorem State.withWriter_result0 (s : State) (w : Writer) : (s.withWriter w).result0 = s.result0 := rfl
@[simp] theorem State.withWriter_result1 (s : State) (w : Writer) : (s.withWriter w).result1 = s.result1 := rfl
@[simp] theorem State.withWriter_result2 (s : State) (w : Writer) : (s.withWriter w).result2 = s.result2 := rfl
@[simp] theorem State.withWriter_inLen (s : State) (w : Writer) : (s.withWriter w).inLen = s.inLen := rfl
@[simp] theorem State.withWriter_outLen (s : State) (w : Writer) : (s.withWriter w).outLen = BitVec.ofNat 32 w.len := rfl
@[simp] theorem State.withWriter_inBuf (s : State) (w : Writer) : (s.withWriter w).inBuf = s.inBuf := rfl
@[simp] theorem State.withWriter_outBuf (s : State) (w : Writer) : (s.withWriter w).outBuf = Memory.store s.outBuf s.outLen.toNat w.out.reverse := rfl
@[simp] theorem State.withWriter_bs (s : State) (w : Writer) : (s.withWriter w).bs = { s.bs with acc := w.acc, nacc := w.nacc } := rfl
@[simp] theorem State.withWriter_pq (s : State) (w : Writer) : (s.withWriter w).pq = s.pq := rfl
@[simp] theorem State.withWriter_hd (s : State) (w : Writer) : (s.withWriter w).hd = s.hd := rfl
@[simp] theorem State.withWriter_cw (s : State) (w : Writer) : (s.withWriter w).cw = s.cw := rfl
@[simp] theorem State.withWriter_ht (s : State) (w : Writer) : (s.withWriter w).ht = s.ht := rfl
@[simp] theorem State.withWriter_lzw (s : State) (w : Writer) : (s.withWriter w).lzw = s.lzw := rfl
@[simp] theorem State.withWriter_latch (s : State) (w : Writer) : (s.withWriter w).latch = s.latch := rfl
@[simp] theorem State.withWriter_agenda (s : State) (w : Writer) : (s.withWriter w).agenda = s.agenda := rfl
@[simp] theorem State.withWriter_readLog (s : State) (w : Writer) : (s.withWriter w).readLog = s.readLog := rfl
@[simp] theorem State.withWriter_draws (s : State) (w : Writer) : (s.withWriter w).draws = s.draws := rfl

/-! ### deliver -/

@[simp] theorem State.deliver_params (s : State) (v : Word) : (s.deliver v).params = s.params := rfl
@[simp] theorem State.deliver_irqEn (s : State) (v : Word) : (s.deliver v).irqEn = s.irqEn := rfl
@[simp] theorem State.deliver_done (s : State) (v : Word) : (s.deliver v).done = s.done := rfl
@[simp] theorem State.deliver_err (s : State) (v : Word) : (s.deliver v).err = s.err := rfl
@[simp] theorem State.deliver_violation (s : State) (v : Word) : (s.deliver v).violation = s.violation := rfl
@[simp] theorem State.deliver_cmd (s : State) (v : Word) : (s.deliver v).cmd = s.cmd := rfl
@[simp] theorem State.deliver_arg0 (s : State) (v : Word) : (s.deliver v).arg0 = s.arg0 := rfl
@[simp] theorem State.deliver_arg1 (s : State) (v : Word) : (s.deliver v).arg1 = s.arg1 := rfl
@[simp] theorem State.deliver_result0 (s : State) (v : Word) : (s.deliver v).result0 = s.result0 := rfl
@[simp] theorem State.deliver_result1 (s : State) (v : Word) : (s.deliver v).result1 = s.result1 := rfl
@[simp] theorem State.deliver_result2 (s : State) (v : Word) : (s.deliver v).result2 = s.result2 := rfl
@[simp] theorem State.deliver_inLen (s : State) (v : Word) : (s.deliver v).inLen = s.inLen := rfl
@[simp] theorem State.deliver_outLen (s : State) (v : Word) : (s.deliver v).outLen = s.outLen := rfl
@[simp] theorem State.deliver_inBuf (s : State) (v : Word) : (s.deliver v).inBuf = s.inBuf := rfl
@[simp] theorem State.deliver_outBuf (s : State) (v : Word) : (s.deliver v).outBuf = s.outBuf := rfl
@[simp] theorem State.deliver_bs (s : State) (v : Word) : (s.deliver v).bs = s.bs := rfl
@[simp] theorem State.deliver_pq (s : State) (v : Word) : (s.deliver v).pq = s.pq := rfl
@[simp] theorem State.deliver_hd (s : State) (v : Word) : (s.deliver v).hd = s.hd := rfl
@[simp] theorem State.deliver_cw (s : State) (v : Word) : (s.deliver v).cw = s.cw := rfl
@[simp] theorem State.deliver_ht (s : State) (v : Word) : (s.deliver v).ht = s.ht := rfl
@[simp] theorem State.deliver_lzw (s : State) (v : Word) : (s.deliver v).lzw = s.lzw := rfl
@[simp] theorem State.deliver_latch (s : State) (v : Word) : (s.deliver v).latch = s.latch := rfl
@[simp] theorem State.deliver_agenda (s : State) (v : Word) : (s.deliver v).agenda = s.agenda := rfl
@[simp] theorem State.deliver_readLog (s : State) (v : Word) : (s.deliver v).readLog = v :: s.readLog := rfl
@[simp] theorem State.deliver_draws (s : State) (v : Word) : (s.deliver v).draws = s.draws := rfl

/-! ### violate -/

@[simp] theorem State.violate_params (s : State) : s.violate.params = s.params := rfl
@[simp] theorem State.violate_irqEn (s : State) : s.violate.irqEn = s.irqEn := rfl
@[simp] theorem State.violate_done (s : State) : s.violate.done = s.done := rfl
@[simp] theorem State.violate_err (s : State) : s.violate.err = s.err := rfl
@[simp] theorem State.violate_violation (s : State) : s.violate.violation = true := rfl
@[simp] theorem State.violate_cmd (s : State) : s.violate.cmd = s.cmd := rfl
@[simp] theorem State.violate_arg0 (s : State) : s.violate.arg0 = s.arg0 := rfl
@[simp] theorem State.violate_arg1 (s : State) : s.violate.arg1 = s.arg1 := rfl
@[simp] theorem State.violate_result0 (s : State) : s.violate.result0 = s.result0 := rfl
@[simp] theorem State.violate_result1 (s : State) : s.violate.result1 = s.result1 := rfl
@[simp] theorem State.violate_result2 (s : State) : s.violate.result2 = s.result2 := rfl
@[simp] theorem State.violate_inLen (s : State) : s.violate.inLen = s.inLen := rfl
@[simp] theorem State.violate_outLen (s : State) : s.violate.outLen = s.outLen := rfl
@[simp] theorem State.violate_inBuf (s : State) : s.violate.inBuf = s.inBuf := rfl
@[simp] theorem State.violate_outBuf (s : State) : s.violate.outBuf = s.outBuf := rfl
@[simp] theorem State.violate_bs (s : State) : s.violate.bs = s.bs := rfl
@[simp] theorem State.violate_pq (s : State) : s.violate.pq = s.pq := rfl
@[simp] theorem State.violate_hd (s : State) : s.violate.hd = s.hd := rfl
@[simp] theorem State.violate_cw (s : State) : s.violate.cw = s.cw := rfl
@[simp] theorem State.violate_ht (s : State) : s.violate.ht = s.ht := rfl
@[simp] theorem State.violate_lzw (s : State) : s.violate.lzw = s.lzw := rfl
@[simp] theorem State.violate_latch (s : State) : s.violate.latch = s.latch := rfl
@[simp] theorem State.violate_agenda (s : State) : s.violate.agenda = s.agenda := rfl
@[simp] theorem State.violate_readLog (s : State) : s.violate.readLog = s.readLog := rfl
@[simp] theorem State.violate_draws (s : State) : s.violate.draws = s.draws := rfl

/-! ### powerOn -/

@[simp] theorem State.powerOn_params (p : Config.Params) : (State.powerOn p).params = p := rfl
@[simp] theorem State.powerOn_irqEn (p : Config.Params) : (State.powerOn p).irqEn = false := rfl
@[simp] theorem State.powerOn_done (p : Config.Params) : (State.powerOn p).done = false := rfl
@[simp] theorem State.powerOn_err (p : Config.Params) : (State.powerOn p).err = none := rfl
@[simp] theorem State.powerOn_violation (p : Config.Params) : (State.powerOn p).violation = false := rfl
@[simp] theorem State.powerOn_cmd (p : Config.Params) : (State.powerOn p).cmd = 0 := rfl
@[simp] theorem State.powerOn_arg0 (p : Config.Params) : (State.powerOn p).arg0 = 0 := rfl
@[simp] theorem State.powerOn_arg1 (p : Config.Params) : (State.powerOn p).arg1 = 0 := rfl
@[simp] theorem State.powerOn_result0 (p : Config.Params) : (State.powerOn p).result0 = 0 := rfl
@[simp] theorem State.powerOn_result1 (p : Config.Params) : (State.powerOn p).result1 = 0 := rfl
@[simp] theorem State.powerOn_result2 (p : Config.Params) : (State.powerOn p).result2 = 0 := rfl
@[simp] theorem State.powerOn_inLen (p : Config.Params) : (State.powerOn p).inLen = 0 := rfl
@[simp] theorem State.powerOn_outLen (p : Config.Params) : (State.powerOn p).outLen = 0 := rfl
@[simp] theorem State.powerOn_inBuf (p : Config.Params) : (State.powerOn p).inBuf = [] := rfl
@[simp] theorem State.powerOn_outBuf (p : Config.Params) : (State.powerOn p).outBuf = [] := rfl
@[simp] theorem State.powerOn_bs (p : Config.Params) : (State.powerOn p).bs = Shifter.cleared := rfl
@[simp] theorem State.powerOn_pq (p : Config.Params) : (State.powerOn p).pq = [] := rfl
@[simp] theorem State.powerOn_hd (p : Config.Params) : (State.powerOn p).hd = [] := rfl
@[simp] theorem State.powerOn_cw (p : Config.Params) : (State.powerOn p).cw = { buf := [], head := 0, cursor := 0 } := rfl
@[simp] theorem State.powerOn_ht (p : Config.Params) : (State.powerOn p).ht = Tree.cleared := rfl
@[simp] theorem State.powerOn_lzw (p : Config.Params) : (State.powerOn p).lzw = [] := rfl
@[simp] theorem State.powerOn_latch (p : Config.Params) : (State.powerOn p).latch = none := rfl
@[simp] theorem State.powerOn_agenda (p : Config.Params) : (State.powerOn p).agenda = [] := rfl
@[simp] theorem State.powerOn_readLog (p : Config.Params) : (State.powerOn p).readLog = [] := rfl
@[simp] theorem State.powerOn_draws (p : Config.Params) : (State.powerOn p).draws = 0 := rfl

/-! ### softReset: power-on state but for the parameters, the buffers and the model's own fields -/

@[simp] theorem State.softReset_params (s : State) : s.softReset.params = s.params := rfl
@[simp] theorem State.softReset_irqEn (s : State) : s.softReset.irqEn = false := rfl
@[simp] theorem State.softReset_done (s : State) : s.softReset.done = false := rfl
@[simp] theorem State.softReset_err (s : State) : s.softReset.err = none := rfl
@[simp] theorem State.softReset_violation (s : State) : s.softReset.violation = false := rfl
@[simp] theorem State.softReset_cmd (s : State) : s.softReset.cmd = 0 := rfl
@[simp] theorem State.softReset_arg0 (s : State) : s.softReset.arg0 = 0 := rfl
@[simp] theorem State.softReset_arg1 (s : State) : s.softReset.arg1 = 0 := rfl
@[simp] theorem State.softReset_result0 (s : State) : s.softReset.result0 = 0 := rfl
@[simp] theorem State.softReset_result1 (s : State) : s.softReset.result1 = 0 := rfl
@[simp] theorem State.softReset_result2 (s : State) : s.softReset.result2 = 0 := rfl
@[simp] theorem State.softReset_inLen (s : State) : s.softReset.inLen = 0 := rfl
@[simp] theorem State.softReset_outLen (s : State) : s.softReset.outLen = 0 := rfl
@[simp] theorem State.softReset_inBuf (s : State) : s.softReset.inBuf = s.abandon.inBuf := rfl
@[simp] theorem State.softReset_outBuf (s : State) : s.softReset.outBuf = s.abandon.outBuf := rfl
@[simp] theorem State.softReset_bs (s : State) : s.softReset.bs = Shifter.cleared := rfl
@[simp] theorem State.softReset_pq (s : State) : s.softReset.pq = [] := rfl
@[simp] theorem State.softReset_hd (s : State) : s.softReset.hd = [] := rfl
@[simp] theorem State.softReset_cw (s : State) : s.softReset.cw = { buf := [], head := 0, cursor := 0 } := rfl
@[simp] theorem State.softReset_ht (s : State) : s.softReset.ht = Tree.cleared := rfl
@[simp] theorem State.softReset_lzw (s : State) : s.softReset.lzw = [] := rfl
@[simp] theorem State.softReset_latch (s : State) : s.softReset.latch = none := rfl
@[simp] theorem State.softReset_agenda (s : State) : s.softReset.agenda = s.abandon.agenda := rfl
@[simp] theorem State.softReset_readLog (s : State) : s.softReset.readLog = s.abandon.readLog := rfl
@[simp] theorem State.softReset_draws (s : State) : s.softReset.draws = s.abandon.draws := rfl

/-! ### views that an update does not touch -/

@[simp] theorem State.complete_busy (s : State) (r : Results) : (s.complete r).busy = false := rfl
@[simp] theorem State.raise_busy (s : State) (e : Err) : (s.raise e).busy = false := rfl
@[simp] theorem State.accept_busy (s : State) : s.accept.busy = true := rfl
@[simp] theorem State.softReset_busy (s : State) : s.softReset.busy = false := rfl
@[simp] theorem State.complete_inByte (s : State) (r : Results) (a : Nat) : (s.complete r).inByte a = s.inByte a := rfl
@[simp] theorem State.raise_inByte (s : State) (e : Err) (a : Nat) : (s.raise e).inByte a = s.inByte a := rfl
@[simp] theorem State.complete_outByte (s : State) (r : Results) (a : Nat) : (s.complete r).outByte a = s.outByte a := rfl
@[simp] theorem State.raise_outByte (s : State) (e : Err) (a : Nat) : (s.raise e).outByte a = s.outByte a := rfl
@[simp] theorem State.clearUnits_inByte (s : State) (a : Nat) : s.clearUnits.inByte a = s.inByte a := rfl
@[simp] theorem State.clearUnits_outByte (s : State) (a : Nat) : s.clearUnits.outByte a = s.outByte a := rfl
@[simp] theorem State.accept_operands (s : State) : s.accept.operands = s.latchNow := rfl

/-- The operands of a latched command are the latched ones. -/
theorem State.operands_of_latch {s : State} {l : Latch} (h : s.latch = some l) : s.operands = l := by
  simp [State.operands, h]

/-- Where no command is latched the operands are the registers. -/
theorem State.operands_of_idle {s : State} (h : s.latch = none) : s.operands = s.latchNow := by
  simp [State.operands, h]

/-- BUSY is 1 exactly when a command is latched. -/
theorem State.busy_iff {s : State} : s.busy = true ↔ ∃ l, s.latch = some l := Option.isSome_iff_exists

/-- BUSY is 0 exactly when no command is latched. -/
theorem State.not_busy_iff {s : State} : s.busy = false ↔ s.latch = none := by
  simp [State.busy]

/-- `abandon` touches OUT_BUF and the count of free values only. -/
theorem State.abandon_spoils (s : State) : s.abandon = s ∨ ∃ first count, s.abandon = s.spoilOut first count := by
  unfold State.abandon
  split
  · split
    · exact .inr ⟨_, _, rfl⟩
    · exact .inl rfl
  · exact .inl rfl

/-- An idle block abandons nothing. -/
@[simp] theorem State.abandon_idle {s : State} (h : s.busy = false) : s.abandon = s := by
  simp [State.abandon, h]

@[simp] theorem State.abandon_inBuf (s : State) : s.abandon.inBuf = s.inBuf := by
  rcases s.abandon_spoils with h | ⟨a, b, h⟩ <;> simp [h]

@[simp] theorem State.abandon_agenda (s : State) : s.abandon.agenda = s.agenda := by
  rcases s.abandon_spoils with h | ⟨a, b, h⟩ <;> simp [h]

@[simp] theorem State.abandon_readLog (s : State) : s.abandon.readLog = s.readLog := by
  rcases s.abandon_spoils with h | ⟨a, b, h⟩ <;> simp [h]

end Sys2Proof.Machine
end

