-- ==== Sys2Proof/Laws/Ops.lean ====
section
/-! SUPPORT. What the shared operations do: sparse data and buffers (reads after writes, the canonical form kept), completions,
checks, and what one step can be. -/

namespace Sys2Proof.Machine

/-! ### The constants, as numbers -/

@[simp] theorem lzssHistoryCap_eq : Config.lzssHistoryCap = 4095 := rfl
@[simp] theorem lzssLookaheadCap_eq : Config.lzssLookaheadCap = 18 := rfl
@[simp] theorem lzssMinMatch_eq : Config.lzssMinMatch = 3 := rfl
@[simp] theorem lzssMaxMatch_eq : Config.lzssMaxMatch = 18 := rfl
@[simp] theorem lzssOffsetBits_eq : Config.lzssOffsetBits = 12 := rfl
@[simp] theorem lzssLengthBits_eq : Config.lzssLengthBits = 4 := rfl
@[simp] theorem lzwDictCap_eq : Config.lzwDictCap = 65536 := rfl
@[simp] theorem lzwFirstFree_eq : Config.lzwFirstFree = 257 := rfl
@[simp] theorem lzwEof_eq : Config.lzwEof = 256 := rfl
@[simp] theorem lzwMinWidth_eq : Config.lzwMinWidth = 9 := rfl
@[simp] theorem hufMaxNodes_eq : Config.hufMaxNodes = 513 := rfl
@[simp] theorem pqCap_eq : Config.pqCap = 257 := rfl
@[simp] theorem hdCap_eq : Config.hdCap = 4095 := rfl
@[simp] theorem hdBuckets_eq : Config.hdBuckets = 4096 := rfl
@[simp] theorem hdHashMul_eq : Config.hdHashMul = 31 := rfl
@[simp] theorem cwCap_eq : Config.cwCap = 4113 := rfl
@[simp] theorem cwTopPosition_eq : Config.cwTopPosition = 4294967295 := rfl
@[simp] theorem regSpaceBytes_eq : Config.regSpaceBytes = 4096 := rfl

/-! ### Sparse data -/

section Sparse

variable {α : Type}

@[simp] theorem Sparse.get_nil (a : Nat) : Sparse.get ([] : Sparse α) a = none := rfl

/-- A read after a write to the same key gives the value written. -/
@[simp] theorem Sparse.get_put_self (m : Sparse α) (a : Nat) (v : α) : Sparse.get (Sparse.put m a v) a = some v := by
  induction m with
  | nil => simp [Sparse.put, Sparse.get]
  | cons x rest ih =>
    obtain ⟨k, w⟩ := x
    simp only [Sparse.put]
    split
    · simp [Sparse.get]
    · split
      · simp [Sparse.get]
      · rename_i _ h
        simp [Sparse.get, Ne.symm h, ih]

/-- A write leaves every other key alone. -/
theorem Sparse.get_put_ne (m : Sparse α) {a b : Nat} (v : α) (h : b ≠ a) :
    Sparse.get (Sparse.put m a v) b = Sparse.get m b := by
  induction m with
  | nil => simp [Sparse.put, Sparse.get, Ne.symm h]
  | cons x rest ih =>
    obtain ⟨k, w⟩ := x
    simp only [Sparse.put]
    split
    · simp [Sparse.get, Ne.symm h]
    · split
      · subst_vars; simp [Sparse.get, Ne.symm h]
      · simp [Sparse.get, ih]

/-- Both cases of a read after a write. -/
theorem Sparse.get_put (m : Sparse α) (a b : Nat) (v : α) :
    Sparse.get (Sparse.put m a v) b = if b = a then some v else Sparse.get m b := by
  split
  · subst_vars; simp
  · exact Sparse.get_put_ne m v ‹_›

/-- What a write lists: the new entry and nothing that was not listed. -/
theorem Sparse.mem_put {m : Sparse α} {a : Nat} {v : α} {x : Nat × α} (h : x ∈ Sparse.put m a v) :
    x = (a, v) ∨ x ∈ m := by
  induction m with
  | nil => simpa [Sparse.put] using h
  | cons y rest ih =>
    obtain ⟨k, w⟩ := y
    simp only [Sparse.put] at h
    split at h
    · simpa using h
    · split at h
      · simp only [List.mem_cons] at h ⊢; tauto
      · simp only [List.mem_cons] at h ⊢
        rcases h with h | h
        · exact .inr (.inl h)
        · rcases ih h with h | h <;> tauto

/-- A write keeps the canonical form. -/
theorem Sparse.put_wf {m : Sparse α} (h : Sparse.wf m) (a : Nat) (v : α) : Sparse.wf (Sparse.put m a v) := by
  induction m with
  | nil => simp [Sparse.put, Sparse.wf]
  | cons y rest ih =>
    obtain ⟨k, w⟩ := y
    obtain ⟨hk, hr⟩ := List.pairwise_cons.1 h
    simp only [Sparse.put]
    split
    · rename_i hak
      refine List.pairwise_cons.2 ⟨fun z hz => ?_, h⟩
      rcases List.mem_cons.1 hz with rfl | hz
      · exact hak
      · exact Nat.lt_trans hak (hk z hz)
    · split
      · subst_vars; exact List.pairwise_cons.2 ⟨hk, hr⟩
      · refine List.pairwise_cons.2 ⟨fun z hz => ?_, ih hr⟩
        rcases Sparse.mem_put hz with rfl | hz
        · dsimp; omega
        · exact hk z hz

/-- What a removal lists was listed. -/
theorem Sparse.mem_del {m : Sparse α} {a : Nat} {x : Nat × α} (h : x ∈ Sparse.del m a) : x ∈ m := by
  induction m with
  | nil => simp [Sparse.del] at h
  | cons y rest ih =>
    obtain ⟨k, w⟩ := y
    simp only [Sparse.del] at h
    split at h
    · exact List.mem_cons_of_mem _ h
    · rcases List.mem_cons.1 h with rfl | h
      · exact List.mem_cons_self
      · exact List.mem_cons_of_mem _ (ih h)

/-- A removal keeps the canonical form. -/
theorem Sparse.del_wf {m : Sparse α} (h : Sparse.wf m) (a : Nat) : Sparse.wf (Sparse.del m a) := by
  induction m with
  | nil => simp [Sparse.del, Sparse.wf]
  | cons y rest ih =>
    obtain ⟨k, w⟩ := y
    obtain ⟨hk, hr⟩ := List.pairwise_cons.1 h
    simp only [Sparse.del]
    split
    · exact hr
    · exact List.pairwise_cons.2 ⟨fun z hz => hk z (Sparse.mem_del hz), ih hr⟩

/-- Nothing is listed below the least key of canonical data. -/
theorem Sparse.get_of_lt {m : Sparse α} {a : Nat} (h : ∀ x ∈ m, a < x.1) : Sparse.get m a = none := by
  induction m with
  | nil => rfl
  | cons y rest ih =>
    obtain ⟨k, w⟩ := y
    have hk : a < k := h (k, w) List.mem_cons_self
    simp only [Sparse.get]
    rw [if_neg (by omega), ih (fun x hx => h x (List.mem_cons_of_mem _ hx))]

/-- A read after a removal, on canonical data. -/
theorem Sparse.get_del {m : Sparse α} (h : Sparse.wf m) (a b : Nat) :
    Sparse.get (Sparse.del m a) b = if b = a then none else Sparse.get m b := by
  induction m with
  | nil => simp [Sparse.del]
  | cons y rest ih =>
    obtain ⟨k, w⟩ := y
    obtain ⟨hk, hr⟩ := List.pairwise_cons.1 h
    simp only [Sparse.del]
    split
    · subst_vars
      split
      · subst_vars; exact Sparse.get_of_lt hk
      · rename_i hb; simp [Sparse.get, Ne.symm hb]
    · rename_i hka
      simp only [Sparse.get, ih hr]
      split_ifs <;> simp_all

/-- A read finds a listed entry. -/
theorem Sparse.mem_of_get {m : Sparse α} {a : Nat} {v : α} (h : Sparse.get m a = some v) : (a, v) ∈ m := by
  induction m with
  | nil => simp at h
  | cons y rest ih =>
    obtain ⟨k, w⟩ := y
    simp only [Sparse.get] at h
    split at h
    · simp_all
    · exact List.mem_cons_of_mem _ (ih h)

/-- A listed entry of canonical data is what a read finds. -/
theorem Sparse.get_of_mem {m : Sparse α} (h : Sparse.wf m) {a : Nat} {v : α} (hm : (a, v) ∈ m) : Sparse.get m a = some v := by
  induction m with
  | nil => simp at hm
  | cons y rest ih =>
    obtain ⟨k, w⟩ := y
    obtain ⟨hk, hr⟩ := List.pairwise_cons.1 h
    rcases List.mem_cons.1 hm with he | hm
    · cases he; simp [Sparse.get]
    · have := hk (a, v) hm
      simp only [Sparse.get]
      rw [if_neg (by simp at this; omega)]
      exact ih hr hm

end Sparse

/-! ### Buffers -/

/-- A store of bytes: what every address holds afterwards. -/
theorem Memory.get_store (bytes : List Byte) (m : Memory) (a b : Nat) :
    Sparse.get (Memory.store m a bytes) b =
      if a ≤ b ∧ b < a + bytes.length then bytes[b - a]? else Sparse.get m b := by
  induction bytes generalizing m a with
  | nil => simp [Memory.store]
  | cons x rest ih =>
    simp only [Memory.store, ih, List.length_cons]
    by_cases hba : b = a
    · subst hba; simp
    · rw [Sparse.get_put_ne _ _ hba]
      by_cases h : a + 1 ≤ b ∧ b < a + 1 + rest.length
      · rw [if_pos h, if_pos (by omega)]
        obtain ⟨k, rfl⟩ : ∃ k, b = a + 1 + k := ⟨b - (a + 1), by omega⟩
        rw [show a + 1 + k - a = k + 1 by omega, show a + 1 + k - (a + 1) = k by omega]
        simp
      · rw [if_neg h, if_neg (by omega)]

/-- A store keeps the canonical form. -/
theorem Memory.store_wf {m : Memory} (h : Memory.wf m) (a : Nat) (bytes : List Byte) : Memory.wf (Memory.store m a bytes) := by
  induction bytes generalizing m a with
  | nil => exact h
  | cons x rest ih => exact ih (Sparse.put_wf h a x) (a + 1)

/-- A store lists its own addresses and what was listed. -/
theorem Memory.mem_store {bytes : List Byte} {m : Memory} {a : Nat} {c : Host.Cell} (h : c ∈ Memory.store m a bytes) :
    (a ≤ c.1 ∧ c.1 < a + bytes.length) ∨ c ∈ m := by
  induction bytes generalizing m a with
  | nil => exact .inr h
  | cons x rest ih =>
    rcases ih h with h | h
    · left; simp; omega
    · rcases Sparse.mem_put h with rfl | h
      · left; simp
      · exact .inr h

@[simp] theorem freeBytes_length (first count : Nat) : (freeBytes first count).length = count := by
  induction count generalizing first with
  | zero => rfl
  | succ n ih => simp [freeBytes, ih]

@[simp] theorem State.inBytes_length (s : State) (n : Nat) : (s.inBytes n).length = n := by simp [State.inBytes]

/-- What a command reads depends on the bytes below the length only. -/
theorem State.inBytes_congr {s s' : State} {n : Nat} (h : ∀ a, a < n → s.inByte a = s'.inByte a) :
    s.inBytes n = s'.inBytes n := by
  simp only [State.inBytes]
  exact List.map_congr_left (fun a ha => h a (List.mem_range.1 ha))

/-- OUT after a store of bytes. -/
theorem State.outByte_store (s : State) (m : Memory) (a b : Nat) (bytes : List Byte) (h : s.outBuf = Memory.store m a bytes) :
    s.outByte b = if a ≤ b ∧ b < a + bytes.length then bytes.getD (b - a) 0
      else (Sparse.get m b).getD (Config.outPowerOn b) := by
  simp only [State.outByte, h, Memory.get_store]
  split
  · rename_i hb
    have : b - a < bytes.length := by omega
    simp [List.getElem?_eq_getElem this]
  · rfl

/-- Bytes that become unspecified leave every byte outside them (R335, R372). -/
theorem State.outByte_spoilOut {s : State} {first count b : Nat} (h : b < first ∨ first + count ≤ b) :
    (s.spoilOut first count).outByte b = s.outByte b := by
  simp only [State.outByte, State.spoilOut_outBuf, Memory.get_store, freeBytes_length]
  rw [if_neg (by omega)]

/-! ### Completion -/

/-- A primitive command ends by completing with its results or by raising its error. -/
theorem settle_next {s t : State} {run : Except Err (Results × State)} (h : settle s run = .next t) :
    (∃ r u, run = .ok (r, u) ∧ t = u.complete r) ∨ ∃ e, run = .error e ∧ t = s.raise e := by
  cases run with
  | ok x => obtain ⟨r, u⟩ := x; exact .inl ⟨r, u, rfl, by simpa [settle] using h.symm⟩
  | error e => exact .inr ⟨e, rfl, by simpa [settle] using h.symm⟩

/-- A codec command ends with its output stored, or with the bytes it wrote unspecified. -/
theorem settleCodec_next {s t : State} {run : Except CodecRaise CodecDone} (h : settleCodec s run = .next t) :
    (∃ d, run = .ok d ∧ t = State.complete
      { s.clearUnits with outBuf := Memory.store s.outBuf 0 d.out, outLen := BitVec.ofNat 32 d.out.length }
      { r0 := BitVec.ofNat 32 d.out.length, r1 := BitVec.ofNat 32 d.r1, r2 := BitVec.ofNat 32 d.r2 }) ∨
    ∃ e, run = .error e ∧ t = State.raise { (s.clearUnits.spoilOut 0 e.written) with outLen := 0 } e.err := by
  cases run with
  | ok d => exact .inl ⟨d, rfl, by simpa [settleCodec] using h.symm⟩
  | error e => exact .inr ⟨e, rfl, by simpa [settleCodec] using h.symm⟩

@[simp] theorem settle_ok (s u : State) (r : Results) : settle s (.ok (r, u)) = .next (u.complete r) := rfl

@[simp] theorem settle_error (s : State) (e : Err) : settle s (.error e) = .next (s.raise e) := rfl

/-- `settle` is always a next state. -/
theorem settle_isNext (s : State) (run : Except Err (Results × State)) : ∃ t, settle s run = .next t := ⟨_, rfl⟩

/-- `settleCodec` is always a next state. -/
theorem settleCodec_isNext (s : State) (run : Except CodecRaise CodecDone) : ∃ t, settleCodec s run = .next t := ⟨_, rfl⟩

/-! ### Checks -/

theorem State.inTooLong_iff (s : State) : s.inTooLong = true ↔ s.params.inCap < s.opLen := by
  simp [State.inTooLong]

@[simp] theorem withInput_of_le {s : State} (h : s.opLen ≤ s.params.inCap) (run : Except Err (Results × State)) :
    withInput s run = run := by
  simp [withInput, State.inTooLong, Nat.not_lt.2 h]

@[simp] theorem withInput_of_lt {s : State} (h : s.params.inCap < s.opLen) (run : Except Err (Results × State)) :
    withInput s run = .error .capacityExceeded := by
  simp [withInput, State.inTooLong, h]

/-- A success behind the input check: the length was legal. -/
theorem withInput_ok {s : State} {run : Except Err (Results × State)} {x : Results × State} (h : withInput s run = .ok x) :
    s.opLen ≤ s.params.inCap ∧ run = .ok x := by
  unfold withInput at h
  split at h
  · simp at h
  · rename_i hl; exact ⟨by simpa [State.inTooLong] using hl, h⟩

@[simp] theorem withInputBytes_of_le {s : State} (h : s.opLen ≤ s.params.inCap) (run : List Byte → Except CodecRaise CodecDone) :
    withInputBytes s run = run (s.inBytes s.opLen) := by
  simp [withInputBytes, State.inTooLong, Nat.not_lt.2 h]

@[simp] theorem withInputBytes_of_lt {s : State} (h : s.params.inCap < s.opLen)
    (run : List Byte → Except CodecRaise CodecDone) :
    withInputBytes s run = .error { err := .capacityExceeded, written := 0 } := by
  simp [withInputBytes, State.inTooLong, h]

@[simp] theorem withLegalImm_true (run : Except Err (Results × State)) : withLegalImm true run = run := rfl

@[simp] theorem withLegalImm_false (run : Except Err (Results × State)) : withLegalImm false run = .error .illegalCommand := rfl

/-- A success behind the immediate check. -/
theorem withLegalImm_ok {legal : Bool} {run : Except Err (Results × State)} {x : Results × State}
    (h : withLegalImm legal run = .ok x) : legal = true ∧ run = .ok x := by
  cases legal <;> simp_all

/-! ### Operands -/

@[simp] theorem byteOperand_eq (w : Word) : byteOperand w = w.setWidth 8 := by
  apply BitVec.eq_of_toNat_eq
  simp [byteOperand]

@[simp] theorem keyOperand_eq (w : Word) : keyOperand w = w.toNat % 2 ^ 24 := by
  simp [keyOperand]

/-! ### What one step is -/

/-- A REG access that goes on had the right width and a place. -/
theorem regAccess_next {off n : Nat} {u t : State} (h : regAccess off n u = .next t) :
    n = 4 ∧ off % 4 = 0 ∧ off < 4096 ∧ t = u := by
  unfold regAccess at h
  split at h
  · split at h <;> simp_all
  · simp at h

/-- An IN or OUT access that goes on had the right width. -/
theorem byteAccess_next {n : Nat} {u t : State} (h : byteAccess n u = .next t) : n = 1 ∧ t = u := by
  unfold byteAccess at h
  split at h <;> simp_all

@[simp] theorem regAccess_legal {off : Nat} (u : State) (h4 : off % 4 = 0) (h : off < 4096) :
    regAccess off 4 u = .next u := by
  simp [regAccess, h4, h]

@[simp] theorem byteAccess_one (u : State) : byteAccess 1 u = .next u := rfl

/-- A host write to OUT changes nothing, or VIOLATION while BUSY = 1 only (R72, R380). -/
theorem State.hostWriteOut_cases (s : State) :
    (s.busy = false ∧ s.hostWriteOut = s) ∨ (s.busy = true ∧ s.hostWriteOut = s.violate) := by
  unfold State.hostWriteOut
  cases s.busy
  · exact .inl ⟨rfl, rfl⟩
  · exact .inr ⟨rfl, rfl⟩

/-- Every kind of step that goes on, with the state it leaves. `u` is the state with the move taken off the agenda. -/
theorem step_cases {s t : State} (h : step s = .next t) :
    ∃ u : State, (∃ rest, u = { s with agenda := rest }) ∧
      ((u.busy = false ∧ t = u) ∨
       (∃ i, u.busy = true ∧ decode u.operands.cmd = .ok i ∧ exec i u = .next t) ∨
       (∃ e, u.busy = true ∧ decode u.operands.cmd = .error e ∧ t = u.raise .illegalCommand) ∨
       (∃ off, t = u.readReg off) ∨ (∃ a, t = u.hostReadIn a) ∨ (∃ a, t = u.hostReadOut a) ∨
       (∃ off v, t = u.hostWriteReg off v) ∨ (∃ a v, t = u.hostWriteIn a v) ∨
       t = u.hostWriteOut) := by
  have engine : ∀ {u : State}, engineTurn u = .next t →
      (u.busy = false ∧ t = u) ∨
      (∃ i, u.busy = true ∧ decode u.operands.cmd = .ok i ∧ exec i u = .next t) ∨
      (∃ e, u.busy = true ∧ decode u.operands.cmd = .error e ∧ t = u.raise .illegalCommand) := by
    intro u hu
    unfold engineTurn at hu
    split at hu
    · unfold engineStep at hu
      split at hu
      · exact .inr (.inl ⟨_, ‹_›, ‹_›, hu⟩)
      · exact .inr (.inr ⟨_, ‹_›, ‹_›, by simpa using hu.symm⟩)
    · rename_i hb
      exact .inl ⟨by simpa using hb, by simpa using hu.symm⟩
  unfold step nextMove at h
  split at h
  · refine ⟨s, ⟨s.agenda, rfl⟩, ?_⟩
    rcases engine h with h | h | h
    · exact .inl h
    · exact .inr (.inl h)
    · exact .inr (.inr (.inl h))
  · rename_i rest _
    refine ⟨{ s with agenda := rest }, ⟨rest, rfl⟩, ?_⟩
    rcases engine h with h | h | h
    · exact .inl h
    · exact .inr (.inl h)
    · exact .inr (.inr (.inl h))
  · rename_i rest _
    refine ⟨{ s with agenda := rest }, ⟨rest, rfl⟩, ?_⟩
    unfold hostAccess at h
    split at h
    · exact .inr (.inr (.inr (.inl ⟨_, (regAccess_next h).2.2.2⟩)))
    · exact .inr (.inr (.inr (.inr (.inl ⟨_, (byteAccess_next h).2⟩))))
    · exact .inr (.inr (.inr (.inr (.inr (.inl ⟨_, (byteAccess_next h).2⟩)))))
    · exact .inr (.inr (.inr (.inr (.inr (.inr (.inl ⟨_, _, (regAccess_next h).2.2.2⟩))))))
    · exact .inr (.inr (.inr (.inr (.inr (.inr (.inr (.inl ⟨_, _, (byteAccess_next h).2⟩)))))))
    · exact .inr (.inr (.inr (.inr (.inr (.inr (.inr (.inr (byteAccess_next h).2)))))))

/-- What a register read at any offset does, as a table (R20, R381). -/
theorem State.readReg_table (s : State) (off : Nat) :
    s.readReg off =
      if s.busy = true ∧ (off = 0x14 ∨ off = 0x18 ∨ off = 0x1C ∨ off = 0x24) then
        { s.deliver (Config.freeWord s.draws) with draws := s.draws + 1 }
      else s.deliver
        (if off = 0x00 then s.ctrlWord else if off = 0x04 then s.statusWord else if off = 0x08 then s.cmd
         else if off = 0x0C then s.arg0 else if off = 0x10 then s.arg1 else if off = 0x14 then s.result0
         else if off = 0x18 then s.result1 else if off = 0x1C then s.result2 else if off = 0x20 then s.inLen
         else if off = 0x24 then s.outLen else if off = 0x28 then BitVec.ofNat 32 s.params.inCap
         else if off = 0x2C then BitVec.ofNat 32 s.params.outCap else if off = 0x30 then s.params.tagHuf
         else if off = 0x34 then s.params.tagLzss else if off = 0x38 then s.params.tagLzw
         else if off = 0x3C then Config.version else 0) := by
  unfold State.readReg State.deliverIdle
  split <;> first
    | (rw [if_neg (by rintro ⟨_, h⟩; revert h; decide)]; rfl)
    | (cases hb : s.busy <;> rfl)
    | simp_all

/-- A register read delivers one value, and counts it if it was a free one. -/
theorem State.readReg_cases (s : State) (off : Nat) :
    (∃ v, s.readReg off = s.deliver v) ∨
      (s.busy = true ∧ s.readReg off = { s.deliver (Config.freeWord s.draws) with draws := s.draws + 1 }) := by
  rw [s.readReg_table off]
  by_cases h : s.busy = true ∧ (off = 0x14 ∨ off = 0x18 ∨ off = 0x1C ∨ off = 0x24)
  · exact .inr ⟨h.1, if_pos h⟩
  · exact .inl ⟨_, if_neg h⟩

/-- A host write to REG: what it can do, BUSY or not. -/
theorem State.hostWriteReg_cases (s : State) (off : Nat) (v : Word) :
    (s.busy = true ∧ s.hostWriteReg off v = s.violate) ∨ s.hostWriteReg off v = s.softReset ∨
    (s.busy = false ∧
      (s.hostWriteReg off v = { s with irqEn := v.getLsbD 1 }.accept ∨ s.hostWriteReg off v = { s with irqEn := v.getLsbD 1 } ∨
       s.hostWriteReg off v = s.acknowledge v ∨ s.hostWriteReg off v = { s with cmd := v } ∨
       s.hostWriteReg off v = { s with arg0 := v } ∨ s.hostWriteReg off v = { s with arg1 := v } ∨
       s.hostWriteReg off v = { s with inLen := v } ∨ s.hostWriteReg off v = s)) := by
  unfold State.hostWriteReg
  split
  · rename_i hb
    split
    · exact .inr (.inl rfl)
    · exact .inl ⟨hb, rfl⟩
  · rename_i hb
    have hb : s.busy = false := by simpa using hb
    unfold State.writeReg
    split
    · unfold State.writeCtrl
      split
      · exact .inr (.inl rfl)
      · split <;> simp [hb]
    all_goals simp [hb]

/-! ### Abandoned commands -/

/-- The model's agenda does not matter to which OUT bytes a command may write. -/
theorem outSpan_agenda (s : State) (rest : List Event) (i : Instr) : outSpan { s with agenda := rest } i = outSpan s i := by
  have write : ∀ n, appendSpan { s with agenda := rest } (bsWrite n { s with agenda := rest }) = appendSpan s (bsWrite n s) := by
    intro n
    have h1 : ({ s with agenda := rest } : State).bitsFit n = s.bitsFit n := rfl
    have h2 : ({ s with agenda := rest } : State).writer = s.writer := rfl
    have h3 : ({ s with agenda := rest } : State).opArg0 = s.opArg0 := rfl
    unfold bsWrite
    rw [h1, h2, h3]
    cases s.bitsFit n
    · rfl
    · dsimp only
      cases writeAll s.params.outCap (bitsOf s.opArg0.toNat n) s.writer <;> rfl
  have flush : appendSpan { s with agenda := rest } (bsFlush { s with agenda := rest }) = appendSpan s (bsFlush s) := by
    have h2 : ({ s with agenda := rest } : State).writer = s.writer := rfl
    unfold bsFlush
    dsimp only
    rw [h2]
    by_cases hf : s.outLen.toNat + (if s.bs.nacc = 0 then 0 else 1) ≤ s.params.outCap
    · rw [if_pos hf, if_pos hf]
      cases finishWriter s.params.outCap s.writer <;> rfl
    · rw [if_neg hf, if_neg hf]
      rfl
  cases i <;> first
    | rfl
    | exact congrArg (Prod.mk _) (write _)
    | exact congrArg (Prod.mk _) flush

/-- A soft reset leaves every OUT byte that the abandoned command may not have written (R372, log 7). -/
theorem State.softReset_outByte {s : State} {i : Instr} (hd : decode s.operands.cmd = .ok i) {a : Nat}
    (h : a < (outSpan s i).1 ∨ (outSpan s i).1 + (outSpan s i).2 ≤ a) : s.softReset.outByte a = s.outByte a := by
  show s.abandon.outByte a = s.outByte a
  unfold State.abandon
  split
  · rw [hd]
    exact State.outByte_spoilOut h
  · rfl

end Sys2Proof.Machine
end

