-- ==== Sys2Proof/Laws/Bitstream.lean ====
section
/-! SUPPORT. Bits and numbers, and what the bit functions of the bitstream_shifter do (40_bitstream.md R141 to R149): one lemma for
each says everything it can do. -/

namespace Sys2Proof.Machine

/-! ### Bits and numbers -/

@[simp] theorem bitsOf_length (v n : Nat) : (bitsOf v n).length = n := by
  induction n with
  | zero => rfl
  | succ n ih => simp [bitsOf, ih]

/-- Bit `j` of the stream form is bit `n - 1 - j` of the number. -/
theorem bitsOf_getElem (v n j : Nat) (h : j < (bitsOf v n).length) : (bitsOf v n)[j] = v.testBit (n - 1 - j) := by
  induction n generalizing j with
  | zero => simp at h
  | succ n ih =>
    cases j with
    | zero => simp [bitsOf]
    | succ j =>
      simp only [bitsOf, List.getElem_cons_succ]
      rw [ih]
      congr 1
      omega

/-- The bits of a number depend on its low bits only. -/
theorem bitsOf_congr {v v' n : Nat} (h : ∀ j, j < n → v.testBit j = v'.testBit j) : bitsOf v n = bitsOf v' n := by
  induction n with
  | zero => rfl
  | succ n ih => simp [bitsOf, h n (by omega), ih (fun j hj => h j (by omega))]

/-- The bits of a number in two parts. -/
theorem bitsOf_add (v m n : Nat) : bitsOf v (m + n) = bitsOf (v / 2 ^ n) m ++ bitsOf v n := by
  induction m with
  | zero => simp [bitsOf]
  | succ m ih =>
    rw [show m + 1 + n = (m + n) + 1 by omega]
    simp [bitsOf, ih, Nat.testBit_div_two_pow]

theorem ofBits_nil : ofBits [] = 0 := rfl

/-- One more bit at the end doubles the number and adds the bit. -/
theorem ofBits_concat (l : List Bool) (b : Bool) : ofBits (l ++ [b]) = 2 * ofBits l + b.toNat := by
  simp [ofBits]

/-- The number of two runs of bits. -/
theorem ofBits_append (l l' : List Bool) : ofBits (l ++ l') = ofBits l * 2 ^ l'.length + ofBits l' := by
  induction l' using List.reverseRecOn with
  | nil => simp [ofBits_nil]
  | append_singleton l' b ih =>
    rw [← List.append_assoc, ofBits_concat, ih, ofBits_concat]
    simp [Nat.pow_succ]
    ring

theorem ofBits_lt (l : List Bool) : ofBits l < 2 ^ l.length := by
  induction l using List.reverseRecOn with
  | nil => simp [ofBits_nil]
  | append_singleton l b ih =>
    rw [ofBits_concat]
    have : b.toNat ≤ 1 := Bool.toNat_le b
    simp [Nat.pow_succ]
    omega

/-- Bit `j` of the number is bit `length - 1 - j` of the run. -/
theorem ofBits_testBit (l : List Bool) (j : Nat) :
    (ofBits l).testBit j = if j < l.length then l.getD (l.length - 1 - j) false else false := by
  induction l using List.reverseRecOn generalizing j with
  | nil => simp [ofBits_nil]
  | append_singleton l b ih =>
    rw [ofBits_concat]
    cases j with
    | zero =>
      have : (2 * ofBits l + b.toNat).testBit 0 = b := by
        cases b <;> simp [Nat.testBit_zero]
      rw [this]
      simp
    | succ j =>
      have hdiv : (2 * ofBits l + b.toNat) / 2 = ofBits l := by
        have : b.toNat ≤ 1 := Bool.toNat_le b
        omega
      rw [Nat.testBit_succ, hdiv, ih]
      simp only [List.length_append, List.length_cons, List.length_nil]
      by_cases h : j < l.length
      · rw [if_pos h, if_pos (by omega)]
        rw [show l.length + (0 + 1) - 1 - (j + 1) = l.length - 1 - j by omega]
        rw [List.getD_append _ _ _ _ (by omega)]
      · rw [if_neg h, if_neg (by omega)]

/-- Reading back the bits of a number gives its low bits. -/
theorem ofBits_bitsOf (v n : Nat) : ofBits (bitsOf v n) = v % 2 ^ n := by
  apply Nat.eq_of_testBit_eq
  intro j
  rw [ofBits_testBit, Nat.testBit_mod_two_pow]
  simp only [bitsOf_length]
  by_cases h : j < n
  · have hlt : n - 1 - j < (bitsOf v n).length := by simp; omega
    rw [if_pos h, List.getD_eq_getElem _ _ hlt, bitsOf_getElem]
    rw [show n - 1 - (n - 1 - j) = j by omega]
    simp [h]
  · simp [h]

/-- The bits of the number of a run are the run. -/
theorem bitsOf_ofBits (l : List Bool) : bitsOf (ofBits l) l.length = l := by
  apply List.ext_getElem (by simp)
  intro j h1 h2
  rw [bitsOf_getElem, ofBits_testBit]
  have : j < l.length := h2
  rw [if_pos (by omega), show l.length - 1 - (l.length - 1 - j) = j by omega, List.getD_eq_getElem _ _ h2]

@[simp] theorem streamBits_nil : streamBits [] = [] := rfl

@[simp] theorem streamBits_cons (b : Byte) (bytes : List Byte) :
    streamBits (b :: bytes) = bitsOf b.toNat 8 ++ streamBits bytes := rfl

@[simp] theorem streamBits_append (l l' : List Byte) : streamBits (l ++ l') = streamBits l ++ streamBits l' := by
  simp [streamBits]

@[simp] theorem streamBits_length (bytes : List Byte) : (streamBits bytes).length = 8 * bytes.length := by
  induction bytes with
  | nil => rfl
  | cons b bytes ih => simp [ih]; omega

/-! ### Reading -/

/-- `takeBits` splits off the first `n` bits, or there are not enough. -/
theorem takeBits_eq (n : Nat) (bits : List Bool) :
    takeBits n bits = if n ≤ bits.length then some (bits.take n, bits.drop n) else none := by
  induction n generalizing bits with
  | zero => simp [takeBits]
  | succ n ih =>
    cases bits with
    | nil => simp [takeBits]
    | cons b bits =>
      simp only [takeBits, ih, List.length_cons]
      by_cases h : n ≤ bits.length
      · simp [h]
      · simp [h]

/-- Taking `n` bits off a run that starts with `n` of them. -/
@[simp] theorem takeBits_append (l rest : List Bool) : takeBits l.length (l ++ rest) = some (l, rest) := by
  simp [takeBits_eq]

/-- The same for the bits of a number. -/
@[simp] theorem takeBits_bitsOf (v n : Nat) (rest : List Bool) :
    takeBits n (bitsOf v n ++ rest) = some (bitsOf v n, rest) := by
  simpa using takeBits_append (bitsOf v n) rest

/-- What `takeBits` takes are the bits it was given. -/
theorem takeBits_some {n : Nat} {bits got rest : List Bool} (h : takeBits n bits = some (got, rest)) :
    bits = got ++ rest ∧ got.length = n := by
  rw [takeBits_eq] at h
  split at h
  · rename_i hn
    simp only [Option.some.injEq, Prod.mk.injEq] at h
    obtain ⟨rfl, rfl⟩ := h
    exact ⟨(List.take_append_drop n bits).symm, by simp [hn]⟩
  · simp at h

/-- The start of a decompress command, whatever the stream. -/
theorem openStream_eq (tag : Word) (bits : List Bool) :
    openStream tag bits =
      if bits.length < 32 then .error { err := .unexpectedEndOfStream, written := 0 }
      else if ofBits (bits.take 32) = tag.toNat then .ok (bits.drop 32)
      else .error { err := .invalidHeader, written := 0 } := by
  unfold openStream
  rw [takeBits_eq]
  by_cases h : bits.length < 32
  · rw [if_neg (by omega), if_pos h]
  · rw [if_pos (by omega), if_neg h]

@[simp] theorem tagBits_length (tag : Word) : (tagBits tag).length = 32 := by simp [tagBits]

/-- A stream that starts with the tag opens. -/
@[simp] theorem openStream_tagBits (tag : Word) (rest : List Bool) : openStream tag (tagBits tag ++ rest) = .ok rest := by
  rw [openStream_eq, if_neg (by simp)]
  have ht : (tagBits tag ++ rest).take 32 = tagBits tag := by
    rw [List.take_append_of_le_length (by simp)]
    exact List.take_of_length_le (by simp)
  have hd : (tagBits tag ++ rest).drop 32 = rest := by
    rw [List.drop_append_of_le_length (by simp), List.drop_of_length_le (by simp)]
    rfl
  rw [ht, hd, if_pos]
  rw [tagBits, ofBits_bitsOf, Nat.mod_eq_of_lt tag.isLt]

/-! ### Writing -/

/-- The bits a writer holds: those of its bytes, then the pending ones. -/
def Writer.bits (w : Writer) : List Bool := streamBits w.out.reverse ++ bitsOf w.acc.toNat w.nacc

/-- A writer with fewer than 8 pending bits, and no others in the partial byte. -/
def Writer.ok (w : Writer) : Prop := w.nacc < 8 ∧ w.acc.toNat < 2 ^ w.nacc

theorem Writer.fresh_ok : Writer.fresh.ok := by simp [Writer.ok, Writer.fresh]

@[simp] theorem Writer.fresh_bits : Writer.fresh.bits = [] := rfl

/-- AppendByte: a full output raises, else the byte is appended (R148). -/
theorem appendByte_eq (cap : Nat) (v : Byte) (w : Writer) :
    appendByte cap v w = if w.len = cap then .error { err := .capacityExceeded, written := w.len }
      else .ok { w with len := w.len + 1, out := v :: w.out } := rfl

/-- What a write appends, below the capacity: `n` is the number of bits. -/
structure Writes (w w' : Writer) (bits : List Bool) : Prop where
  bits_eq : w'.bits = w.bits ++ bits
  ok : w'.ok
  len_eq : w'.len = w.len + (w.nacc + bits.length) / 8
  nacc_eq : w'.nacc = (w.nacc + bits.length) % 8
  out_eq : ∃ added, w'.out = added ++ w.out ∧ added.length = (w.nacc + bits.length) / 8

/-- WriteBit (R145): it raises exactly when it completes a byte that does not fit; else it appends the bit. -/
theorem writeBit_spec (cap : Nat) (b : Bool) (w : Writer) (hw : w.ok) :
    if w.nacc = 7 ∧ w.len = cap then writeBit cap b w = .error { err := .capacityExceeded, written := w.len }
    else ∃ w', writeBit cap b w = .ok w' ∧ Writes w w' [b] := by
  obtain ⟨hn, ha⟩ := hw
  have hacc : ∀ m, w.nacc + 1 ≤ m → m ≤ 8 → w.acc.toNat * 2 + b.toNat < 2 ^ m := by
    intro m h1 h2
    have : 2 ^ (w.nacc + 1) ≤ 2 ^ m := Nat.pow_le_pow_right (by omega) h1
    have hb : b.toNat ≤ 1 := Bool.toNat_le b
    rw [Nat.pow_succ] at this
    omega
  have hnat : (w.acc * 2 + (if b then 1 else 0) : Byte).toNat = w.acc.toNat * 2 + b.toNat := by
    have := hacc 8 (by omega) (by omega)
    cases b <;> simp at this ⊢ <;> omega
  have hbits : ∀ m, bitsOf (w.acc.toNat * 2 + b.toNat) (m + 1) = bitsOf w.acc.toNat m ++ [b] := by
    intro m
    rw [bitsOf_add]
    have hb : b.toNat ≤ 1 := Bool.toNat_le b
    congr 1
    · rw [show (w.acc.toNat * 2 + b.toNat) / 2 ^ 1 = w.acc.toNat by omega]
    · cases b <;> simp [bitsOf]
  unfold writeBit
  by_cases h7 : w.nacc = 7
  · simp only [h7, appendByte_eq]
    by_cases hc : w.len = cap
    · simp [hc]
    · simp only [hc, and_false, if_false, if_true]
      refine ⟨_, rfl, ?_, ?_, ?_, ?_, ?_⟩
      · have := hbits 7
        simp only [Writer.bits, h7, List.reverse_cons, streamBits_append, streamBits_cons, streamBits_nil, hnat]
        have h8 : bitsOf (w.acc.toNat * 2 + b.toNat) 8 = bitsOf w.acc.toNat 7 ++ [b] := this
        rw [h8]
        simp [bitsOf]
      · simp [Writer.ok]
      · simp [h7]
      · simp [h7]
      · exact ⟨[w.acc * 2 + (if b then 1 else 0)], by simp, by simp [h7]⟩
  · rw [if_neg (by simp [h7]), if_neg (by omega)]
    refine ⟨_, rfl, ?_, ?_, ?_, ?_, ?_⟩
    · simp only [Writer.bits, hnat, hbits, List.append_assoc]
    · exact ⟨by show w.nacc + 1 < 8; omega, by
        show (w.acc * 2 + (if b then 1 else 0) : Byte).toNat < 2 ^ (w.nacc + 1)
        rw [hnat]
        exact hacc (w.nacc + 1) (by omega) (by omega)⟩
    · simp; omega
    · simp; omega
    · exact ⟨[], by simp, by simp; omega⟩

/-- Two writes in a row. -/
theorem Writes.trans {w w1 w2 : Writer} {l l' : List Bool} (h : Writes w w1 l) (h' : Writes w1 w2 l') :
    Writes w w2 (l ++ l') := by
  obtain ⟨a, ha, hal⟩ := h.out_eq
  obtain ⟨a', ha', hal'⟩ := h'.out_eq
  have e1 := h.len_eq
  have e2 := h.nacc_eq
  have e3 := h'.len_eq
  have e4 := h'.nacc_eq
  refine ⟨?_, h'.ok, ?_, ?_, a' ++ a, ?_, ?_⟩
  · rw [h'.bits_eq, h.bits_eq, List.append_assoc]
  · rw [e3, e1, e2, List.length_append]; omega
  · rw [e4, e2, List.length_append]; omega
  · rw [ha', ha, List.append_assoc]
  · rw [List.length_append, hal', hal, e2, List.length_append]; omega

/-- Nothing written. -/
theorem Writes.refl {w : Writer} (hw : w.ok) : Writes w w [] :=
  ⟨by simp, hw, by have := hw.1; simp; omega, by have := hw.1; simp; omega, [], by simp, by have := hw.1; simp; omega⟩

/-- WriteBits (R146): the whole run is appended exactly when the bytes it completes fit; else the write raises with the output
full. -/
theorem writeAll_spec (cap : Nat) (bits : List Bool) (w : Writer) (hw : w.ok) (hc : w.len ≤ cap) :
    if w.len + (w.nacc + bits.length) / 8 ≤ cap then ∃ w', writeAll cap bits w = .ok w' ∧ Writes w w' bits
    else writeAll cap bits w = .error { err := .capacityExceeded, written := cap } := by
  induction bits generalizing w with
  | nil =>
    have := hw.1
    rw [if_pos (by simp; omega)]
    exact ⟨w, rfl, Writes.refl hw⟩
  | cons b bits ih =>
    have h1 := writeBit_spec cap b w hw
    have hn := hw.1
    split at h1
    · rename_i hfull
      rw [if_neg (by simp only [List.length_cons]; omega)]
      simp [writeAll, h1, hfull.2]
    · rename_i hfull
      obtain ⟨w1, he, hW⟩ := h1
      have e1 := hW.len_eq
      have e2 := hW.nacc_eq
      simp only [List.length_cons, List.length_nil] at e1 e2
      have h2 := ih w1 hW.ok (by omega)
      simp only [writeAll, he]
      by_cases hfit : w.len + (w.nacc + (b :: bits).length) / 8 ≤ cap
      · rw [if_pos hfit]
        simp only [List.length_cons] at hfit
        rw [if_pos (by omega)] at h2
        obtain ⟨w2, he2, hW2⟩ := h2
        exact ⟨w2, he2, hW.trans hW2⟩
      · rw [if_neg hfit]
        simp only [List.length_cons] at hfit
        rw [if_neg (by omega)] at h2
        exact h2

/-- Finish (R149): with bits pending it appends them padded with zeros, or raises if the output is full. -/
theorem finishWriter_spec (cap : Nat) (w : Writer) (hw : w.ok) :
    if w.nacc = 0 then finishWriter cap w = .ok w
    else if w.len = cap then finishWriter cap w = .error { err := .capacityExceeded, written := w.len }
    else ∃ w', finishWriter cap w = .ok w' ∧ w'.bits = w.bits ++ List.replicate (8 - w.nacc) false ∧
      w'.len = w.len + 1 ∧ w'.nacc = 0 ∧ w'.acc = 0 ∧ ∃ v, w'.out = v :: w.out := by
  obtain ⟨hn, ha⟩ := hw
  unfold finishWriter
  split
  · simp_all
  · rename_i h0
    split
    · simp [appendByte_eq, *]
    · rename_i hc
      simp only [appendByte_eq, hc, if_false]
      refine ⟨_, rfl, ?_, rfl, rfl, rfl, _, rfl⟩
      have hv : (w.acc <<< (8 - w.nacc)).toNat = w.acc.toNat * 2 ^ (8 - w.nacc) := by
        have h2 : w.acc.toNat * 2 ^ (8 - w.nacc) < 2 ^ 8 := by
          calc w.acc.toNat * 2 ^ (8 - w.nacc) < 2 ^ w.nacc * 2 ^ (8 - w.nacc) :=
                Nat.mul_lt_mul_of_pos_right ha (by positivity)
            _ = 2 ^ 8 := by rw [← Nat.pow_add]; congr 1; omega
        rw [BitVec.toNat_shiftLeft, Nat.shiftLeft_eq, Nat.mod_eq_of_lt h2]
      simp only [Writer.bits, List.reverse_cons, streamBits_append, streamBits_cons, streamBits_nil, hv,
        List.append_nil, List.append_assoc]
      rw [show bitsOf (BitVec.toNat (0 : Byte)) 0 = [] from rfl, List.append_nil]
      congr 1
      have hadd := bitsOf_add (w.acc.toNat * 2 ^ (8 - w.nacc)) w.nacc (8 - w.nacc)
      rw [show w.nacc + (8 - w.nacc) = 8 by omega, Nat.mul_div_cancel _ (by positivity)] at hadd
      rw [hadd]
      congr 1
      apply List.ext_getElem (by simp)
      intro j h1 h2
      rw [bitsOf_getElem]
      simp only [bitsOf_length] at h1
      rw [Nat.testBit_mul_two_pow]
      simp
      omega

/-- The bytes of a stream, packed: whole bytes, the last one padded with zeros (R149, R183). -/
theorem packStream_spec (cap : Nat) (bits : List Bool) (r2 : Nat) :
    if (bits.length + 7) / 8 ≤ cap then
      ∃ d, packStream cap bits r2 = .ok d ∧ d.out.length = (bits.length + 7) / 8 ∧ d.r1 = bits.length ∧ d.r2 = r2 ∧
        streamBits d.out = bits ++ List.replicate (8 * d.out.length - bits.length) false
    else packStream cap bits r2 = .error { err := .capacityExceeded, written := cap } := by
  have hw := writeAll_spec cap bits Writer.fresh Writer.fresh_ok (by simp [Writer.fresh])
  have hfl : Writer.fresh.len = 0 := rfl
  have hfn : Writer.fresh.nacc = 0 := rfl
  simp only [hfl, hfn, Nat.zero_add] at hw
  unfold packStream
  by_cases h1 : bits.length / 8 ≤ cap
  · rw [if_pos h1] at hw
    obtain ⟨w, he, hW⟩ := hw
    have e1 := hW.len_eq
    have e2 := hW.nacc_eq
    have e3 := hW.bits_eq
    obtain ⟨added, ho, hol⟩ := hW.out_eq
    simp only [hfl, hfn, Nat.zero_add, Writer.fresh_bits, List.nil_append] at e1 e2 e3 hol
    have ho' : w.out = added := by simpa [Writer.fresh] using ho
    have hf := finishWriter_spec cap w hW.ok
    simp only [he]
    by_cases hz : w.nacc = 0
    · rw [if_pos hz] at hf
      rw [if_pos (by omega), hf]
      refine ⟨_, rfl, ?_, ?_, rfl, ?_⟩
      · simp [ho', hol]; omega
      · simp; omega
      · have : w.bits = streamBits w.out.reverse := by simp [Writer.bits, hz, bitsOf]
        rw [this, ho'] at e3
        simp only [ho', List.length_reverse, hol, e3]
        rw [show 8 * (bits.length / 8) - bits.length = 0 by omega]
        simp
    · rw [if_neg hz] at hf
      by_cases hc : w.len = cap
      · rw [if_pos hc] at hf
        rw [if_neg (by omega), hf]
        simp [hc]
      · rw [if_neg hc] at hf
        obtain ⟨w', he', hb', hl', hn', ha', v, ho2⟩ := hf
        rw [if_pos (by omega), he']
        refine ⟨_, rfl, ?_, ?_, rfl, ?_⟩
        · simp [ho2, ho', hol]; omega
        · simp; omega
        · have : w'.bits = streamBits w'.out.reverse := by simp [Writer.bits, hn', bitsOf]
          simp only [← this, hb', e3]
          congr 2
          simp [ho2, ho', hol]
          omega
  · rw [if_neg h1] at hw
    rw [if_neg (by omega), hw]

/-- The bytes appended to a decoder's output, and where appending stops (R148). -/
theorem appendAll_spec (cap : Nat) (bytes : List Byte) (w : Writer) (hc : w.len ≤ cap) :
    if w.len + bytes.length ≤ cap then
      appendAll cap bytes w = .ok { w with len := w.len + bytes.length, out := bytes.reverse ++ w.out }
    else appendAll cap bytes w = .error { err := .capacityExceeded, written := cap } := by
  induction bytes generalizing w with
  | nil => simp [appendAll, hc]
  | cons b bytes ih =>
    simp only [appendAll, appendByte_eq, List.length_cons]
    by_cases h : w.len = cap
    · rw [if_neg (by omega)]; simp [h]
    · simp only [h, if_false]
      have h2 := ih { w with len := w.len + 1, out := b :: w.out } (by show w.len + 1 ≤ cap; omega)
      simp only at h2
      by_cases h3 : w.len + (bytes.length + 1) ≤ cap
      · rw [if_pos h3]
        rw [if_pos (by omega)] at h2
        rw [h2]
        simp
        omega
      · rw [if_neg h3]
        rw [if_neg (by omega)] at h2
        exact h2

/-! ### The primitive commands' shared operations -/

/-- A read: what it returns and the one thing it changes, or its two errors (R152 to R154). -/
theorem bsRead_cases (n : Nat) (s : State) :
    (s.params.inCap < s.opLen ∧ bsRead n s = .error .capacityExceeded) ∨
    (s.opLen ≤ s.params.inCap ∧ 8 * s.opLen < s.bs.rpos + n ∧ bsRead n s = .error .unexpectedEndOfStream) ∨
    (s.opLen ≤ s.params.inCap ∧ s.bs.rpos + n ≤ 8 * s.opLen ∧
      bsRead n s = .ok
        ({ r0 := BitVec.ofNat 32 (ofBits ((List.range n).map (fun i => s.inBit (s.bs.rpos + i)))),
           r1 := BitVec.ofNat 32 (s.bs.rpos + n) },
          { s with bs := { s.bs with rpos := s.bs.rpos + n } })) := by
  by_cases h : s.opLen ≤ s.params.inCap
  · by_cases h2 : 8 * s.opLen < s.bs.rpos + n
    · simp [bsRead, h, h2, State.readBits]
    · right; right
      simp [bsRead, h, h2, State.readBits, Nat.not_lt.1 h2]
  · left
    have h := Nat.not_le.1 h
    simp [bsRead, h]

/-- A write with a well-formed shifter: it appends exactly when the completed bytes fit (R150, R155 to R157). -/
theorem bsWrite_cases (n : Nat) (s : State) (hw : s.writer.ok) (hc : s.outLen.toNat ≤ s.params.outCap) :
    (s.params.outCap < s.outLen.toNat + (s.bs.nacc + n) / 8 ∧ bsWrite n s = .error .capacityExceeded) ∨
    (s.outLen.toNat + (s.bs.nacc + n) / 8 ≤ s.params.outCap ∧
      ∃ w, Writes s.writer w (bitsOf s.opArg0.toNat n) ∧
        bsWrite n s = .ok ({ r0 := BitVec.ofNat 32 w.len, r1 := BitVec.ofNat 32 w.nacc }, s.withWriter w)) := by
  by_cases h : s.outLen.toNat + (s.bs.nacc + n) / 8 ≤ s.params.outCap
  · right
    have hs := writeAll_spec s.params.outCap (bitsOf s.opArg0.toNat n) s.writer hw hc
    have e1 : s.writer.len = s.outLen.toNat := rfl
    have e2 : s.writer.nacc = s.bs.nacc := rfl
    simp only [e1, e2, bitsOf_length] at hs
    rw [if_pos h] at hs
    obtain ⟨w, he, hW⟩ := hs
    exact ⟨h, w, hW, by simp [bsWrite, State.bitsFit, h, he]⟩
  · left
    exact ⟨Nat.not_le.1 h, by simp [bsWrite, State.bitsFit, h]⟩

/-- A write that goes on, in any state: what it can change. -/
theorem bsWrite_ok {n : Nat} {s u : State} {r : Results} (h : bsWrite n s = .ok (r, u)) :
    ∃ w, u = s.withWriter w := by
  unfold bsWrite at h
  split at h
  · split at h
    · cases h
    · cases h; exact ⟨_, rfl⟩
  · cases h

/-- A finish that goes on, in any state: what it can change. -/
theorem bsFlush_ok {s u : State} {r : Results} (h : bsFlush s = .ok (r, u)) : ∃ w, u = s.withWriter w := by
  unfold bsFlush at h
  by_cases hg : s.outLen.toNat + (if s.bs.nacc = 0 then 0 else 1) ≤ s.params.outCap
  · rw [if_pos hg] at h
    split at h
    · cases h
    · cases h; exact ⟨_, rfl⟩
  · rw [if_neg hg] at h; cases h

end Sys2Proof.Machine
end

