-- ==== Sys2Proof/Laws/Collections.lean ====
section
/-! SUPPORT. The dictionary, the circular window and the LZW dictionary: what each of their functions does (44_collections.md §2 and §3,
43_lzw.md §1). -/

namespace Sys2Proof.Machine

/-! ### chained_hash_dictionary -/

/-- The dictionary in canonical form: keys rising, no empty list. -/
def Dict.wf (d : Dict) : Prop := Sparse.wf d ∧ ∀ e ∈ d, e.2 ≠ []

@[simp] theorem Dict.list_nil (k : Nat) : Dict.list [] k = [] := rfl

/-- The lists after an insertion (R293). -/
theorem Dict.list_insert (d : Dict) (k k' : Nat) (x : Word) :
    Dict.list (Dict.insert d k x) k' = if k' = k then Dict.list d k ++ [x] else Dict.list d k' := by
  unfold Dict.insert
  rw [Dict.list, Sparse.get_put]
  split <;> rfl

/-- The lists after a removal, on canonical data (R294). -/
theorem Dict.list_removeOldest {d : Dict} (h : Sparse.wf d) (k k' : Nat) :
    Dict.list (Dict.removeOldest d k) k' = if k' = k then (Dict.list d k).tail else Dict.list d k' := by
  unfold Dict.removeOldest
  split
  · rename_i hl
    split
    · subst_vars; rw [hl]; rfl
    · rfl
  · rename_i x hl
    rw [Dict.list, Sparse.get_del h]
    split
    · rw [hl]; rfl
    · rfl
  · rename_i x y rest hl
    rw [Dict.list, Sparse.get_put]
    split
    · rw [hl]; rfl
    · rfl

/-- The total after a write to one key. -/
theorem Dict.total_put {d : Dict} (h : Sparse.wf d) (k : Nat) (l : List Word) :
    Dict.total (Sparse.put d k l) + (Dict.list d k).length = Dict.total d + l.length := by
  induction d with
  | nil => simp [Sparse.put, Dict.total]
  | cons e rest ih =>
    obtain ⟨k', l'⟩ := e
    obtain ⟨hk, hr⟩ := List.pairwise_cons.1 h
    simp only [Sparse.put]
    split
    · rename_i hlt
      have : Sparse.get ((k', l') :: rest) k = none :=
        Sparse.get_of_lt (fun x hx => by
          rcases List.mem_cons.1 hx with rfl | hx
          · exact hlt
          · exact Nat.lt_trans hlt (hk x hx))
      simp [Dict.list, this, Dict.total]
      omega
    · split
      · subst_vars
        simp [Dict.list, Dict.total, Sparse.get]
        omega
      · rename_i hne
        have hg : Sparse.get ((k', l') :: rest) k = Sparse.get rest k := by simp [Sparse.get, Ne.symm hne]
        have := ih hr
        simp only [Dict.list, Dict.total, hg] at *
        omega

/-- The total after a key is dropped. -/
theorem Dict.total_del {d : Dict} (h : Sparse.wf d) (k : Nat) :
    Dict.total (Sparse.del d k) + (Dict.list d k).length = Dict.total d := by
  induction d with
  | nil => simp [Sparse.del, Dict.total]
  | cons e rest ih =>
    obtain ⟨k', l'⟩ := e
    obtain ⟨hk, hr⟩ := List.pairwise_cons.1 h
    simp only [Sparse.del]
    split
    · subst_vars
      simp [Dict.list, Dict.total, Sparse.get]
      omega
    · rename_i hne
      have hg : Sparse.get ((k', l') :: rest) k = Sparse.get rest k := by simp [Sparse.get, hne]
      have := ih hr
      simp only [Dict.list, Dict.total, hg] at *
      omega

/-- An insertion adds one position (R293). -/
theorem Dict.total_insert {d : Dict} (h : Sparse.wf d) (k : Nat) (x : Word) :
    Dict.total (Dict.insert d k x) = Dict.total d + 1 := by
  have := Dict.total_put h k (Dict.list d k ++ [x])
  simp only [Dict.insert, List.length_append, List.length_cons, List.length_nil] at *
  omega

/-- A removal takes one position, if the key has any (R294). -/
theorem Dict.total_removeOldest {d : Dict} (h : Sparse.wf d) (k : Nat) :
    Dict.total (Dict.removeOldest d k) = Dict.total d - (if Dict.list d k = [] then 0 else 1) := by
  unfold Dict.removeOldest
  split
  · simp [*]
  · rename_i x hl
    have := Dict.total_del h k
    simp [hl] at *
    omega
  · rename_i x y rest hl
    have := Dict.total_put h k (y :: rest)
    simp [hl] at *
    omega

/-- An insertion keeps the canonical form. -/
theorem Dict.insert_wf {d : Dict} (h : Dict.wf d) (k : Nat) (x : Word) : Dict.wf (Dict.insert d k x) := by
  refine ⟨Sparse.put_wf h.1 _ _, fun e he => ?_⟩
  rcases Sparse.mem_put he with rfl | he
  · simp
  · exact h.2 e he

/-- A removal keeps the canonical form. -/
theorem Dict.removeOldest_wf {d : Dict} (h : Dict.wf d) (k : Nat) : Dict.wf (Dict.removeOldest d k) := by
  unfold Dict.removeOldest
  split
  · exact h
  · exact ⟨Sparse.del_wf h.1 _, fun e he => h.2 e (Sparse.mem_del he)⟩
  · refine ⟨Sparse.put_wf h.1 _ _, fun e he => ?_⟩
    rcases Sparse.mem_put he with rfl | he
    · simp
    · exact h.2 e he

/-- A removal lists no new key. -/
theorem Dict.key_removeOldest {d : Dict} {k : Nat} {e : Nat × List Word} (he : e ∈ Dict.removeOldest d k) :
    e.1 = k ∨ e ∈ d := by
  unfold Dict.removeOldest at he
  split at he
  · exact .inr he
  · exact .inr (Sparse.mem_del he)
  · rcases Sparse.mem_put he with rfl | he
    · exact .inl rfl
    · exact .inr he

/-! ### circular_window_buffer -/

@[simp] theorem Window.push_head (w : Window) (b : Byte) : (w.push b).head = w.head + 1 := rfl

@[simp] theorem Window.push_cursor (w : Window) (b : Byte) : (w.push b).cursor = w.cursor := rfl

/-- The byte a write stores (R303). -/
@[simp] theorem Window.byteAt_push_head (w : Window) (b : Byte) : (w.push b).byteAt w.head = b := by
  simp [Window.byteAt, Window.push]

/-- A write leaves every other slot. -/
theorem Window.byteAt_push_ne {w : Window} {p : Nat} (b : Byte) (h : p % Config.cwCap ≠ w.head % Config.cwCap) :
    (w.push b).byteAt p = w.byteAt p := by
  simp only [Window.byteAt, Window.push]
  rw [Sparse.get_put_ne _ _ h]

/-- A write leaves every position that is still readable (R300). -/
theorem Window.byteAt_push_readable {w : Window} {p : Nat} (b : Byte) (h : (w.push b).readable p) (hne : p ≠ w.head) :
    (w.push b).byteAt p = w.byteAt p := by
  apply Window.byteAt_push_ne
  simp only [Window.readable, Window.push_head, cwCap_eq] at h ⊢
  omega

/-! ### The LZW dictionary -/

@[simp] theorem Trie.next_eq (t : Trie) : Trie.next t = 257 + t.length := rfl

/-- A live index, as numbers (R253). -/
theorem Trie.live_iff (t : Trie) (i : Nat) : Trie.live t i = true ↔ i ≠ 256 ∧ i < 257 + t.length := by
  unfold Trie.live
  rw [decide_eq_true_iff]
  rfl

/-- A child is an entry of the dictionary (R240). -/
theorem Trie.child_eq_some {t : Trie} {p : Nat} {b : Byte} {i : Nat} (h : Trie.child t p b = some i) :
    257 ≤ i ∧ i < 257 + t.length ∧ t[i - 257]? = some { parent := p, last := b } := by
  unfold Trie.child at h
  rw [Option.map_eq_some_iff] at h
  obtain ⟨j, hj, rfl⟩ := h
  rw [List.findIdx?_eq_some_iff_getElem] at hj
  obtain ⟨hl, he, _⟩ := hj
  simp only [Bool.and_eq_true, beq_iff_eq] at he
  simp only [lzwFirstFree_eq]
  refine ⟨by omega, by omega, ?_⟩
  rw [show 257 + j - 257 = j by omega, List.getElem?_eq_getElem hl, ← he.1, ← he.2]

/-- No child: no entry has that parent and that byte. -/
theorem Trie.child_eq_none {t : Trie} {p : Nat} {b : Byte} :
    Trie.child t p b = none ↔ ({ parent := p, last := b } : TrieEntry) ∉ t := by
  unfold Trie.child
  rw [Option.map_eq_none_iff, List.findIdx?_eq_none_iff]
  constructor
  · intro h hm
    simpa using h _ hm
  · intro h e he
    by_contra hc
    simp only [Bool.not_eq_false, Bool.and_eq_true, beq_iff_eq] at hc
    exact h (by rw [← hc.1, ← hc.2]; exact he)

/-- The children after an entry is appended. -/
theorem Trie.child_append (t : Trie) (e : TrieEntry) (p : Nat) (b : Byte) :
    Trie.child (t ++ [e]) p b = match Trie.child t p b with
      | some i => some i
      | none => if e.parent = p ∧ e.last = b then some (257 + t.length) else none := by
  unfold Trie.child
  rw [List.findIdx?_append]
  cases List.findIdx? (fun e => e.parent == p && e.last == b) t with
  | some i => simp
  | none => by_cases h : e.parent = p ∧ e.last = b <;> simp [List.findIdx?_cons, h]

/-- Insert: the new entry, or the flush that the entry at index 65535 causes (R242). -/
theorem Trie.insert_eq (t : Trie) (p : Nat) (b : Byte) :
    Trie.insert t p b = if t.length = 65278 then ([], true) else (t ++ [{ parent := p, last := b }], false) := by
  unfold Trie.insert
  by_cases h : t.length = 65278
  · rw [if_pos h, if_pos (by simp [h])]
  · rw [if_neg h, if_neg (by simp only [Trie.next_eq, lzwDictCap_eq]; omega)]

/-- W(E) is the least width of at least 9 bits that holds E (R241). -/
theorem codeWidth_spec (e : Nat) : 9 ≤ codeWidth e ∧ e < 2 ^ codeWidth e ∧ (codeWidth e = 9 ∨ 2 ^ (codeWidth e - 1) ≤ e) := by
  have h : bitlen e = 0 ∨ 2 ^ (bitlen e - 1) ≤ e := by
    unfold bitlen
    split
    · exact .inl rfl
    · right; simpa using Nat.log2_self_le ‹_›
  have hlt : e < 2 ^ bitlen e := by
    unfold bitlen
    split
    · simp [*]
    · exact Nat.lt_log2_self
  have hle : bitlen e ≤ codeWidth e := by unfold codeWidth; simp only [lzwMinWidth_eq]; omega
  refine ⟨by unfold codeWidth; simp only [lzwMinWidth_eq]; omega, hlt.trans_le (Nat.pow_le_pow_right (by omega) hle), ?_⟩
  by_cases h9 : bitlen e ≤ 9
  · left; unfold codeWidth; simp only [lzwMinWidth_eq]; omega
  · right
    have : codeWidth e = bitlen e := by unfold codeWidth; simp only [lzwMinWidth_eq]; omega
    rw [this]
    exact h.resolve_left (by omega)

/-- Indices below 65536 need at most 16 bits (R241). -/
theorem codeWidth_le {e : Nat} (h : e < 65536) : codeWidth e ≤ 16 := by
  obtain ⟨_, _, h9 | hp⟩ := codeWidth_spec e
  · omega
  · by_contra hc
    have : 2 ^ 16 ≤ 2 ^ (codeWidth e - 1) := Nat.pow_le_pow_right (by omega) (by omega)
    omega

/-- Seq by one parent step: in a dictionary whose parents come first, enough rounds give the same walk (R240). -/
theorem Trie.seqRev_fuel {t : Trie} (h : ∀ i e, t[i]? = some e → e.parent < 257 + i ∧ e.parent ≠ 256) (fuel i : Nat)
    (hf : i < 256 + fuel) (h0 : 0 < fuel) : Trie.seqRev t fuel i = Trie.seqRev t (fuel + 1) i := by
  induction fuel generalizing i with
  | zero => omega
  | succ fuel ih =>
    rw [Trie.seqRev, Trie.seqRev]
    split
    · rfl
    · rename_i h256
      cases he : Trie.entry t i with
      | none => rfl
      | some e =>
        simp only
        congr 1
        unfold Trie.entry at he
        split at he
        · cases he
        · rename_i h257
          simp only [lzwFirstFree_eq] at h257 he
          have := (h _ e he).1
          by_cases hz : fuel = 0
          · subst hz; omega
          · exact ih e.parent (by omega) (by omega)

end Sys2Proof.Machine
end

