-- ==== Sys2Proof/Laws/Exec.lean ====
section
/-! SUPPORT. What one command can do, said once: every command ends in the completion of a state that `Ran` describes, or, if it is a
primitive command, in the error raised in the state before it. The frames and the invariants follow by cases. -/

namespace Sys2Proof.Machine

/-- The output bytes of a state, read through a store from index 0 on. -/
theorem State.outBytes_store {s : State} {m : Memory} {out : List Byte} (h : s.outBuf = Memory.store m 0 out)
    (hl : s.outLen.toNat = out.length) : s.outBytes = out := by
  apply List.ext_getElem (by simp [State.outBytes, hl])
  intro j h1 h2
  simp only [State.outBytes, List.getElem_map, List.getElem_range]
  rw [State.outByte_store s m 0 j out h, if_pos (by omega), Nat.sub_zero, List.getD_eq_getElem _ _ h2]

/-- What a primitive command that succeeds leaves before its completion. -/
inductive Ran (s : State) : Instr → State → Prop where
  /-- Nothing but the results. -/
  | same (i : Instr) (h : ¬ IsCodec i) : Ran s i s
  | clearAll : Ran s .clearAll { s.clearUnits with outLen := 0 }
  | bsInit : Ran s .bsInit { s with bs := Shifter.cleared, outLen := 0 }
  | read (i : Instr) (n : Nat) (h : ReadForm i n) (hl : s.opLen ≤ s.params.inCap) (hp : s.bs.rpos + n ≤ 8 * s.opLen) :
      Ran s i { s with bs := { s.bs with rpos := s.bs.rpos + n } }
  | write (i : Instr) (n : Nat) (h : WriteForm i n) (w : Writer) (hf : s.outLen.toNat + (s.bs.nacc + n) / 8 ≤ s.params.outCap)
      (hw : writeAll s.params.outCap (bitsOf s.opArg0.toNat n) s.writer = .ok w) : Ran s i (s.withWriter w)
  | finish (w : Writer) (hf : s.outLen.toNat + (if s.bs.nacc = 0 then 0 else 1) ≤ s.params.outCap)
      (hw : finishWriter s.params.outCap s.writer = .ok w) : Ran s .bsFinish (s.withWriter w)
  | pqClear : Ran s .pqClear { s with pq := [] }
  | pqPush (h : s.pq.length ≠ Config.pqCap) :
      Ran s .pqPush { s with pq := heapPush s.pq { weight := s.opArg0, payload := s.opArg1 } }
  | pqPop (e : HeapEntry) (q : List HeapEntry) (h : heapPop s.pq = some (e, q)) : Ran s .pqPop { s with pq := q }
  | hdClear : Ran s .hdClear { s with hd := [] }
  | hdInsert (h : Dict.total s.hd ≠ Config.hdCap) :
      Ran s .hdInsert { s with hd := Dict.insert s.hd (keyOperand s.opArg0) s.opArg1 }
  | hdRemoveOldest (x : Word) (rest : List Word) (h : Dict.list s.hd (keyOperand s.opArg0) = x :: rest) :
      Ran s .hdRemoveOldest { s with hd := Dict.removeOldest s.hd (keyOperand s.opArg0) }
  | cwClear : Ran s .cwClear { s with cw := { s.cw with head := 0, cursor := 0 } }
  | cwWrite (h : s.cw.head ≠ Config.cwTopPosition) (h2 : s.cw.head + 1 ≤ s.cw.cursor + Config.cwCap) :
      Ran s .cwWrite { s with cw := Window.push s.cw (byteOperand s.opArg0) }
  | cwMoveCursor (c : Nat) (h : s.cw.head - Config.cwCap ≤ c) (h2 : c ≤ s.cw.head) :
      Ran s .cwMoveCursor { s with cw := { s.cw with cursor := c } }
  | htClear : Ran s .htClear { s with ht := Tree.cleared }
  | htBuild (h : s.opLen ≤ s.params.inCap) : Ran s .htBuild { s with ht := buildTree (s.inBytes s.opLen), pq := [] }
  | lzwClear : Ran s .lzwClear { s with lzw := [] }
  | lzwInsert (h : Trie.live s.lzw s.opArg0.toNat = true) (h2 : Trie.child s.lzw s.opArg0.toNat (byteOperand s.opArg1) = none) :
      Ran s .lzwInsert { s with lzw := (Trie.insert s.lzw s.opArg0.toNat (byteOperand s.opArg1)).1 }

/-- The codec commands' function of the input. -/
def codecRun (p : Config.Params) : Instr → List Byte → Except CodecRaise CodecDone
  | .hufCompress => hufCompress p
  | .hufDecompress => hufDecompress p
  | .lzssCompress => lzssCompress p
  | .lzssDecompress => lzssDecompress p
  | .lzwCompress => lzwCompress p
  | .lzwDecompress => lzwDecompress p
  | _ => fun _ => .ok { out := [], r1 := 0, r2 := 0 }

/-- A codec command is its function of the input behind the shared end (R60, R335). -/
theorem exec_codec {i : Instr} (h : IsCodec i) (s : State) :
    exec i s = settleCodec s (withInputBytes s (codecRun s.params i)) := by
  rcases h with rfl | rfl | rfl | rfl | rfl | rfl <;> rfl

/-- A codec command ends with its output stored, or with an error; it clears every sub-unit either way. -/
theorem exec_codec_cases {i : Instr} {s t : State} (hi : IsCodec i) (h : exec i s = .next t) :
    (∃ d, withInputBytes s (codecRun s.params i) = .ok d ∧ t = State.complete
      { s.clearUnits with outBuf := Memory.store s.outBuf 0 d.out, outLen := BitVec.ofNat 32 d.out.length }
      { r0 := BitVec.ofNat 32 d.out.length, r1 := BitVec.ofNat 32 d.r1, r2 := BitVec.ofNat 32 d.r2 }) ∨
    ∃ e, withInputBytes s (codecRun s.params i) = .error e ∧
      t = State.raise { (s.clearUnits.spoilOut 0 e.written) with outLen := 0 } e.err := by
  rw [exec_codec hi] at h
  exact settleCodec_next h

/-- Everything a primitive command that goes on can do (R334). -/
theorem exec_primitive {i : Instr} {s t : State} (hi : ¬ IsCodec i) (h : exec i s = .next t) :
    (∃ e, t = s.raise e) ∨ ∃ r u, t = State.complete u r ∧ Ran s i u := by
  have reads : ∀ {n : Nat} {j : Instr} {r u}, ReadForm j n → bsRead n s = .ok (r, u) → Ran s j u := by
    intro n j r u hj he
    rcases bsRead_cases n s with ⟨_, hb⟩ | ⟨_, _, hb⟩ | ⟨hl, hp, hb⟩ <;> rw [hb] at he <;> cases he
    exact .read _ n hj hl hp
  have writes : ∀ {n : Nat} {j : Instr} {r u}, WriteForm j n → bsWrite n s = .ok (r, u) → Ran s j u := by
    intro n j r u hj he
    unfold bsWrite at he
    split at he
    · split at he
      · cases he
      · cases he
        rename_i hfit _ _ hw
        exact .write _ n hj _ (by simpa [State.bitsFit] using hfit) hw
    · cases he
  have done : ∀ {run : Except Err (Results × State)}, settle s run = .next t →
      (∀ r u, run = .ok (r, u) → Ran s i u) → (∃ e, t = s.raise e) ∨ ∃ r u, t = State.complete u r ∧ Ran s i u := by
    intro run he hr
    rcases settle_next he with ⟨r, u, hrun, rfl⟩ | ⟨e, _, rfl⟩
    · exact .inr ⟨r, u, rfl, hr r u hrun⟩
    · exact .inl ⟨e, rfl⟩
  cases i <;> first
    | (exfalso; apply hi; simp [IsCodec]; done)
    | (simp only [exec, execNop, execClearAll, execBsInit, execBsReadBit, execBsReadBits, execBsReadBytes, execBsWriteBit,
        execBsWriteBits, execBsWriteBytes, execBsFinish, execBsStatus, execPqClear, execPqPush, execPqPop, execPqSize,
        execHdClear, execHdInsert, execHdRemoveOldest, execHdCount, execHdGet, execCwClear, execCwWrite, execCwRead,
        execCwMoveCursor, execCwStatus, execHtClear, execHtBuild, execHtNode, execHtCode, execLzssFind, execLzwClear,
        execLzwLookup, execLzwInsert, execLzwWidth, execLzwStatus, execLzwEntry] at h
       refine done h (fun r u he => ?_))
  case bsReadBit => exact reads (.inl ⟨rfl, rfl⟩) he
  case bsReadBits n =>
    obtain ⟨hn, he⟩ := withLegalImm_ok he
    have hn := of_decide_eq_true hn
    exact reads (.inr (.inl ⟨n, rfl, hn.1, hn.2, rfl⟩)) he
  case bsReadBytes n =>
    obtain ⟨hn, he⟩ := withLegalImm_ok he
    have hn := of_decide_eq_true hn
    exact reads (.inr (.inr ⟨n, rfl, hn.1, hn.2, rfl⟩)) he
  case bsWriteBit => exact writes (.inl ⟨rfl, rfl⟩) he
  case bsWriteBits n =>
    obtain ⟨hn, he⟩ := withLegalImm_ok he
    have hn := of_decide_eq_true hn
    exact writes (.inr (.inl ⟨n, rfl, hn.1, hn.2, rfl⟩)) he
  case bsWriteBytes n =>
    obtain ⟨hn, he⟩ := withLegalImm_ok he
    have hn := of_decide_eq_true hn
    exact writes (.inr (.inr ⟨n, rfl, hn.1, hn.2, rfl⟩)) he
  case bsFinish =>
    unfold bsFlush at he
    by_cases hg : s.outLen.toNat + (if s.bs.nacc = 0 then 0 else 1) ≤ s.params.outCap
    · rw [if_pos hg] at he
      split at he
      · cases he
      · cases he; exact .finish _ hg ‹_›
    · rw [if_neg hg] at he; cases he
  case clearAll => cases he; exact .clearAll
  case bsInit => cases he; exact .bsInit
  case pqClear => cases he; exact .pqClear
  case pqPush =>
    split at he
    · cases he
    · cases he; exact .pqPush ‹_›
  case pqPop =>
    split at he
    · cases he
    · cases he; exact .pqPop _ _ ‹_›
  case hdClear => cases he; exact .hdClear
  case hdInsert =>
    split at he
    · cases he
    · cases he; exact .hdInsert ‹_›
  case hdRemoveOldest =>
    split at he
    · cases he
    · cases he; exact .hdRemoveOldest _ _ ‹_›
  case cwClear => cases he; exact .cwClear
  case cwWrite =>
    split at he
    · cases he
    · split at he
      · cases he
      · cases he; exact .cwWrite ‹_› (by omega)
  case cwMoveCursor =>
    split at he
    · cases he
      exact .cwMoveCursor _ (by omega) (by omega)
    · cases he
  case htClear => cases he; exact .htClear
  case htBuild =>
    obtain ⟨hl, he⟩ := withInput_ok he
    cases he
    exact .htBuild hl
  case lzssFind =>
    obtain ⟨_, he⟩ := withInput_ok he
    split at he <;> cases he
    exact .same _ hi
  case htCode =>
    obtain ⟨_, he⟩ := withLegalImm_ok he
    (repeat' split at he) <;> cases he <;> exact .same _ hi
  case lzwClear => cases he; exact .lzwClear
  case lzwInsert =>
    split at he
    · split at he
      · cases he
      · cases he; exact .lzwInsert ‹_› ‹_›
    · cases he
  all_goals
    (repeat' split at he) <;> cases he <;> exact .same _ hi

end Sys2Proof.Machine
end

