-- ==== Sys2Proof/Laws/Codecs.lean ====
section
/-! SUPPORT. What every codec command keeps of OUT_CAP, and the one induction behind every invariant of the machine. -/

namespace Sys2Proof.Machine

/-! ### No codec writes past OUT_CAP (R148) -/

/-- A writer of whole bytes whose length counts them, within the capacity. -/
def Writer.fits (cap : Nat) (w : Writer) : Prop := w.len = w.out.length ∧ w.len ≤ cap

theorem Writer.fresh_fits (cap : Nat) : Writer.fresh.fits cap := by simp [Writer.fits, Writer.fresh]

/-- AppendByte keeps the count and the capacity, or raises with at most the capacity written. -/
theorem appendByte_fits {cap : Nat} {v : Byte} {w : Writer} (hw : w.fits cap) :
    (∀ w', appendByte cap v w = .ok w' → w'.fits cap) ∧ ∀ e, appendByte cap v w = .error e → e.written ≤ cap := by
  obtain ⟨h1, h2⟩ := hw
  rw [appendByte_eq]
  split
  · exact ⟨fun _ h => (by cases h), fun _ h => by cases h; exact h2⟩
  · refine ⟨fun _ h => ?_, fun _ h => by cases h⟩
    cases h
    exact ⟨by simp [h1], by dsimp only; omega⟩

/-- The same for a run of bytes. -/
theorem appendAll_fits {cap : Nat} (bytes : List Byte) {w : Writer} (hw : w.fits cap) :
    (∀ w', appendAll cap bytes w = .ok w' → w'.fits cap) ∧ ∀ e, appendAll cap bytes w = .error e → e.written ≤ cap := by
  induction bytes generalizing w with
  | nil => exact ⟨fun _ h => by cases h; exact hw, fun _ h => by cases h⟩
  | cons b bytes ih =>
    simp only [appendAll]
    cases h : appendByte cap b w with
    | error e => exact ⟨fun _ h' => (by cases h'), fun _ h' => by cases h'; exact (appendByte_fits hw).2 _ h⟩
    | ok w1 => exact ih ((appendByte_fits hw).1 _ h)

/-- The same for the copy of a pointer. -/
theorem copyBack_fits {cap o : Nat} (count : Nat) {w : Writer} (hw : w.fits cap) :
    (∀ w', copyBack cap o count w = .ok w' → w'.fits cap) ∧ ∀ e, copyBack cap o count w = .error e → e.written ≤ cap := by
  induction count generalizing w with
  | zero => exact ⟨fun _ h => by cases h; exact hw, fun _ h => by cases h⟩
  | succ count ih =>
    simp only [copyBack]
    cases h : appendByte cap (w.out.getD (o - 1) 0) w with
    | error e => exact ⟨fun _ h' => (by cases h'), fun _ h' => by cases h'; exact (appendByte_fits hw).2 _ h⟩
    | ok w1 => exact ih ((appendByte_fits hw).1 _ h)

/-- The payload loop of HUF_DECOMPRESS. -/
theorem hufPayload_fits {cap root eofLeaf : Nat} {nodes : List Node} (fuel : Nat) {bits : List Bool} {w : Writer}
    (hw : w.fits cap) :
    (∀ w' rest, hufPayload cap nodes root eofLeaf fuel bits w = .ok (w', rest) → w'.fits cap) ∧
      ∀ e, hufPayload cap nodes root eofLeaf fuel bits w = .error e → e.written ≤ cap := by
  induction fuel generalizing bits w with
  | zero => exact ⟨fun _ _ h => (by cases h), fun _ h => by cases h; exact hw.2⟩
  | succ fuel ih =>
    simp only [hufPayload]
    split
    · exact ⟨fun _ _ h => (by cases h), fun _ h => by cases h; exact hw.2⟩
    · split
      · exact ⟨fun _ _ h => by cases h; exact hw, fun _ h => by cases h⟩
      · split
        · rename_i h1
          exact ⟨fun _ _ h => (by cases h), fun _ h => by cases h; exact (appendByte_fits hw).2 _ h1⟩
        · rename_i h1
          exact ih ((appendByte_fits hw).1 _ h1)

/-- The block loop of LZSS_DECOMPRESS. -/
theorem lzssPayload_fits {cap : Nat} (fuel : Nat) {bits : List Bool} {w : Writer} {nptr : Nat} (hw : w.fits cap) :
    (∀ w' n rest, lzssPayload cap fuel bits w nptr = .ok (w', n, rest) → w'.fits cap) ∧
      ∀ e, lzssPayload cap fuel bits w nptr = .error e → e.written ≤ cap := by
  induction fuel generalizing bits w nptr with
  | zero => exact ⟨fun _ _ _ h => (by cases h), fun _ h => by cases h; exact hw.2⟩
  | succ fuel ih =>
    cases bits with
    | nil => exact ⟨fun _ _ _ h => (by cases h), fun _ h => by cases h; exact hw.2⟩
    | cons b bits =>
      cases b with
      | true =>
        simp only [lzssPayload]
        split
        · exact ⟨fun _ _ _ h => (by cases h), fun _ h => by cases h; exact hw.2⟩
        · split
          · exact ⟨fun _ _ _ h => (by cases h), fun _ h => by cases h; exact hw.2⟩
          · split
            · exact ⟨fun _ _ _ h => by cases h; exact hw, fun _ h => by cases h⟩
            · split
              · exact ⟨fun _ _ _ h => (by cases h), fun _ h => by cases h; exact hw.2⟩
              · split
                · rename_i h1
                  exact ⟨fun _ _ _ h => (by cases h), fun _ h => by cases h; exact (copyBack_fits _ hw).2 _ h1⟩
                · rename_i h1
                  exact ih ((copyBack_fits _ hw).1 _ h1)
      | false =>
        simp only [lzssPayload]
        split
        · exact ⟨fun _ _ _ h => (by cases h), fun _ h => by cases h; exact hw.2⟩
        · split
          · rename_i h1
            exact ⟨fun _ _ _ h => (by cases h), fun _ h => by cases h; exact (appendByte_fits hw).2 _ h1⟩
          · rename_i h1
            exact ih ((appendByte_fits hw).1 _ h1)

/-- The code loop of LZW_DECOMPRESS. -/
theorem lzwPayload_fits {cap : Nat} (fuel : Nat) {bits : List Bool} {w : Writer} {t : Trie} {encNext : Nat}
    {prev : Option Nat} {nflush : Nat} (hw : w.fits cap) :
    (∀ w' n rest, lzwPayload cap fuel bits w t encNext prev nflush = .ok (w', n, rest) → w'.fits cap) ∧
      ∀ e, lzwPayload cap fuel bits w t encNext prev nflush = .error e → e.written ≤ cap := by
  induction fuel generalizing bits w t encNext prev nflush with
  | zero => exact ⟨fun _ _ _ h => (by cases h), fun _ h => by cases h; exact hw.2⟩
  | succ fuel ih =>
    simp only [lzwPayload]
    split
    · exact ⟨fun _ _ _ h => (by cases h), fun _ h => by cases h; exact hw.2⟩
    · split
      · exact ⟨fun _ _ _ h => by cases h; exact hw, fun _ h => by cases h⟩
      · split
        · exact ⟨fun _ _ _ h => (by cases h), fun _ h => by cases h; exact hw.2⟩
        · split
          · rename_i h1
            exact ⟨fun _ _ _ h => (by cases h), fun _ h => by cases h; exact (appendAll_fits _ hw).2 _ h1⟩
          · rename_i h1
            exact ih ((appendAll_fits _ hw).1 _ h1)

/-- The header of a decompress command raises with nothing written. -/
theorem openStream_written {tag : Word} {bits : List Bool} {e : CodecRaise} (h : openStream tag bits = .error e) :
    e.written = 0 := by
  rw [openStream_eq] at h
  split at h
  · cases h; rfl
  · split at h <;> cases h
    rfl

/-- A codec command's output, or what it wrote before an error, fits OUT_CAP. -/
theorem codecRun_fits {p : Config.Params} {i : Instr} (hi : IsCodec i) (input : List Byte) :
    (∀ d, codecRun p i input = .ok d → d.out.length ≤ p.outCap) ∧
      ∀ e, codecRun p i input = .error e → e.written ≤ p.outCap := by
  have pack : ∀ (bits : List Bool) (r2 : Nat), (∀ d, packStream p.outCap bits r2 = .ok d → d.out.length ≤ p.outCap) ∧
      ∀ e, packStream p.outCap bits r2 = .error e → e.written ≤ p.outCap := by
    intro bits r2
    have h := packStream_spec p.outCap bits r2
    split at h
    · obtain ⟨d, hd, hl, _⟩ := h
      rw [hd]
      exact ⟨fun _ h => by cases h; omega, fun _ h => by cases h⟩
    · rw [h]
      exact ⟨fun _ h => (by cases h), fun _ h => by cases h; exact Nat.le_refl _⟩
  have done : ∀ {w : Writer}, w.fits p.outCap → w.out.reverse.length ≤ p.outCap := by
    intro w hw
    have := hw.1
    have := hw.2
    simp
    omega
  rcases hi with rfl | rfl | rfl | rfl | rfl | rfl
  · exact pack _ _
  · simp only [codecRun, hufDecompress]
    split
    · rename_i h1
      exact ⟨fun _ h => (by cases h), fun _ h => by cases h; rw [openStream_written h1]; omega⟩
    · split
      · exact ⟨fun _ h => (by cases h), fun _ h => by cases h; exact Nat.zero_le _⟩
      · split
        · exact ⟨fun _ h => (by cases h), fun _ h => by cases h; exact Nat.zero_le _⟩
        · split
          · rename_i h1
            exact ⟨fun _ h => (by cases h), fun _ h => by cases h; exact (hufPayload_fits _ (Writer.fresh_fits _)).2 _ h1⟩
          · rename_i h1
            exact ⟨fun _ h => by cases h; exact done ((hufPayload_fits _ (Writer.fresh_fits _)).1 _ _ h1),
              fun _ h => by cases h⟩
  · exact pack _ _
  · simp only [codecRun, lzssDecompress]
    split
    · rename_i h1
      exact ⟨fun _ h => (by cases h), fun _ h => by cases h; rw [openStream_written h1]; omega⟩
    · split
      · rename_i h1
        exact ⟨fun _ h => (by cases h), fun _ h => by cases h; exact (lzssPayload_fits _ (Writer.fresh_fits _)).2 _ h1⟩
      · rename_i h1
        exact ⟨fun _ h => by cases h; exact done ((lzssPayload_fits _ (Writer.fresh_fits _)).1 _ _ _ h1),
          fun _ h => by cases h⟩
  · exact pack _ _
  · simp only [codecRun, lzwDecompress]
    split
    · rename_i h1
      exact ⟨fun _ h => (by cases h), fun _ h => by cases h; rw [openStream_written h1]; omega⟩
    · split
      · rename_i h1
        exact ⟨fun _ h => (by cases h), fun _ h => by cases h; exact (lzwPayload_fits _ (Writer.fresh_fits _)).2 _ h1⟩
      · rename_i h1
        exact ⟨fun _ h => by cases h; exact done ((lzwPayload_fits _ (Writer.fresh_fits _)).1 _ _ _ h1),
          fun _ h => by cases h⟩

/-! ### The induction behind the invariants -/

/-- A property that the model's own fields do not matter to, and that every kind of move keeps, is kept by every step. -/
theorem step_keeps {P : State → Prop}
    (hagenda : ∀ (s : State) rest, P s → P { s with agenda := rest })
    (hraise : ∀ (s : State) e, P s → P (s.raise e))
    (hcodec : ∀ (s : State) (i : Instr) (d : CodecDone), P s → IsCodec i →
      withInputBytes s (codecRun s.params i) = .ok d → P (State.complete
        { s.clearUnits with outBuf := Memory.store s.outBuf 0 d.out, outLen := BitVec.ofNat 32 d.out.length }
        { r0 := BitVec.ofNat 32 d.out.length, r1 := BitVec.ofNat 32 d.r1, r2 := BitVec.ofNat 32 d.r2 }))
    (hcodecRaise : ∀ (s : State) (i : Instr) (e : CodecRaise), P s → IsCodec i →
      withInputBytes s (codecRun s.params i) = .error e →
      P (State.raise { (s.clearUnits.spoilOut 0 e.written) with outLen := 0 } e.err))
    (hran : ∀ (s : State) (i : Instr) (u : State) (r : Results), P s → Ran s i u → P (State.complete u r))
    (hdeliver : ∀ (s : State) v draws, P s → P { s.deliver v with draws := draws })
    (hviolate : ∀ s : State, P s → P s.violate)
    (hsoft : ∀ s : State, P s → P s.softReset)
    (hreg : ∀ (s : State) off v, P s → s.busy = false → s.hostWriteReg off v ≠ s.softReset → P (s.hostWriteReg off v))
    (hin : ∀ (s : State) a v, P s → a < s.params.inCap → P { s with inBuf := Sparse.put s.inBuf a v })
    {s t : State} (hs : P s) (h : step s = .next t) : P t := by
  obtain ⟨u, ⟨rest, rfl⟩, h⟩ := step_cases h
  have hu := hagenda s rest hs
  generalize ({ s with agenda := rest } : State) = u at hu h
  rcases h with ⟨_, rfl⟩ | ⟨i, _, _, he⟩ | ⟨e, _, _, rfl⟩ | ⟨off, rfl⟩ | ⟨a, rfl⟩ | ⟨a, rfl⟩ | ⟨off, v, rfl⟩ | ⟨a, v, rfl⟩ | rfl
  · exact hu
  · by_cases hi : IsCodec i
    · rcases exec_codec_cases hi he with ⟨d, hr, rfl⟩ | ⟨e, hr, rfl⟩
      · exact hcodec _ _ _ hu hi hr
      · exact hcodecRaise _ _ _ hu hi hr
    · rcases exec_primitive hi he with ⟨e, rfl⟩ | ⟨r, u, rfl, hr⟩
      · exact hraise _ _ hu
      · exact hran _ _ _ _ hu hr
  · exact hraise _ _ hu
  · rcases u.readReg_cases off with ⟨v, e⟩ | ⟨_, e⟩ <;> rw [e]
    · exact hdeliver u v u.draws hu
    · exact hdeliver _ _ _ hu
  · exact hdeliver u _ u.draws hu
  · unfold State.hostReadOut
    split
    · exact hdeliver _ _ _ hu
    · exact hdeliver u _ u.draws hu
  · by_cases hsr : u.hostWriteReg off v = u.softReset
    · rw [hsr]; exact hsoft _ hu
    · rcases u.hostWriteReg_cases off v with ⟨_, e⟩ | e | ⟨hb, _⟩
      · rw [e]; exact hviolate _ hu
      · exact absurd e hsr
      · exact hreg _ _ _ hu hb hsr
  · unfold State.hostWriteIn
    split
    · exact hviolate _ hu
    · split
      · exact hin _ _ _ hu ‹_›
      · exact hu
  · rcases u.hostWriteOut_cases with ⟨_, e⟩ | ⟨_, e⟩ <;> rw [e]
    · exact hu
    · exact hviolate _ hu

end Sys2Proof.Machine
end

