-- ==== Sys2Proof/Laws/Heap.lean ====
section
/-! SUPPORT. The heap functions of 44_collections.md §1: Push and Pop keep the entries and the heap order (R280 to R283). -/

namespace Sys2Proof.Machine

theorem heapAt_of_lt {h : List HeapEntry} {i : Nat} (hi : i < h.length) : heapAt h i = h[i] := by
  rw [heapAt, List.getD_eq_getElem _ _ hi]

@[simp] theorem heapSwap_length (h : List HeapEntry) (i j : Nat) : (heapSwap h i j).length = h.length := by simp [heapSwap]

/-- A swap, entry by entry. -/
theorem heapAt_swap {h : List HeapEntry} {i j : Nat} (hi : i < h.length) (hj : j < h.length) (k : Nat) :
    heapAt (heapSwap h i j) k = if k = j then heapAt h i else if k = i then heapAt h j else heapAt h k := by
  by_cases hk : k < h.length
  · rw [heapAt_of_lt (by simpa using hk)]
    simp only [heapSwap, List.getElem_set]
    by_cases h1 : j = k
    · rw [if_pos h1, if_pos h1.symm]
    · rw [if_neg h1, if_neg (Ne.symm h1)]
      by_cases h2 : i = k
      · rw [if_pos h2, if_pos h2.symm]
      · rw [if_neg h2, if_neg (Ne.symm h2), heapAt_of_lt hk]
  · rw [if_neg (by omega), if_neg (by omega)]
    unfold heapAt
    rw [List.getD_eq_default _ _ (by simpa using hk), List.getD_eq_default _ _ (by simpa using hk)]

/-- The same for weights. -/
theorem heapWeight_swap {h : List HeapEntry} {i j : Nat} (hi : i < h.length) (hj : j < h.length) (k : Nat) :
    heapWeight (heapSwap h i j) k =
      if k = j then heapWeight h i else if k = i then heapWeight h j else heapWeight h k := by
  unfold heapWeight
  rw [heapAt_swap hi hj]
  split_ifs <;> rfl

/-- A swap carries the entries. -/
theorem heapSwap_perm {h : List HeapEntry} {i j : Nat} (hi : i < h.length) (hj : j < h.length) :
    (heapSwap h i j).Perm h := by
  unfold heapSwap
  rw [heapAt_of_lt hi, heapAt_of_lt hj]
  exact List.set_set_perm hi hj

/-! ### Push -/

/-- Heap order but for the entry at `i`, which may be lighter than its parent; its children are not lighter than that parent. -/
def OrderUp (h : List HeapEntry) (i : Nat) : Prop :=
  (∀ k, 0 < k → k < h.length → k ≠ i → heapWeight h ((k - 1) / 2) ≤ heapWeight h k) ∧
  (∀ k, 0 < i → 0 < k → k < h.length → (k - 1) / 2 = i → heapWeight h ((i - 1) / 2) ≤ heapWeight h k)

/-- The sift-up carries the entries and restores heap order (R282). -/
theorem siftUp_spec (fuel : Nat) (h : List HeapEntry) (i : Nat) (hf : i ≤ fuel) (hi : i < h.length) :
    (siftUp fuel h i).Perm h ∧ (OrderUp h i → HeapOrder (siftUp fuel h i)) := by
  induction fuel generalizing h i with
  | zero =>
    have hz : i = 0 := by omega
    subst hz
    exact ⟨.refl _, fun ho k hk hkl => ho.1 k hk hkl (by omega)⟩
  | succ fuel ih =>
    simp only [siftUp]
    split
    · subst_vars
      exact ⟨.refl _, fun ho k hk hkl => ho.1 k hk hkl (by omega)⟩
    · rename_i h0
      have hj : (i - 1) / 2 < h.length := by omega
      split
      · rename_i hlt
        obtain ⟨hp, ho⟩ := ih (heapSwap h i ((i - 1) / 2)) ((i - 1) / 2) (by omega) (by simpa using hj)
        refine ⟨hp.trans (heapSwap_perm hi hj), fun hu => ho ⟨?_, ?_⟩⟩
        · intro k hk hkl hne
          simp only [heapSwap_length] at hkl
          rw [heapWeight_swap hi hj, heapWeight_swap hi hj]
          by_cases hki : k = i
          · subst hki
            rw [if_pos rfl, if_neg hne, if_pos rfl]
            omega
          · rw [if_neg hne, if_neg hki]
            have hb := hu.1 k hk hkl hki
            by_cases hpk : (k - 1) / 2 = (i - 1) / 2
            · rw [if_pos hpk]; rw [hpk] at hb; omega
            · rw [if_neg hpk]
              by_cases hpi : (k - 1) / 2 = i
              · rw [if_pos hpi]
                exact hu.2 k (by omega) hk hkl hpi
              · rw [if_neg hpi]; exact hb
        · intro k hj0 hk hkl hpk
          simp only [heapSwap_length] at hkl
          rw [heapWeight_swap hi hj, heapWeight_swap hi hj]
          have hjj : (((i - 1) / 2) - 1) / 2 ≠ (i - 1) / 2 := by omega
          have hji : (((i - 1) / 2) - 1) / 2 ≠ i := by omega
          have hkj : k ≠ (i - 1) / 2 := by omega
          rw [if_neg hjj, if_neg hji, if_neg hkj]
          have hb := hu.1 ((i - 1) / 2) hj0 hj (by omega)
          by_cases hki : k = i
          · rw [if_pos hki]; exact hb
          · rw [if_neg hki]
            have := hu.1 k hk hkl hki
            rw [hpk] at this
            omega
      · rename_i hge
        refine ⟨.refl _, fun hu k hk hkl => ?_⟩
        by_cases hki : k = i
        · subst hki; omega
        · exact hu.1 k hk hkl hki

/-- Push adds the entry, carries the others and keeps heap order (R282). -/
theorem heapPush_spec (h : List HeapEntry) (e : HeapEntry) :
    (heapPush h e).Perm (e :: h) ∧ (HeapOrder h → HeapOrder (heapPush h e)) := by
  obtain ⟨hp, ho⟩ := siftUp_spec h.length (h ++ [e]) h.length (Nat.le_refl _) (by simp)
  refine ⟨hp.trans List.perm_append_comm, fun hh => ho ⟨?_, ?_⟩⟩
  · intro k hk hkl hne
    simp only [List.length_append, List.length_cons, List.length_nil] at hkl
    have := hh k hk (by omega)
    unfold heapWeight heapAt at *
    rw [List.getD_append _ _ _ _ (by omega), List.getD_append _ _ _ _ (by omega)]
    exact this
  · intro k _ hk hkl hpk
    simp only [List.length_append, List.length_cons, List.length_nil] at hkl
    omega

@[simp] theorem heapPush_length (h : List HeapEntry) (e : HeapEntry) : (heapPush h e).length = h.length + 1 := by
  simpa using (heapPush_spec h e).1.length_eq

/-! ### Pop -/

/-- Heap order but for the entry at `i`, which may be heavier than its children; they are not lighter than its parent. -/
def OrderDown (h : List HeapEntry) (i : Nat) : Prop :=
  (∀ k, 0 < k → k < h.length → (k - 1) / 2 ≠ i → heapWeight h ((k - 1) / 2) ≤ heapWeight h k) ∧
  (∀ k, 0 < i → 0 < k → k < h.length → (k - 1) / 2 = i → heapWeight h ((i - 1) / 2) ≤ heapWeight h k)

/-- The child the sift-down goes to, or `i` itself (R283). -/
theorem smallestAt_spec (h : List HeapEntry) (i : Nat) :
    (smallestAt h i = i ∨ (smallestAt h i < h.length ∧ (smallestAt h i = 2 * i + 1 ∨ smallestAt h i = 2 * i + 2) ∧
      heapWeight h (smallestAt h i) < heapWeight h i)) ∧
    (2 * i + 1 < h.length → heapWeight h (smallestAt h i) ≤ heapWeight h (2 * i + 1)) ∧
    (2 * i + 2 < h.length → heapWeight h (smallestAt h i) ≤ heapWeight h (2 * i + 2)) := by
  unfold smallestAt
  dsimp only
  split_ifs <;> refine ⟨?_, ?_, ?_⟩ <;> first | (intro _; omega) | omega

/-- The sift-down carries the entries and restores heap order (R283). -/
theorem siftDown_spec (fuel : Nat) (h : List HeapEntry) (i : Nat) (hf : h.length ≤ i + fuel) (hi : i < h.length) :
    (siftDown fuel h i).Perm h ∧ (OrderDown h i → HeapOrder (siftDown fuel h i)) := by
  induction fuel generalizing h i with
  | zero => omega
  | succ fuel ih =>
    obtain ⟨h1, hl, hr⟩ := smallestAt_spec h i
    simp only [siftDown]
    generalize smallestAt h i = m at *
    split
    · rename_i hmi
      rw [hmi] at hl hr
      refine ⟨.refl _, fun hd k hk hkl => ?_⟩
      by_cases hki : (k - 1) / 2 = i
      · rw [hki]
        rcases (by omega : k = 2 * i + 1 ∨ k = 2 * i + 2) with rfl | rfl
        · exact hl hkl
        · exact hr hkl
      · exact hd.1 k hk hkl hki
    · rename_i hne
      obtain ⟨hm, hc, hlt⟩ := h1.resolve_left hne
      have hmp : (m - 1) / 2 = i := by omega
      obtain ⟨hp, ho⟩ := ih (heapSwap h i m) m (by simp; omega) (by simpa using hm)
      refine ⟨hp.trans (heapSwap_perm hi hm), fun hd => ho ⟨?_, ?_⟩⟩
      · intro k hk hkl hkm
        simp only [heapSwap_length] at hkl
        rw [heapWeight_swap hi hm, heapWeight_swap hi hm, if_neg hkm]
        by_cases hki : (k - 1) / 2 = i
        · rw [if_pos hki]
          by_cases hkm' : k = m
          · rw [if_pos hkm']; omega
          · have hki' : k ≠ i := by omega
            rw [if_neg hkm', if_neg hki']
            rcases (by omega : k = 2 * i + 1 ∨ k = 2 * i + 2) with rfl | rfl
            · exact hl hkl
            · exact hr hkl
        · rw [if_neg hki]
          have hkm' : k ≠ m := by omega
          rw [if_neg hkm']
          by_cases hki' : k = i
          · rw [if_pos hki']
            subst hki'
            exact hd.2 m (by omega) (by omega) hm hmp
          · rw [if_neg hki']
            exact hd.1 k hk hkl hki
      · intro k _ hk hkl hkm
        simp only [heapSwap_length] at hkl
        rw [heapWeight_swap hi hm, heapWeight_swap hi hm, hmp]
        have hk1 : k ≠ m := by omega
        have hk2 : k ≠ i := by omega
        have him : i ≠ m := by omega
        rw [if_neg him, if_pos rfl, if_neg hk1, if_neg hk2]
        have := hd.1 k hk hkl (by omega)
        rwa [hkm] at this

/-- In heap order the root is lightest. -/
theorem HeapOrder.root_le {h : List HeapEntry} (ho : HeapOrder h) (k : Nat) (hk : k < h.length) :
    heapWeight h 0 ≤ heapWeight h k := by
  induction k using Nat.strongRecOn with
  | ind k ih =>
    by_cases h0 : k = 0
    · subst h0; exact Nat.le_refl _
    · exact (ih ((k - 1) / 2) (by omega) (by omega)).trans (ho k (by omega) hk)

/-- Pop returns the root, carries the other entries and keeps heap order (R283); of an empty heap it returns nothing. -/
theorem heapPop_spec (h : List HeapEntry) :
    (h = [] ∧ heapPop h = none) ∨
    ∃ e h', heapPop h = some (e, h') ∧ heapAt h 0 = e ∧ h.Perm (e :: h') ∧ (HeapOrder h → HeapOrder h') := by
  cases h with
  | nil => exact .inl ⟨rfl, rfl⟩
  | cons top rest =>
    right
    simp only [heapPop]
    split
    · rename_i h0
      have hr : rest = [] := List.length_eq_zero_iff.1 h0
      subst hr
      exact ⟨top, [], rfl, rfl, .refl _, fun _ k _ hkl => by simp at hkl⟩
    · rename_i h0
      obtain ⟨init, last, rfl⟩ : ∃ init last, rest = init ++ [last] :=
        ⟨rest.dropLast, rest.getLast (by intro hc; simp [hc] at h0), (List.dropLast_append_getLast _).symm⟩
      have hlast : heapAt (top :: (init ++ [last])) (init ++ [last]).length = last := by
        simp [heapAt]
      have hdrop : ((top :: (init ++ [last])).dropLast.set 0 last) = last :: init := by
        rw [← List.cons_append, List.dropLast_concat]
        rfl
      simp only [hlast, hdrop]
      obtain ⟨hp, ho⟩ := siftDown_spec (init ++ [last]).length (last :: init) 0 (by simp) (by simp)
      refine ⟨top, _, rfl, rfl, ?_, fun hh => ho ⟨?_, ?_⟩⟩
      · refine .cons top (.trans ?_ hp.symm)
        exact List.perm_append_comm
      · intro k hk hkl hne
        simp only [List.length_cons] at hkl
        have := hh k hk (by simp; omega)
        obtain ⟨k', rfl⟩ : ∃ k', k = k' + 1 := ⟨k - 1, by omega⟩
        obtain ⟨p', hp'⟩ : ∃ p', (k' + 1 - 1) / 2 = p' + 1 := ⟨(k' + 1 - 1) / 2 - 1, by omega⟩
        rw [hp'] at this ⊢
        simp only [heapWeight, heapAt, List.getD_cons_succ] at this ⊢
        rwa [List.getD_append _ _ _ _ (by omega), List.getD_append _ _ _ _ (by omega)] at this
      · intro k h00; omega

/-- The size after a Pop. -/
theorem heapPop_length {h h' : List HeapEntry} {e : HeapEntry} (hp : heapPop h = some (e, h')) : h'.length + 1 = h.length := by
  rcases heapPop_spec h with ⟨_, hn⟩ | ⟨e2, h2, hs, _, hperm, _⟩
  · rw [hn] at hp; cases hp
  · rw [hs] at hp; cases hp
    simpa using hperm.length_eq.symm

end Sys2Proof.Machine
end

