-- ==== Sys2Proof/Laws/PerInstr.lean ====
section
/-! SUPPORT. The per-instruction family Rsv: the fields of every command's word are those of 30_encoding.md R100 and R103, one
lemma per command. -/

namespace Sys2Proof.Laws.Rsv

/-- R100, R103: in the word of the command, OPCODE is the command's, RSV is 0 and IMM8 is its immediate. -/
def Statement (i : Instr) : Prop :=
  opcodeField (encode i) = opcodeOf i ∧ reservedField (encode i) = 0 ∧ immField (encode i) = immOf i

/-- Bit `j` of a word put together from its three fields. -/
theorem word_bit (op imm : Byte) (j : Nat) : (op ++ 0#16 ++ imm : Word).getLsbD j =
    if j < 8 then imm.getLsbD j else if j < 24 then false else op.getLsbD (j - 24) := by
  rw [BitVec.getLsbD_append, BitVec.getLsbD_append]
  split_ifs <;> first | rfl | omega | simp

/-- The three fields of a word put together from them. -/
theorem fields (op imm : Byte) :
    opcodeField (op ++ 0#16 ++ imm) = op ∧ reservedField (op ++ 0#16 ++ imm) = 0 ∧ immField (op ++ 0#16 ++ imm) = imm := by
  refine ⟨?_, ?_, ?_⟩ <;> apply BitVec.eq_of_getLsbD_eq <;> intro j hj
  · simp [opcodeField, word_bit, hj, show ¬ 24 + j < 8 by omega]
  · simp [reservedField, word_bit, hj, show 8 + j < 24 by omega]
  · simp [immField, word_bit, hj]

theorem nop : Statement .nop := fields _ _
theorem clearAll : Statement .clearAll := fields _ _
theorem hufCompress : Statement .hufCompress := fields _ _
theorem hufDecompress : Statement .hufDecompress := fields _ _
theorem lzssCompress : Statement .lzssCompress := fields _ _
theorem lzssDecompress : Statement .lzssDecompress := fields _ _
theorem lzwCompress : Statement .lzwCompress := fields _ _
theorem lzwDecompress : Statement .lzwDecompress := fields _ _
theorem bsInit : Statement .bsInit := fields _ _
theorem bsReadBit : Statement .bsReadBit := fields _ _
theorem bsReadBits (n : Byte) : Statement (.bsReadBits n) := fields _ _
theorem bsReadBytes (n : Byte) : Statement (.bsReadBytes n) := fields _ _
theorem bsWriteBit : Statement .bsWriteBit := fields _ _
theorem bsWriteBits (n : Byte) : Statement (.bsWriteBits n) := fields _ _
theorem bsWriteBytes (n : Byte) : Statement (.bsWriteBytes n) := fields _ _
theorem bsFinish : Statement .bsFinish := fields _ _
theorem bsStatus : Statement .bsStatus := fields _ _
theorem pqClear : Statement .pqClear := fields _ _
theorem pqPush : Statement .pqPush := fields _ _
theorem pqPop : Statement .pqPop := fields _ _
theorem pqSize : Statement .pqSize := fields _ _
theorem hdClear : Statement .hdClear := fields _ _
theorem hdInsert : Statement .hdInsert := fields _ _
theorem hdRemoveOldest : Statement .hdRemoveOldest := fields _ _
theorem hdCount : Statement .hdCount := fields _ _
theorem hdGet : Statement .hdGet := fields _ _
theorem cwClear : Statement .cwClear := fields _ _
theorem cwWrite : Statement .cwWrite := fields _ _
theorem cwRead : Statement .cwRead := fields _ _
theorem cwMoveCursor : Statement .cwMoveCursor := fields _ _
theorem cwStatus : Statement .cwStatus := fields _ _
theorem htClear : Statement .htClear := fields _ _
theorem htBuild : Statement .htBuild := fields _ _
theorem htNode : Statement .htNode := fields _ _
theorem htCode (k : Byte) : Statement (.htCode k) := fields _ _
theorem lzssFind : Statement .lzssFind := fields _ _
theorem lzwClear : Statement .lzwClear := fields _ _
theorem lzwLookup : Statement .lzwLookup := fields _ _
theorem lzwInsert : Statement .lzwInsert := fields _ _
theorem lzwWidth : Statement .lzwWidth := fields _ _
theorem lzwStatus : Statement .lzwStatus := fields _ _
theorem lzwEntry : Statement .lzwEntry := fields _ _

end Sys2Proof.Laws.Rsv
end

