-- ==== Sys2Proof/Laws/Tree.lean ====
section
/-! SUPPORT. Paths in a Huffman tree, and the codes as paths (41_huffman.md R176). -/

namespace Sys2Proof.Machine

@[simp] theorem nodeAt_nil (nodes : List Node) (n : Nat) : nodeAt nodes n [] = nodes[n]? := rfl

/-- A path from an internal node goes on from the child its first bit names. -/
theorem nodeAt_cons {nodes : List Node} {n l r : Nat} {w : Word} (h : nodes[n]? = some (.internal l r w)) (b : Bool)
    (path : List Bool) : nodeAt nodes n (b :: path) = nodeAt nodes (if b then r else l) path := by
  simp [nodeAt, h]

/-- Every listed code is the path given, then the path from the node to the listed leaf. -/
theorem mem_leafCodes {nodes : List Node} {fuel n : Nat} {path : List Bool} {c : Node × List Bool}
    (h : c ∈ leafCodes nodes fuel n path) :
    (∃ q, c.2 = path ++ q ∧ nodeAt nodes n q = some c.1) ∧ ∀ l r w, c.1 ≠ .internal l r w := by
  induction fuel generalizing n path with
  | zero => cases h
  | succ fuel ih =>
    unfold leafCodes at h
    split at h
    · cases h
    · rename_i l r w hn
      rcases List.mem_append.1 h with h | h <;> obtain ⟨⟨q, hc, hq⟩, hl⟩ := ih h
      · exact ⟨⟨false :: q, by simp [hc], by simp [nodeAt_cons hn, hq]⟩, hl⟩
      · exact ⟨⟨true :: q, by simp [hc], by simp [nodeAt_cons hn, hq]⟩, hl⟩
    · rename_i nd hnd hn
      obtain rfl := List.mem_singleton.1 h
      exact ⟨⟨[], by simp, hn⟩, fun l r w he => hnd l r w he⟩

end Sys2Proof.Machine
end

