-- ==== Sys2Proof/Tests/Slice0.lean ====
section
/-! SUPPORT. Tests: ill-formed commands refused, one word of every command decoded, one step per command on a small block, and a
witness for the hypotheses of every statement. Expected values come from 30_encoding.md R103 and 95_test_vectors.md. -/

namespace Sys2Proof.Tests

open Sys2Proof Sys2Proof.Machine

set_option Elab.async false

/-! ### WellFormed refuses an ill-formed term for each check (R104) -/

theorem test_wf_read_bits : Instr.wellFormed (.bsReadBits 0) = false ∧ Instr.wellFormed (.bsReadBits 33) = false := by decide
theorem test_wf_read_bytes : Instr.wellFormed (.bsReadBytes 0) = false ∧ Instr.wellFormed (.bsReadBytes 5) = false := by decide
theorem test_wf_write_bits : Instr.wellFormed (.bsWriteBits 0) = false ∧ Instr.wellFormed (.bsWriteBits 33) = false := by decide
theorem test_wf_write_bytes : Instr.wellFormed (.bsWriteBytes 0) = false ∧ Instr.wellFormed (.bsWriteBytes 5) = false := by decide
theorem test_wf_code : Instr.wellFormed (.htCode 8) = false := by decide

/-! ### Decoding: words written out from R103's table -/

theorem test_decode_nop : decode 0x00000000 = .ok .nop := by decide
theorem test_decode_clearAll : decode 0x01000000 = .ok .clearAll := by decide
theorem test_decode_hufCompress : decode 0x10000000 = .ok .hufCompress := by decide
theorem test_decode_hufDecompress : decode 0x11000000 = .ok .hufDecompress := by decide
theorem test_decode_lzssCompress : decode 0x12000000 = .ok .lzssCompress := by decide
theorem test_decode_lzssDecompress : decode 0x13000000 = .ok .lzssDecompress := by decide
theorem test_decode_lzwCompress : decode 0x14000000 = .ok .lzwCompress := by decide
theorem test_decode_lzwDecompress : decode 0x15000000 = .ok .lzwDecompress := by decide
theorem test_decode_bsInit : decode 0x20000000 = .ok .bsInit := by decide
theorem test_decode_bsReadBit : decode 0x21000000 = .ok .bsReadBit := by decide
theorem test_decode_bsReadBits : decode 0x22000020 = .ok (.bsReadBits 32) := by decide
theorem test_decode_bsReadBytes : decode 0x23000004 = .ok (.bsReadBytes 4) := by decide
theorem test_decode_bsWriteBit : decode 0x24000000 = .ok .bsWriteBit := by decide
theorem test_decode_bsWriteBits : decode 0x25000001 = .ok (.bsWriteBits 1) := by decide
theorem test_decode_bsWriteBytes : decode 0x26000002 = .ok (.bsWriteBytes 2) := by decide
theorem test_decode_bsFinish : decode 0x27000000 = .ok .bsFinish := by decide
theorem test_decode_bsStatus : decode 0x28000000 = .ok .bsStatus := by decide
theorem test_decode_pqClear : decode 0x30000000 = .ok .pqClear := by decide
theorem test_decode_pqPush : decode 0x31000000 = .ok .pqPush := by decide
theorem test_decode_pqPop : decode 0x32000000 = .ok .pqPop := by decide
theorem test_decode_pqSize : decode 0x33000000 = .ok .pqSize := by decide
theorem test_decode_hdClear : decode 0x40000000 = .ok .hdClear := by decide
theorem test_decode_hdInsert : decode 0x41000000 = .ok .hdInsert := by decide
theorem test_decode_hdRemoveOldest : decode 0x42000000 = .ok .hdRemoveOldest := by decide
theorem test_decode_hdCount : decode 0x43000000 = .ok .hdCount := by decide
theorem test_decode_hdGet : decode 0x44000000 = .ok .hdGet := by decide
theorem test_decode_cwClear : decode 0x50000000 = .ok .cwClear := by decide
theorem test_decode_cwWrite : decode 0x51000000 = .ok .cwWrite := by decide
theorem test_decode_cwRead : decode 0x52000000 = .ok .cwRead := by decide
theorem test_decode_cwMoveCursor : decode 0x53000000 = .ok .cwMoveCursor := by decide
theorem test_decode_cwStatus : decode 0x54000000 = .ok .cwStatus := by decide
theorem test_decode_htClear : decode 0x60000000 = .ok .htClear := by decide
theorem test_decode_htBuild : decode 0x61000000 = .ok .htBuild := by decide
theorem test_decode_htNode : decode 0x62000000 = .ok .htNode := by decide
theorem test_decode_htCode : decode 0x63000007 = .ok (.htCode 7) := by decide
theorem test_decode_lzssFind : decode 0x70000000 = .ok .lzssFind := by decide
theorem test_decode_lzwClear : decode 0x80000000 = .ok .lzwClear := by decide
theorem test_decode_lzwLookup : decode 0x81000000 = .ok .lzwLookup := by decide
theorem test_decode_lzwInsert : decode 0x82000000 = .ok .lzwInsert := by decide
theorem test_decode_lzwWidth : decode 0x83000000 = .ok .lzwWidth := by decide
theorem test_decode_lzwStatus : decode 0x84000000 = .ok .lzwStatus := by decide
theorem test_decode_lzwEntry : decode 0x85000000 = .ok .lzwEntry := by decide
/-- B11 to B15, S2 to S4 of 95_test_vectors.md: words that are no command. -/
theorem test_decode_illegal :
    decode 0x22000000 = .error .immediate ∧ decode 0x22000021 = .error .immediate ∧ decode 0x23000005 = .error .immediate ∧
    decode 0x21000001 = .error .immediate ∧ decode 0x21000100 = .error .reserved ∧ decode 0x02000000 = .error .opcode ∧
    decode 0x90000000 = .error .opcode ∧ decode 0x00000001 = .error .immediate := by decide

/-! ### A small block -/

/-- A block with 64-byte buffers. -/
def smallParams : Config.Params :=
  { inCap := 64, outCap := 64, tagHuf := 0x57504B48, tagLzss := 0x57504B53, tagLzw := 0x57504B57 }

/-- The same block with one byte of output. -/
def tinyParams : Config.Params := { smallParams with outCap := 1 }

/-- The block after power-on. -/
def clean : State := State.powerOn smallParams

/-- The block with bytes at the start of IN and IN_LEN their number. -/
def loaded (bytes : List Byte) : State :=
  { clean with inBuf := Memory.store [] 0 bytes, inLen := BitVec.ofNat 32 bytes.length }

/-- The command word accepted with its operands. -/
def ready (s : State) (w a0 a1 : Word) : State := State.accept { s with cmd := w, arg0 := a0, arg1 := a1 }

/-- The state a step leaves. -/
def after : Out → State
  | .next t => t
  | .fault _ => clean
  | .refused _ => clean

/-- One step with a command word. -/
def run (s : State) (w : Word) (a0 a1 : Word := 0) : State := after (step (ready s w a0 a1))

/-- STATUS and RESULT0..2 after a step. -/
def shows (s : State) (w : Word) (a0 a1 : Word := 0) : List Nat :=
  match step (ready s w a0 a1) with
  | .next t => [t.statusWord.toNat, t.result0.toNat, t.result1.toNat, t.result2.toNat]
  | .fault _ => []
  | .refused _ => []

/-- OUT[0..OUT_LEN-1]. -/
def output (s : State) : List Nat := s.outBytes.map BitVec.toNat

/-- The bytes of a tag. -/
def tagBytes (tag : Word) : List Byte := (List.range 4).map (fun i => tag.extractLsb' (24 - 8 * i) 8)

/-! ### One step per command -/

/-- S1, S4, S10. -/
theorem test_nop : shows clean 0 = [0x02, 0, 0, 0] ∧ shows clean 1 = [0x66, 0, 0, 0] := by decide +kernel
theorem test_clearAll : (run { clean with pq := [{ weight := 1, payload := 2 }], outLen := 3 } 0x01000000).pq = [] ∧
    (run { clean with outLen := 3 } 0x01000000).outLen = 0 := by decide +kernel

/-- B1, B2, B3, B4, B6 on A5 3C. -/
def reading (rpos : Nat) : State := { loaded [0xA5, 0x3C] with bs := { Shifter.cleared with rpos := rpos } }
theorem test_bsReadBit : shows (reading 0) 0x21000000 = [0x02, 1, 1, 0] ∧ shows (reading 16) 0x21000000 = [0x26, 0, 0, 0] := by
  decide +kernel
theorem test_bsReadBits : shows (reading 4) 0x22000008 = [0x02, 0x53, 12, 0] ∧
    shows (reading 12) 0x22000005 = [0x26, 0, 0, 0] := by decide +kernel
/-- B8, B9. -/
theorem test_bsReadBytes : shows (loaded [0x12, 0x34, 0x56, 0x78]) 0x23000004 = [0x02, 0x12345678, 32, 0] ∧
    shows { loaded [0x12, 0x34, 0x56, 0x78] with bs := { Shifter.cleared with rpos := 1 } } 0x23000001 = [0x02, 0x24, 9, 0] := by
  decide +kernel
/-- B16. -/
theorem test_too_long : shows { clean with inLen := 65 } 0x21000000 = [0x56, 0, 0, 0] := by decide +kernel

/-- W2 to W9, with the bytes and pending bits that the row before leaves. -/
def writing (bytes : List Byte) (acc : Byte) (nacc : Nat) : State :=
  { clean with
    outBuf := Memory.store [] 0 bytes
    outLen := BitVec.ofNat 32 bytes.length
    bs := { rpos := 0, acc := acc, nacc := nacc } }
theorem test_bsStatus : shows (writing [] 5 3) 0x28000000 = [0x02, 0, 0, 0x0503] := by decide +kernel
theorem test_bsWriteBit : shows (writing [] 5 3) 0x24000000 1 = [0x02, 0, 4, 0] ∧
    (run (writing [] 5 3) 0x24000000 1).bs.acc = 0xB := by decide +kernel
theorem test_bsWriteBits : shows (writing [] 0xB 4) 0x2500000C 0xABC = [0x02, 2, 0, 0] ∧
    output (run (writing [] 0xB 4) 0x2500000C 0xABC) = [0xBA, 0xBC] := by decide +kernel
theorem test_bsWriteBytes : shows (writing [0xBA, 0xBC, 0x30] 1 1) 0x26000002 0xBEEF = [0x02, 5, 1, 0] ∧
    output (run (writing [0xBA, 0xBC, 0x30] 1 1) 0x26000002 0xBEEF) = [0xBA, 0xBC, 0x30, 0xDF, 0x77] := by decide +kernel
theorem test_bsFinish : shows (writing [0xBA, 0xBC] 3 4) 0x27000000 = [0x02, 3, 0, 0] ∧
    output (run (writing [0xBA, 0xBC] 3 4) 0x27000000) = [0xBA, 0xBC, 0x30] := by decide +kernel
theorem test_bsInit : (run (writing [0xBA] 3 4) 0x20000000).outLen = 0 ∧ (run (writing [0xBA] 3 4) 0x20000000).bs.nacc = 0 := by
  decide +kernel
/-- C3, C4: one byte of output. -/
theorem test_full : shows { writing [0x55] 1 1 with params := tinyParams } 0x25000007 = [0x56, 0, 0, 0] ∧
    shows { writing [0x55] 1 1 with params := tinyParams } 0x27000000 = [0x56, 0, 0, 0] := by decide +kernel

/-- The heap of row Q5, and the one of Q4. -/
def heapQ5 : List HeapEntry := [⟨1, 0x44⟩, ⟨3, 0x42⟩, ⟨5, 0x43⟩, ⟨5, 0x41⟩, ⟨3, 0x45⟩]
def heapQ3 : List HeapEntry := [⟨3, 0x42⟩, ⟨5, 0x41⟩, ⟨5, 0x43⟩]
theorem test_pqPush : (run { clean with pq := heapQ3 } 0x31000000 1 0x44).pq =
      [⟨1, 0x44⟩, ⟨3, 0x42⟩, ⟨5, 0x43⟩, ⟨5, 0x41⟩] ∧
    shows { clean with pq := heapQ3 } 0x31000000 1 0x44 = [0x02, 4, 0, 0] := by decide +kernel
theorem test_pqPop : (run { clean with pq := heapQ5 } 0x32000000).pq =
      [⟨3, 0x45⟩, ⟨3, 0x42⟩, ⟨5, 0x43⟩, ⟨5, 0x41⟩] ∧
    shows { clean with pq := heapQ5 } 0x32000000 = [0x02, 1, 0x44, 4] := by decide +kernel
/-- Q9, Q12: the right child of the tie order; the empty heap. -/
theorem test_pqPop_tie : shows { clean with pq := [⟨3, 0x42⟩, ⟨5, 0x41⟩, ⟨5, 0x43⟩] } 0x32000000 = [0x02, 3, 0x42, 2] ∧
    shows clean 0x32000000 = [0x76, 0, 0, 0] := by decide +kernel
theorem test_pqSize : shows { clean with pq := heapQ5 } 0x33000000 = [0x02, 5, 1, 0x44] ∧
    shows clean 0x33000000 = [0x02, 0, 0, 0] := by decide +kernel
theorem test_pqClear : (run { clean with pq := heapQ5 } 0x30000000).pq = [] := by decide +kernel

/-- The dictionary of row H3. -/
def dictH3 : Dict := [(0x616263, [0, 3]), (0x626364, [1])]
theorem test_hdInsert : (run { clean with hd := [(0x616263, [0, 3])] } 0x41000000 0x626364 1).hd = dictH3 ∧
    shows { clean with hd := [(0x616263, [0, 3])] } 0x41000000 0x626364 1 = [0x02, 1, 3, 0] := by decide +kernel
theorem test_hdGet : shows { clean with hd := dictH3 } 0x44000000 0x616263 0 = [0x02, 3, 0, 0] ∧
    shows { clean with hd := dictH3 } 0x44000000 0x616263 2 = [0x36, 0, 0, 0] := by decide +kernel
theorem test_hdCount : shows { clean with hd := dictH3 } 0x43000000 0xFF616263 = [0x02, 2, 3, 0] := by decide +kernel
theorem test_hdRemoveOldest : shows { clean with hd := dictH3 } 0x42000000 0x616263 = [0x02, 0, 1, 2] ∧
    shows { clean with hd := dictH3 } 0x42000000 0 = [0x76, 0, 0, 0] := by decide +kernel
theorem test_hdClear : (run { clean with hd := dictH3 } 0x40000000).hd = [] := by decide +kernel
/-- Rule R290: the two keys of H11 and H12 collide; H13. -/
theorem test_hash_collision : refHash 0x1F = 31 ∧ refHash 0x100 = 31 ∧
    Buckets.list (Buckets.removeOldest (Buckets.insert (Buckets.insert [] 0x1F 10) 0x100 20) 0x100) 0x1F = [10] := by
  decide +kernel

/-- The window of row V3, and one that has wrapped with the cursor at position 1 (V15). -/
def windowV3 : Window := { buf := [(0, 0x61), (1, 0x62), (2, 0x63)], head := 3, cursor := 0 }
def windowV15 : Window := { buf := [(0, 0xAA), (1, 0x01)], head := 4114, cursor := 1 }
theorem test_cwWrite : shows { clean with cw := windowV3 } 0x51000000 0x164 = [0x02, 3, 0, 0] ∧
    shows { clean with cw := { windowV15 with head := 4113, cursor := 0 } } 0x51000000 0xAA = [0x36, 0, 0, 0] := by decide +kernel
/-- V9, V7. -/
theorem test_cwRead : shows { clean with cw := { windowV3 with cursor := 3 } } 0x52000000 0xFFFFFFFD = [0x02, 0x61, 0, 0] ∧
    shows { clean with cw := windowV3 } 0x52000000 0xFFFFFFFF = [0x36, 0, 0, 0] := by decide +kernel
/-- V17, V16. -/
theorem test_cwRead_wrapped : shows { clean with cw := windowV15 } 0x52000000 4112 = [0x02, 0xAA, 4113, 0] ∧
    shows { clean with cw := windowV15 } 0x52000000 0xFFFFFFFF = [0x36, 0, 0, 0] := by decide +kernel
/-- V8, V10. -/
theorem test_cwMoveCursor : shows { clean with cw := windowV3 } 0x53000000 3 = [0x02, 3, 0, 0] ∧
    shows { clean with cw := { windowV3 with cursor := 3 } } 0x53000000 1 = [0x36, 0, 0, 0] := by decide +kernel
/-- V19. -/
theorem test_cwStatus : shows { clean with cw := windowV15 } 0x54000000 = [0x02, 4114, 1, 4113] := by decide +kernel
theorem test_cwClear : (run { clean with cw := windowV3 } 0x50000000).cw.head = 0 := by decide +kernel

/-- b"aab" and b"A". -/
def aab : List Byte := [0x61, 0x61, 0x62]
/-- HT_BUILD of b"aab": five nodes, 3 = (1, 2) and 4 = (0, 3). -/
theorem test_htBuild : shows (loaded aab) 0x61000000 = [0x02, 4, 5, 2] ∧
    (run (loaded aab) 0x61000000).ht.nodes =
      [.leaf 0x61 2, .leaf 0x62 1, .eof 1, .internal 1 2 2, .internal 0 3 4] := by decide +kernel
/-- The tree of b"aab" in a block. -/
def treed : State := { clean with ht := buildTree aab }
theorem test_htNode : shows treed 0x62000000 3 = [0x02, 0x100, 2, 0x00010002] ∧ shows treed 0x62000000 5 = [0x36, 0, 0, 0] := by
  decide +kernel
theorem test_htCode : shows treed 0x63000000 0x62 = [0x02, 2, 0x80000000, 1] ∧ shows treed 0x63000000 0x7A = [0x02, 0, 0, 0] := by
  decide +kernel
theorem test_htClear : shows (run treed 0x60000000) 0x62000000 0 = [0x36, 0, 0, 0] := by decide +kernel

/-- b"aaaaaaaaaa". -/
def tenA : List Byte := List.replicate 10 0x61
theorem test_lzssFind : shows (loaded tenA) 0x70000000 1 = [0x02, 9, 1, 0] ∧ shows (loaded tenA) 0x70000000 11 = [0x36, 0, 0, 0] := by
  decide +kernel
/-- b"abcXabcYabc": equal lengths, the smaller offset wins. -/
theorem test_lzssFind_tie :
    shows (loaded [0x61, 0x62, 0x63, 0x58, 0x61, 0x62, 0x63, 0x59, 0x61, 0x62, 0x63]) 0x70000000 8 = [0x02, 3, 4, 0] := by
  decide +kernel

theorem test_lzwLookup : shows { clean with lzw := [⟨0x41, 0x42⟩] } 0x81000000 0x41 0x142 = [0x02, 1, 257, 0] ∧
    shows clean 0x81000000 0xFFFFFFFF 0x41 = [0x02, 1, 0x41, 0] := by decide +kernel
theorem test_lzwInsert : shows { clean with lzw := [⟨0x41, 0x42⟩] } 0x82000000 257 0x43 = [0x02, 258, 9, 0] ∧
    shows { clean with lzw := [⟨0x41, 0x42⟩] } 0x82000000 0x41 0x42 = [0x76, 0, 0, 0] := by decide +kernel
theorem test_lzwWidth : shows clean 0x83000000 512 = [0x02, 10, 0, 0] ∧ shows clean 0x83000000 65536 = [0x36, 0, 0, 0] := by
  decide +kernel
theorem test_lzwStatus : shows { clean with lzw := [⟨0x41, 0x42⟩] } 0x84000000 = [0x02, 258, 9, 1] := by decide +kernel
theorem test_lzwEntry : shows { clean with lzw := [⟨0x41, 0x42⟩, ⟨257, 0x43⟩] } 0x85000000 258 = [0x02, 257, 0x43, 3] ∧
    shows clean 0x85000000 256 = [0x36, 0, 0, 0] := by decide +kernel
theorem test_lzwClear : (run { clean with lzw := [⟨0x41, 0x42⟩] } 0x80000000).lzw = [] := by decide +kernel

/-! ### The codecs: section 2.5 to 2.9 and P2 -/

theorem test_hufCompress : shows (loaded [0x41]) 0x10000000 = [0x02, 7, 54, 3] ∧
    output (run (loaded [0x41]) 0x10000000) = [0x57, 0x50, 0x4B, 0x48, 0x50, 0x60, 0x14] := by decide +kernel
theorem test_hufDecompress : shows (loaded (tagBytes 0x57504B48 ++ [0x50, 0x60, 0x14])) 0x11000000 = [0x02, 1, 54, 3] ∧
    output (run (loaded (tagBytes 0x57504B48 ++ [0x50, 0x60, 0x14])) 0x11000000) = [0x41] := by decide +kernel
theorem test_lzssCompress : shows (loaded tenA) 0x12000000 = [0x02, 10, 75, 1] ∧
    (output (run (loaded tenA) 0x12000000)).drop 4 = [0x30, 0xC0, 0x05, 0xA0, 0x00, 0x00] := by decide +kernel
theorem test_lzssDecompress :
    shows (loaded (tagBytes 0x57504B53 ++ [0x30, 0xC0, 0x05, 0xA0, 0x00, 0x00, 0xFF, 0xFF])) 0x13000000 = [0x02, 10, 75, 1] ∧
    shows (loaded (tagBytes 0x57504B53 ++ [0x80, 0x28, 0x00])) 0x13000000 = [0x36, 0, 0, 0] := by decide +kernel
theorem test_lzwCompress : shows (loaded (List.replicate 7 0x61)) 0x14000000 = [0x02, 10, 77, 0] ∧
    (output (run (loaded (List.replicate 7 0x61)) 0x14000000)).drop 4 = [0x30, 0xC0, 0x60, 0x46, 0x18, 0x00] := by decide +kernel
theorem test_lzwDecompress : shows (loaded (tagBytes 0x57504B57 ++ [0x20, 0xC0, 0x60, 0x00])) 0x15000000 = [0x02, 3, 59, 0] ∧
    shows (loaded (tagBytes 0x57504B57 ++ [0x96, 0x00])) 0x15000000 = [0x46, 0, 0, 0] := by decide +kernel

/-! ### The host port: section 2.12 -/

/-- STATUS, IRQ and the newest value read after a host access. -/
def hosted (s : State) (a : Access) : List Nat :=
  match step { s with agenda := [.host a] } with
  | .next t => [t.statusWord.toNat, t.irq.toNat, (t.readLog.headD 0).toNat]
  | .fault _ => []
  | .refused _ => []

/-- S5: the acknowledgement after an error. -/
theorem test_ack : hosted { clean with done := true, err := some .illegalCommand } (.write .reg 4 4 0x102) = [0x64, 0, 0] := by
  decide +kernel
/-- S8, S9. -/
theorem test_violation : hosted (ready clean 0 0 0) (.write .reg 8 4 7) = [0x101, 0, 0] ∧
    hosted { clean with err := some .stateError } (.write .reg 0 4 5) = [0, 0, 0] := by decide +kernel
/-- D9: a write to OUT while BUSY = 1 is flagged like any other; while BUSY = 0 it is ignored (R72). -/
theorem test_write_out : hosted (ready clean 0 0 0) (.write .output 0 1 9) = [0x101, 0, 0] ∧
    hosted clean (.write .output 0 1 9) = [0, 0, 0] := by decide +kernel
/-- S7: IRQ, and CTRL reads 2. -/
theorem test_irq : hosted { clean with irqEn := true, done := true } (.read .reg 0 4) = [0x02, 1, 2] := by decide +kernel
/-- S11, S12. -/
theorem test_reads : hosted clean (.read .reg 0x3C 4) = [0, 0, 1] ∧ hosted clean (.read .reg 0x40 4) = [0, 0, 0] ∧
    hosted clean (.read .reg 0x28 4) = [0, 0, 64] := by decide +kernel
/-- R71. -/
theorem test_odd_access : hosted clean (.read .reg 2 4) = [] ∧ hosted clean (.read .input 0 4) = [] := by decide +kernel
/-- The word the host's probe places runs as the next step after reset. -/
theorem test_fetch : shows clean 0x83000000 0 = [0x02, 9, 0, 0] ∧
    (after (step (State.withFetchWord clean 32 0x83000000))).result0 = 9 ∧ decodeTableWord 32 0x83000000 = some .lzwWidth := by
  decide +kernel

/-! ### Witnesses: a concrete state and operands that meet the hypotheses of every statement, for each of its clauses -/

/-- A command's meaning answers `after` of itself. -/
theorem exec_after {i : Instr} {s : State} (h : ∃ t, exec i s = .next t) : exec i s = .next (after (exec i s)) := by
  obtain ⟨t, h⟩ := h
  rw [h]
  rfl

/-- The state with one move to come. -/
def facing (s : State) (e : Event) : State := { s with agenda := [e] }

/-- The state with the operands of an accepted command. -/
def given (s : State) (a0 a1 : Word) : State := ready s 0 a0 a1

theorem witness_DecodeOfEncode : Instr.wellFormed (.bsReadBits 1) = true ∧ Instr.wellFormed (.bsWriteBits 32) = true ∧
    Instr.wellFormed (.bsReadBytes 4) = true ∧ Instr.wellFormed (.htCode 7) = true := by decide

theorem witness_EveryWordIsOneCommandOrIllegal : decode 0x63000007 = .ok (.htCode 7) := by decide

theorem witness_StepRunsLatchedCommand :
    (ready clean 0x33000000 0 0).latch = some { cmd := 0x33000000, arg0 := 0, arg1 := 0, inLen := 0 } ∧
    decode 0x33000000 = .ok .pqSize ∧ (ready clean 0x33000000 0 0).agenda = [] ∧
    (facing (ready clean 0x33000000 0 0) .engine).agenda = .engine :: [] := by decide +kernel

theorem witness_IllegalWordCompletes :
    (ready clean 0x02000000 0 0).latch = some { cmd := 0x02000000, arg0 := 0, arg1 := 0, inLen := 0 } ∧
    ¬ LegalWord 0x02000000 ∧ (ready clean 0x02000000 0 0).agenda = [] ∧
    (facing (ready clean 0x02000000 0 0) .engine).agenda = .engine :: [] := by
  refine ⟨by decide, ?_, by decide, by decide⟩
  unfold LegalWord
  decide +kernel

theorem witness_StartIssuesCommand :
    (facing clean (.host (.write .reg 0 4 3))).agenda = .host (.write .reg 0 4 3) :: [] ∧
    (facing clean (.host (.write .reg 0 4 3))).busy = false ∧ (3 : Word).getLsbD 0 = true ∧ (3 : Word).getLsbD 2 = false := by
  decide

theorem witness_WriteWhileBusyOnlyViolates : (ready clean 0 0 0).busy = true ∧
    (0xFFC % 4 = 0 ∧ 0xFFC < 4096 ∧ ¬ (0xFFC = 0 ∧ (7 : Word).getLsbD 2 = true)) ∧
    ¬ (0 = 0 ∧ (3 : Word).getLsbD 2 = true) := by decide

theorem witness_WriteWhileBusyOnlyViolates_cleared :
    ∃ t, step (facing { clean with violation := true } (.host (.write .reg 4 4 0x100))) = .next t ∧
      (facing { clean with violation := true } (.host (.write .reg 4 4 0x100))).violation = true ∧ t.violation = false :=
  ⟨_, rfl, rfl, rfl⟩

theorem witness_SoftResetRestoresReset : (5 : Word).getLsbD 2 = true ∧
    (facing clean (.host (.write .reg 0 4 5))).busy = false ∧ (facing (ready clean 0 0 0) (.host (.write .reg 0 4 5))).busy = true := by
  decide

/-- A codec command in progress that may write 7 bytes of OUT, one of the bitstream that may write the byte at OUT_LEN, and an illegal
word. -/
theorem witness_SoftResetRestoresReset_busy :
    ((ready (loaded [0x41]) 0x10000000 0 0).busy = true ∧
      decode (ready (loaded [0x41]) 0x10000000 0 0).operands.cmd = .ok .hufCompress ∧
      (outSpan (ready (loaded [0x41]) 0x10000000 0 0) .hufCompress).1 +
        (outSpan (ready (loaded [0x41]) 0x10000000 0 0) .hufCompress).2 ≤ 7) ∧
    (decode (ready (writing [0xBA] 0xB 4) 0x25000004 5 0).operands.cmd = .ok (.bsWriteBits 4) ∧
      0 < (outSpan (ready (writing [0xBA] 0xB 4) 0x25000004 5 0) (.bsWriteBits 4)).1) ∧
    decode (ready clean 0x02000000 0 0).operands.cmd = .error .opcode := by decide +kernel

theorem witness_StatusWriteAcknowledges :
    (facing { clean with done := true } (.host (.write .reg 4 4 0x102))).agenda = .host (.write .reg 4 4 0x102) :: [] ∧
    (facing { clean with done := true } (.host (.write .reg 4 4 0x102))).busy = false := by decide

theorem witness_DoneRisesOnlyAtCompletion :
    (∃ t, step (ready clean 0 0 0) = .next t ∧ (ready clean 0 0 0).done = false ∧ t.done = true) := ⟨_, rfl, rfl, rfl⟩

theorem witness_RegisterMap_busy : (ready clean 0 0 0).busy = true ∧ 0x24 % 4 = 0 ∧ 0x24 < 4096 ∧
    (facing (ready clean 0 0 0) (.host (.read .reg 0x24 4))).agenda = .host (.read .reg 0x24 4) :: [] ∧
    (facing (ready clean 0 0 0) (.host (.read .reg 4 4))).agenda = .host (.read .reg 4 4) :: [] ∧
    ¬ (4 = 0x14 ∨ 4 = 0x18 ∨ 4 = 0x1C ∨ 4 = 0x24) := by decide

theorem witness_RegisterMap_ctrl : (facing clean (.host (.write .reg 0 4 0xFFFFFFFA))).agenda = .host (.write .reg 0 4 0xFFFFFFFA) :: [] ∧
    clean.busy = false ∧ (0xFFFFFFFA : Word).getLsbD 0 = false ∧ (0xFFFFFFFA : Word).getLsbD 2 = false := by decide

theorem witness_RegisterMap : clean.busy = false ∧ 0x3C % 4 = 0 ∧ 0x3C < 4096 ∧ 0xFFC % 4 = 0 ∧ 0xFFC < 4096 ∧
    (facing clean (.host (.read .reg 0xFFC 4))).agenda = .host (.read .reg 0xFFC 4) :: [] ∧
    (facing clean (.host (.write .reg 0x20 4 9))).agenda = .host (.write .reg 0x20 4 9) :: [] ∧ 0x20 ≠ 0 ∧ 0x20 ≠ 4 := by decide

theorem witness_BufferAccesses_busy : (ready clean 0 0 0).busy = true ∧
    (facing (ready clean 0 0 0) (.host (.read .output 64 1))).agenda = .host (.read .output 64 1) :: [] ∧
    (facing (ready clean 0 0 0) (.host (.read .input 63 1))).agenda = .host (.read .input 63 1) :: [] ∧
    (facing (ready clean 0 0 0) (.host (.write .output 0 1 9))).agenda = .host (.write .output 0 1 9) :: [] := by decide

theorem witness_BufferAccesses : clean.busy = false ∧ 63 < clean.params.inCap ∧ ¬ 64 < clean.params.inCap ∧
    (facing clean (.host (.read .input 63 1))).agenda = .host (.read .input 63 1) :: [] ∧
    (facing clean (.host (.read .output 64 1))).agenda = .host (.read .output 64 1) :: [] ∧
    (facing clean (.host (.write .output 0 1 9))).agenda = .host (.write .output 0 1 9) :: [] ∧
    (facing clean (.host (.write .input 63 1 9))).agenda = .host (.write .input 63 1 9) :: [] := by decide

theorem witness_OddAccessesAreRefused : (4 ≠ 4 ∨ 2 % 4 ≠ 0) ∧ (1 ≠ 4 ∨ 0 % 4 ≠ 0) ∧ (Space.input ≠ Space.reg ∧ 4 ≠ 1) := by decide

theorem witness_NothingMovesWhileBusy : ∃ t, (facing (ready clean 0 0 0) (.host (.read .reg 4 4))).busy = true ∧
    step (facing (ready clean 0 0 0) (.host (.read .reg 4 4))) = .next t ∧ t.busy = true := ⟨_, rfl, rfl, rfl⟩

theorem witness_CommandsLeaveHostSide : ∃ t, exec .pqPush (given clean 3 7) = .next t := ⟨_, rfl⟩

theorem witness_CommandsLeaveOutput : ¬ StoresOut .bsInit ∧ ¬ ChangesOutLen .pqPush ∧
    (∃ t, exec .bsInit clean = .next t) ∧ (∃ t, exec .pqPush clean = .next t) ∧
    outSpan (given (writing [0xBA] 0xB 4) 0xABC 0) (.bsWriteBits 12) = (1, 2) ∧
    outSpan { loaded [0x41] with params := { smallParams with outCap := 5 } } .hufCompress = (0, 5) := by
  refine ⟨?_, ?_, ⟨_, rfl⟩, ⟨_, rfl⟩, by decide +kernel, by decide +kernel⟩ <;> simp [ChangesOutLen, StoresOut, IsCodec, WriteForm]

theorem witness_CommandsLeaveOtherUnits : ¬ ClearsAll .cwWrite ∧ (∀ n, ¬ ReadForm .cwWrite n) ∧ (∀ n, ¬ WriteForm .cwWrite n) ∧
    ∃ t, exec .cwWrite clean = .next t := by
  refine ⟨?_, ?_, ?_, ⟨_, rfl⟩⟩ <;> simp [ClearsAll, IsCodec, ReadForm, WriteForm]

theorem witness_FailedPrimitiveChangesNothing :
    ¬ IsCodec .pqPop ∧ ∃ t, exec .pqPop clean = .next t ∧ t.err = some .stateError := ⟨by simp [IsCodec], _, rfl, rfl⟩

theorem witness_CodecEndsWithUnitsCleared : IsCodec .lzwDecompress ∧
    ∃ t, exec .lzwDecompress (given (loaded [1, 2, 3]) 0 0) = .next t ∧ t.err = some .unexpectedEndOfStream :=
  ⟨by simp [IsCodec], _, rfl, by decide +kernel⟩

theorem witness_CodecResultIgnoresHistory :
    (loaded aab).params = ({ loaded aab with lzw := [⟨0x41, 0x42⟩], pq := heapQ5 } : State).params ∧
    (loaded aab).opLen = ({ loaded aab with lzw := [⟨0x41, 0x42⟩], pq := heapQ5 } : State).opLen ∧
    (∀ a, a < (loaded aab).opLen → (loaded aab).inByte a = ({ loaded aab with lzw := [⟨0x41, 0x42⟩], pq := heapQ5 } : State).inByte a) ∧
    (∃ t, exec .lzwCompress (loaded aab) = .next t) ∧
    ∃ t, exec .lzwCompress { loaded aab with lzw := [⟨0x41, 0x42⟩], pq := heapQ5 } = .next t :=
  ⟨rfl, rfl, fun _ _ => rfl, ⟨_, rfl⟩, ⟨_, rfl⟩⟩

theorem witness_CommandsReadOnlyValidInput :
    (∀ a, a < (loaded aab).opLen → ({ loaded aab with inBuf := Sparse.put (loaded aab).inBuf 3 0x7A } : State).inByte a = (loaded aab).inByte a) ∧
    (∃ t, exec .htBuild (loaded aab) = .next t) ∧
    ∃ t, exec .htBuild { loaded aab with inBuf := Sparse.put (loaded aab).inBuf 3 0x7A } = .next t :=
  ⟨by decide +kernel, ⟨_, rfl⟩, ⟨_, rfl⟩⟩

theorem witness_TooLongInputIsRefused : ({ clean with inLen := 65 } : State).params.inCap < ({ clean with inLen := 65 } : State).opLen ∧
    IsCodec .hufCompress ∧ ReadForm .bsReadBit 1 := ⟨by decide, by simp [IsCodec], .inl ⟨rfl, rfl⟩⟩

theorem witness_ReadsReturnTheNextBits : ReadForm (.bsReadBits 32) 32 ∧ ReadForm (.bsReadBytes 1) 8 ∧ ReadForm .bsReadBit 1 ∧
    (loaded [0x12, 0x34, 0x56, 0x78]).opLen ≤ (loaded [0x12, 0x34, 0x56, 0x78]).params.inCap ∧
    (loaded [0x12, 0x34, 0x56, 0x78]).bs.rpos + 32 ≤ 8 * (loaded [0x12, 0x34, 0x56, 0x78]).opLen :=
  ⟨.inr (.inl ⟨32, rfl, by decide, by decide, rfl⟩), .inr (.inr ⟨1, rfl, by decide, by decide, rfl⟩), .inl ⟨rfl, rfl⟩, by decide, by decide⟩

theorem witness_BitstreamErrors : (reading 16).opLen ≤ (reading 16).params.inCap ∧ 8 * (reading 16).opLen < (reading 16).bs.rpos + 1 ∧
    ReadForm .bsReadBit 1 ∧ WriteForm (.bsWriteBits 7) 7 ∧
    ({ writing [0x55] 1 1 with params := tinyParams } : State).params.outCap <
      ({ writing [0x55] 1 1 with params := tinyParams } : State).outLen.toNat + (1 + 7) / 8 ∧
    ({ writing [0x55] 1 1 with params := tinyParams } : State).params.outCap <
      ({ writing [0x55] 1 1 with params := tinyParams } : State).outLen.toNat + (if 0 < 1 then 1 else 0) :=
  ⟨by decide, by decide, .inl ⟨rfl, rfl⟩, .inr (.inl ⟨7, rfl, by decide, by decide, rfl⟩), by decide, by decide⟩

/-- A partly written output of a block whose output the next write fills: one byte, then room for one more. -/
def nearlyFull : State := { writing [0xBA] 0xB 4 with params := { smallParams with outCap := 2 } }

theorem nearlyFull_buffers : BuffersOk nearlyFull := by unfold BuffersOk; decide +kernel
theorem nearlyFull_shifter : ShifterOk nearlyFull := by unfold ShifterOk; decide +kernel

theorem witness_WritesAppendTheBits : WriteForm (.bsWriteBits 11) 11 ∧ WriteForm .bsWriteBit 1 ∧ WriteForm (.bsWriteBytes 1) 8 ∧
    BuffersOk nearlyFull ∧ ShifterOk nearlyFull ∧ nearlyFull.outLen.toNat + (nearlyFull.bs.nacc + 11) / 8 ≤ nearlyFull.params.outCap :=
  ⟨.inr (.inl ⟨11, rfl, by decide, by decide, rfl⟩), .inl ⟨rfl, rfl⟩, .inr (.inr ⟨1, rfl, by decide, by decide, rfl⟩),
    nearlyFull_buffers, nearlyFull_shifter, by decide +kernel⟩

theorem witness_FinishPadsWithZeros : BuffersOk nearlyFull ∧ ShifterOk nearlyFull ∧
    nearlyFull.outLen.toNat + (if 0 < nearlyFull.bs.nacc then 1 else 0) ≤ nearlyFull.params.outCap :=
  ⟨nearlyFull_buffers, nearlyFull_shifter, by decide +kernel⟩

theorem heapQ5_order : HeapOrder heapQ5 := by
  intro i h0 hi
  have : i = 1 ∨ i = 2 ∨ i = 3 ∨ i = 4 := by simp [heapQ5] at hi; omega
  rcases this with rfl | rfl | rfl | rfl <;> decide

theorem witness_HeapCommandsKeepTheEntries : HeapOrder heapQ5 ∧ heapQ5.length < 257 ∧ heapQ5 ≠ [] :=
  ⟨heapQ5_order, by decide, by decide⟩

/-- The last push that fits: 256 equal entries. -/
theorem witness_HeapCommandsKeepTheEntries_full :
    HeapOrder (List.replicate 256 ⟨1, 2⟩) ∧ (List.replicate 256 (⟨1, 2⟩ : HeapEntry)).length < 257 := by
  refine ⟨fun i h0 hi => ?_, by rw [List.length_replicate]; omega⟩
  rw [List.length_replicate] at hi
  unfold heapWeight heapAt
  rw [List.getD_replicate, List.getD_replicate]
  · exact hi
  · omega

theorem dictH3_ok : DictOk { clean with hd := dictH3 } := by unfold DictOk; decide +kernel

theorem witness_DictionaryIsFifoPerKey : DictOk { clean with hd := dictH3 } ∧ Dict.total dictH3 < 4095 ∧
    Dict.list dictH3 ((0xFF616263 : Word).toNat % 2 ^ 24) = 0 :: [3] := ⟨dictH3_ok, by decide, by decide⟩

theorem witness_GetCountsFromNewest : Dict.list dictH3 ((0x616263 : Word).toNat % 2 ^ 24) = [0, 3] ∧
    (1 : Word).toNat < [0, 3].length ∧ ([0, 3] : List Word)[2 - 1 - 1]? = some 0 ∧ ([0, 3] : List Word).length ≤ (2 : Word).toNat := by
  decide

theorem witness_BucketsRefineDictionary : Sparse.wf (Dict.insert [] 0x1F 10) ∧
    ∀ k, k < 2 ^ 24 → Buckets.list (Buckets.insert [] 0x1F 10) k = Dict.list (Dict.insert [] 0x1F 10) k := by
  refine ⟨by decide, fun k _ => ?_⟩
  have hb : Buckets.insert [] 0x1F 10 = [(31, [(0x1F, 10)])] := by decide
  have hd : Dict.insert [] 0x1F 10 = [(0x1F, [10])] := by decide
  rw [hb, hd]
  by_cases h : k = 0x1F
  · subst h; decide
  · have h2 : Dict.list [(0x1F, [10])] k = [] := by simp [Dict.list, Sparse.get, Ne.symm h]
    rw [h2]
    by_cases h3 : refHash k = 31
    · simp [Buckets.list, Buckets.pairs, Sparse.get, h3, Ne.symm h]
    · simp [Buckets.list, Buckets.pairs, Sparse.get, Ne.symm h3]

theorem witness_WindowWriteStoresAtHead : windowV15.head < 2 ^ 32 - 1 ∧ windowV15.head ≤ windowV15.cursor + 4113 ∧
    ({ windowV15 with cursor := 2 } : Window).head + 1 ≤ ({ windowV15 with cursor := 2 } : Window).cursor + 4113 := by decide

theorem witness_WindowAccessByDisplacement :
    (((4113 : Nat) : Int) = windowV15.cursor + (4112 : Word).toInt ∧ windowV15.readable 4113) ∧
    (((1 : Nat) : Int) = windowV15.cursor + (0 : Word).toInt ∧ windowV15.readable 1) ∧
    (∀ p : Nat, (p : Int) = windowV15.cursor + (0xFFFFFFFF : Word).toInt → ¬ windowV15.readable p) ∧
    (((4114 : Nat) : Int) = windowV15.cursor + (4113 : Word).toInt ∧ windowV15.head - 4113 ≤ 4114 ∧ 4114 ≤ windowV15.head) ∧
    (∀ c : Nat, (c : Int) = windowV15.cursor + (4114 : Word).toInt → ¬ (windowV15.head - 4113 ≤ c ∧ c ≤ windowV15.head)) := by
  refine ⟨⟨by decide, by unfold Window.readable; decide⟩, ⟨by decide, by unfold Window.readable; decide⟩, ?_,
    ⟨by decide, by decide, by decide⟩, ?_⟩
  · intro p hp
    have hp : p = 0 := by
      have h : windowV15.cursor + (0xFFFFFFFF : Word).toInt = 0 := by decide
      omega
    subst hp
    unfold Window.readable
    decide
  · intro c hc
    have hc : c = 4115 := by
      have h : windowV15.cursor + (4114 : Word).toInt = 4115 := by decide
      omega
    subst hc
    decide

theorem witness_BuildMakesTheTree : (loaded aab).params.wf = true ∧ (loaded aab).opLen ≤ (loaded aab).params.inCap ∧
    ({ clean with inLen := 64 } : State).opLen ≤ ({ clean with inLen := 64 } : State).params.inCap := by decide +kernel

theorem witness_BuiltTreeIsWellFormed : aab.length ≤ 2 ^ 28 ∧ (buildTree aab).nodes[4]? = some (.internal 0 3 4) := by
  decide +kernel

/-- The tree of b"aab": byte 0x61 occurs, 0x63 does not, and 256 stands for the EOF leaf. -/
theorem witness_CodesArePrefixFree : 0x61 ≤ 256 ∧ BitVec.ofNat 8 0x61 ∈ aab ∧ BitVec.ofNat 8 0x63 ∉ aab ∧ 256 ≤ 256 ∧
    (buildTree aab).codes ≠ [] ∧ nodeAt (buildTree aab).nodes (buildTree aab).root [true, false] = some (.leaf 0x62 1) ∧
    nodeAt (buildTree aab).nodes (buildTree aab).root [true, true] = some (.eof 1) := by decide +kernel

theorem witness_NodeCommandReadsArena : treed.ht.valid = true ∧ treed.ht.nodes[(given treed 0 0).opArg0.toNat]? = some (.leaf 0x61 2) ∧
    treed.ht.nodes[(given treed 4 0).opArg0.toNat]? = some (.internal 0 3 4) ∧
    treed.ht.nodes[(given treed 2 0).opArg0.toNat]? = some (.eof 1) ∧ treed.ht.nodes.length ≤ (given treed 5 0).opArg0.toNat ∧
    clean.ht.valid = false := by decide +kernel

theorem witness_CodeCommandReturnsSlices : (7 : Byte).toNat ≤ 7 ∧ treed.ht.valid = true ∧
    (256 ≤ 256 ∧ ¬ 256 < 256) ∧ (0x61 < 256 ∧ treed.ht.counts.toList.getD 0x61 0 ≠ 0) ∧
    (255 < 256 ∧ treed.ht.counts.toList.getD 255 0 = 0) ∧ 256 < (257 : Word).toNat ∧ 7 < (8 : Byte).toNat := by
  decide +kernel

theorem witness_FindReturnsBestMatch : (loaded tenA).params.wf = true ∧
    ({ clean with inLen := 65 } : State).params.inCap < ({ clean with inLen := 65 } : State).opLen ∧ (loaded tenA).opLen ≤ (loaded tenA).params.inCap ∧
    (given (loaded tenA) 10 0).opArg0.toNat ≤ (loaded tenA).opLen ∧ (loaded tenA).opLen < (given (loaded tenA) 11 0).opArg0.toNat ∧
    (0 < 1 ∧ 1 ≤ 0 + 4095 ∧ 1 + 9 ≤ (loaded tenA).opLen ∧
      ∀ j, j < 9 → (loaded tenA).inByte (0 + j) = (loaded tenA).inByte (1 + j)) := by decide +kernel

theorem witness_WindowEngineRefinesFindMatch : 2 ^ 28 ≤ 2 ^ 28 := Nat.le_refl _

/-- A compress command, and a block whose output holds exactly its stream, or one byte less. -/
def holding (s : State) (outCap : Nat) : State := { s with params := { smallParams with outCap := outCap } }

theorem witness_CompressCommandsComplete : (holding (loaded [0x41]) 7).params.wf = true ∧
    (holding (loaded [0x41]) 7).opLen ≤ (holding (loaded [0x41]) 7).params.inCap ∧
    (∃ tag stream r2, CompressForm (holding (loaded [0x41]) 7).params [0x41] .hufCompress tag stream r2 ∧ (stream.length + 7) / 8 ≤ 7) ∧
    (∃ tag stream r2, CompressForm (holding (loaded [0x41]) 6).params [0x41] .hufCompress tag stream r2 ∧ 6 < (stream.length + 7) / 8) ∧
    (∃ tag stream r2, CompressForm (loaded tenA).params tenA .lzssCompress tag stream r2 ∧ (stream.length + 7) / 8 ≤ 64) ∧
    ∃ tag stream r2, CompressForm (loaded tenA).params tenA .lzwCompress tag stream r2 ∧ (stream.length + 7) / 8 ≤ 64 := by
  refine ⟨by decide, by decide, ?_, ?_, ?_, ?_⟩
  · exact ⟨_, _, _, .inl ⟨rfl, rfl, rfl, rfl⟩, by decide +kernel⟩
  · exact ⟨_, _, _, .inl ⟨rfl, rfl, rfl, rfl⟩, by decide +kernel⟩
  · exact ⟨_, _, _, .inr (.inl ⟨rfl, rfl, rfl, rfl⟩), by decide +kernel⟩
  · exact ⟨_, _, _, .inr (.inr ⟨rfl, rfl, rfl, rfl⟩), by decide +kernel⟩

/-- The streams of b"A", b"aaaaaaaaaa" and b"aaaaaaa" (sections 2.5, 2.7, 2.9). -/
def hufA : List Byte := tagBytes 0x57504B48 ++ [0x50, 0x60, 0x14]
def lzssTenA : List Byte := tagBytes 0x57504B53 ++ [0x30, 0xC0, 0x05, 0xA0, 0x00, 0x00]
def lzwSevenA : List Byte := tagBytes 0x57504B57 ++ [0x30, 0xC0, 0x60, 0x46, 0x18, 0x00]

theorem witness_DecompressCommandsComplete : (loaded hufA).params.wf = true ∧ (loaded hufA).opLen ≤ (loaded hufA).params.inCap ∧
    hufDecompress smallParams hufA = .ok { out := [0x41], r1 := 54, r2 := 3 } ∧ (loaded hufA).inBytes (loaded hufA).opLen = hufA ∧
    lzssDecompress smallParams lzssTenA = .ok { out := tenA, r1 := 75, r2 := 1 } ∧
    lzwDecompress smallParams lzwSevenA = .ok { out := List.replicate 7 0x61, r1 := 77, r2 := 0 } := by decide +kernel

theorem witness_HeaderErrorsOfDecompress : (loaded [0x57, 0x50, 0x4B]).opLen < 4 ∧ 4 ≤ (loaded hufA).opLen ∧
    (loaded hufA).inByte 0 ++ (loaded hufA).inByte 1 ++ (loaded hufA).inByte 2 ++ (loaded hufA).inByte 3 ≠ smallParams.tagLzw := by
  decide +kernel

/-- The output of a command copied to IN, IN_LEN its length (P2). -/
def copied (t : State) : State := { t with inBuf := t.outBuf, inLen := t.outLen }

theorem witness_HuffmanRoundTrip : ∃ t, exec .hufCompress (loaded [0x41]) = .next t ∧ t.err = none ∧
    (loaded [0x41]).opLen ≤ (loaded [0x41]).params.outCap ∧ (copied t).params = (loaded [0x41]).params ∧
    (copied t).opLen ≤ (copied t).params.inCap ∧ (copied t).inBytes (copied t).opLen = t.outBytes :=
  ⟨_, rfl, by decide +kernel, by decide, by decide +kernel, by decide +kernel, by decide +kernel⟩

theorem witness_LzssRoundTrip : ∃ t, exec .lzssCompress (loaded tenA) = .next t ∧ t.err = none ∧
    (loaded tenA).opLen ≤ (loaded tenA).params.outCap ∧ (copied t).params = (loaded tenA).params ∧
    (copied t).opLen ≤ (copied t).params.inCap ∧ (copied t).inBytes (copied t).opLen = t.outBytes :=
  ⟨_, rfl, by decide +kernel, by decide, by decide +kernel, by decide +kernel, by decide +kernel⟩

theorem witness_LzwRoundTrip : ∃ t, exec .lzwCompress (loaded tenA) = .next t ∧ t.err = none ∧
    (loaded tenA).opLen ≤ (loaded tenA).params.outCap ∧ (copied t).params = (loaded tenA).params ∧
    (copied t).opLen ≤ (copied t).params.inCap ∧ (copied t).inBytes (copied t).opLen = t.outBytes :=
  ⟨_, rfl, by decide +kernel, by decide, by decide +kernel, by decide +kernel, by decide +kernel⟩

theorem witness_WidthIsLeastThatFits : (65535 : Word).toNat ≤ 65535 ∧ 65535 < (65536 : Word).toNat := by decide

/-- The dictionary of rows Z4 and Z7. -/
def trieZ7 : Trie := [⟨0x41, 0x42⟩, ⟨257, 0x43⟩]

theorem trieZ7_ok : TrieOk { clean with lzw := trieZ7 } := by
  refine ⟨by decide, fun i e h => ?_, by decide⟩
  have : i = 0 ∨ i = 1 := by
    by_contra hc
    have hn : ({ clean with lzw := trieZ7 } : State).lzw[i]? = none := List.getElem?_eq_none (by simp [trieZ7]; omega)
    rw [hn] at h
    cases h
  rcases this with rfl | rfl <;> cases h <;> decide

/-- A dictionary one entry short of its flush. -/
def trieFull : Trie := (List.range 65278).map (fun i => { parent := i % 256, last := BitVec.ofNat 8 (i / 256) })

theorem trieFull_length : trieFull.length = 65278 := by rw [trieFull, List.length_map, List.length_range]

theorem trieFull_ok : TrieOk { clean with lzw := trieFull } := by
  have hl := trieFull_length
  refine ⟨by dsimp only; omega, fun i e h => ?_, ?_⟩
  · simp only [trieFull, List.getElem?_map, Option.map_eq_some_iff] at h
    obtain ⟨j, hj, rfl⟩ := h
    have : j % 256 < 256 := Nat.mod_lt _ (by decide)
    exact ⟨by dsimp only; omega, by dsimp only; omega⟩
  · dsimp only
    rw [trieFull]
    refine List.Nodup.map_on (fun x hx y hy hxy => ?_) List.nodup_range
    simp only [List.mem_range] at hx hy
    simp only [TrieEntry.mk.injEq] at hxy
    have h2 := congrArg BitVec.toNat hxy.2
    simp only [BitVec.toNat_ofNat] at h2
    omega

theorem witness_InsertAssignsNextIndex : TrieOk { clean with lzw := trieZ7 } ∧ (258 : Word).toNat ≠ 256 ∧
    (258 : Word).toNat < 257 + trieZ7.length ∧ Trie.child trieZ7 258 0x43 = none ∧ trieZ7.length < 65278 :=
  ⟨trieZ7_ok, by decide, by decide, by decide, by decide⟩

theorem witness_InsertAssignsNextIndex_flush : TrieOk { clean with lzw := trieFull } ∧ (255 : Word).toNat ≠ 256 ∧
    (255 : Word).toNat < 257 + trieFull.length ∧ Trie.child trieFull 255 255 = none ∧ trieFull.length = 65278 := by
  refine ⟨trieFull_ok, by decide, by rw [trieFull_length]; decide, ?_, trieFull_length⟩
  unfold Trie.child
  rw [Option.map_eq_none_iff, List.findIdx?_eq_none_iff]
  intro e he
  simp only [trieFull, List.mem_map, List.mem_range] at he
  obtain ⟨i, hi, rfl⟩ := he
  by_contra hc
  simp only [Bool.not_eq_false, Bool.and_eq_true, beq_iff_eq] at hc
  have h2 := congrArg BitVec.toNat hc.2
  simp only [BitVec.toNat_ofNat] at h2
  have h3 : (255 : Byte).toNat = 255 := rfl
  omega

theorem witness_LookupAndEntryDescribeTheTrie : TrieOk { clean with lzw := trieZ7 } ∧ (0xFFFFFFFF : Word) = 0xFFFFFFFF ∧
    ((257 : Word) ≠ 0xFFFFFFFF ∧ (257 : Word).toNat ≠ 256 ∧ (257 : Word).toNat < 257 + trieZ7.length ∧
      Trie.child trieZ7 257 0x43 = some 258) ∧
    ((258 : Word).toNat < 257 + trieZ7.length ∧ Trie.child trieZ7 258 0 = none) ∧ (255 : Word).toNat ≤ 255 ∧
    (257 ≤ (258 : Word).toNat ∧ trieZ7[258 - 257]? = some ⟨257, 0x43⟩) :=
  ⟨trieZ7_ok, by decide, by decide, by decide, by decide, by decide⟩

theorem witness_CollectionCommandErrors : (List.replicate 257 (⟨1, 2⟩ : HeapEntry)).length = 257 ∧ clean.pq = [] ∧
    Dict.total [(0, List.replicate 4095 0)] = 4095 ∧ Dict.list dictH3 0 = [] ∧
    (({ windowV15 with head := 2 ^ 32 - 1 } : Window).head = 2 ^ 32 - 1) ∧
    (windowV15.head < 2 ^ 32 - 1 ∧ windowV15.cursor + 4113 < windowV15.head + 1) ∧
    (257 + trieZ7.length ≤ (259 : Word).toNat ∧ (259 : Word) ≠ 0xFFFFFFFF) ∧
    ∃ i, Trie.child trieZ7 257 0x43 = some i := by
  refine ⟨List.length_replicate, rfl, by rw [Dict.total, List.length_replicate]; rfl, by decide, rfl, by decide, by decide, ⟨258, by decide⟩⟩

theorem witness_StepKeepsBuffersShifterAndTree : BuffersOk nearlyFull ∧ ShifterOk nearlyFull ∧
    ∃ t, step { nearlyFull with latch := some { cmd := 0x2500000B, arg0 := 5, arg1 := 0, inLen := 0 } } = .next t :=
  ⟨nearlyFull_buffers, nearlyFull_shifter, _, rfl⟩

theorem witness_StepKeepsBuffersShifterAndTree_tree : TreeOk treed ∧ ∃ t, step (ready treed 0x61000000 0 0) = .next t := by
  refine ⟨.inr ⟨aab, by decide, ?_⟩, _, rfl⟩
  decide +kernel

theorem witness_StepKeepsHeapOrder : HeapOk { clean with pq := heapQ5 } ∧
    ∃ t, step (ready { clean with pq := heapQ5 } 0x32000000 0 0) = .next t := ⟨⟨by decide, heapQ5_order⟩, _, rfl⟩

theorem witness_StepKeepsDictionary : DictOk { clean with hd := dictH3 } ∧
    ∃ t, step (ready { clean with hd := dictH3 } 0x42000000 0x616263 0) = .next t := ⟨dictH3_ok, _, rfl⟩

theorem windowV3_ok : WindowOk { clean with cw := windowV3 } := by
  refine ⟨by decide, by decide, by decide, by decide, by decide, fun p hp => ?_⟩
  have hp2 : p < 3 := hp.2
  have : p = 0 ∨ p = 1 ∨ p = 2 := by omega
  rcases this with rfl | rfl | rfl <;> decide

theorem witness_StepKeepsWindow : WindowOk { clean with cw := windowV3 } ∧
    ∃ t, step (ready { clean with cw := windowV3 } 0x51000000 0x64 0) = .next t := ⟨windowV3_ok, _, rfl⟩

theorem witness_StepKeepsTrie : TrieOk { clean with lzw := trieZ7 } ∧
    ∃ t, step (ready { clean with lzw := trieZ7 } 0x82000000 258 0x44) = .next t := ⟨trieZ7_ok, _, rfl⟩

theorem witness_StepKeepsIssue : IssueOk (ready clean 0x33000000 0 0) ∧ ∃ t, step (ready clean 0x33000000 0 0) = .next t := by
  refine ⟨fun l hl => ?_, _, rfl⟩
  cases hl
  decide

end Sys2Proof.Tests
end

section
/-! PROOFS. The registers (10_state.md R20 to R23), what stays while BUSY = 1 (R380), and the host's side of a command's frame
(R21). -/

namespace Sys2Proof.Machine

/-! ### One move of the agenda -/

/-- A host access at the front of the agenda is the step's one move (R73). -/
theorem step_host {s : State} {a : Access} {rest : List Event} (h : s.agenda = .host a :: rest) :
    step s = hostAccess a { s with agenda := rest } := by
  unfold step nextMove
  rw [h]

/-- A 32-bit read of a word offset that the REG space has (R71, R73). -/
theorem step_readReg {s : State} {off : Nat} {rest : List Event} (h : s.agenda = .host (.read .reg off 4) :: rest)
    (h4 : off % 4 = 0) (hlt : off < 4096) : step s = .next (({ s with agenda := rest } : State).readReg off) := by
  rw [step_host h]
  exact regAccess_legal _ h4 hlt

/-- A 32-bit write of a word offset that the REG space has, while BUSY = 0 (R71, R73). -/
theorem step_writeReg_idle {s : State} {off : Nat} {v : Word} {rest : List Event}
    (h : s.agenda = .host (.write .reg off 4 v) :: rest) (h4 : off % 4 = 0) (hlt : off < 4096) (hb : s.busy = false) :
    step s = .next (({ s with agenda := rest } : State).writeReg off v) := by
  have hw : ({ s with agenda := rest } : State).hostWriteReg off v = ({ s with agenda := rest } : State).writeReg off v := by
    unfold State.hostWriteReg
    exact if_neg (by rw [show ({ s with agenda := rest } : State).busy = false from hb]; decide)
  rw [step_host h, ← hw]
  exact regAccess_legal _ h4 hlt

/-! ### STATUS and CTRL (R22, R23) -/

/-- The one bit of a flag. -/
theorem flagBit_getLsbD (b : Bool) (j : Nat) : (flagBit b).getLsbD j = (decide (j = 0) && b) := by
  cases b
  · simp [flagBit]
  · simp [flagBit, BitVec.getLsbD_one]

/-- STATUS, bit by bit (R23). -/
theorem State.statusWord_getLsbD (s : State) (j : Nat) :
    s.statusWord.getLsbD j =
      if j = 0 then s.busy else if j = 1 then s.done else if j = 2 then s.errorFlag else if j < 4 then false
      else if j < 8 then (errCode s.err).getLsbD (j - 4) else if j = 8 then s.violation else false := by
  simp only [State.statusWord, BitVec.getLsbD_append, flagBit_getLsbD, BitVec.getLsbD_zero]
  by_cases h9 : j < 9
  · interval_cases j <;> rfl
  · grind

/-- CTRL, bit by bit (R22). -/
theorem State.ctrlWord_getLsbD (s : State) (j : Nat) : s.ctrlWord.getLsbD j = if j = 1 then s.irqEn else false := by
  simp only [State.ctrlWord, BitVec.getLsbD_append, flagBit_getLsbD, BitVec.getLsbD_zero]
  rcases j with _ | _ | j <;> rfl

/-- Settles O9: the write is `acknowledge`, whose two flags are the written bits' cases. -/
theorem statusWriteAcknowledges : Obligations.StatusWriteAcknowledges := by
  intro s v rest h hb
  rw [step_writeReg_idle h rfl (by decide) hb]
  show Host.Outcome.next (({ s with agenda := rest } : State).acknowledge v) = _
  unfold State.acknowledge
  cases v.getLsbD 1 <;> cases v.getLsbD 8 <;> simp

/-- Settles O10, by reading STATUS and CTRL bit by bit. -/
theorem statusAndCtrlLayout : Obligations.StatusAndCtrlLayout := by
  intro s
  have hcode : s.statusWord.extractLsb' 4 4 = errCode s.err := by
    apply BitVec.eq_of_getLsbD_eq
    intro j hj
    rw [BitVec.getLsbD_extractLsb', State.statusWord_getLsbD]
    simp [hj, show ¬ 4 + j = 1 by omega, show ¬ 4 + j = 2 by omega, show 4 + j < 8 by omega]
  refine ⟨?_, ?_, ?_, ?_, hcode, ?_, fun j hj => ?_, ?_, fun j hj => ?_, rfl, rfl, rfl, rfl, rfl, rfl, rfl, rfl⟩
  · exact s.statusWord_getLsbD 0
  · exact s.statusWord_getLsbD 1
  · exact s.statusWord_getLsbD 2
  · exact s.statusWord_getLsbD 3
  · exact s.statusWord_getLsbD 8
  · rw [State.statusWord_getLsbD]
    grind
  · exact s.ctrlWord_getLsbD 1
  · rw [State.ctrlWord_getLsbD, if_neg hj]

/-! ### The register map (R20, R21) -/

/-- What an idle register write stores, as a table, but for STATUS and for a CTRL write that starts a command or resets (R20 to
R22). -/
theorem State.writeReg_table (s : State) {off : Nat} {v : Word} (h4 : off ≠ 0x04)
    (h0 : off = 0x00 → v.getLsbD 0 = false ∧ v.getLsbD 2 = false) :
    s.writeReg off v =
      { s with
        irqEn := if off = 0x00 then v.getLsbD 1 else s.irqEn
        cmd := if off = 0x08 then v else s.cmd
        arg0 := if off = 0x0C then v else s.arg0
        arg1 := if off = 0x10 then v else s.arg1
        inLen := if off = 0x20 then v else s.inLen } := by
  unfold State.writeReg
  split
  · obtain ⟨hstart, hreset⟩ := h0 rfl
    unfold State.writeCtrl
    rw [hstart, hreset]
    rfl
  · exact absurd rfl h4
  · rfl
  · rfl
  · rfl
  · rfl
  · rw [if_neg ‹_›, if_neg ‹_›, if_neg ‹_›, if_neg ‹_›, if_neg ‹_›]

/-- Settles O13, from the two tables of register reads and idle register writes. -/
theorem registerMap : Obligations.RegisterMap := by
  intro s off v rest h4 hlt
  refine ⟨fun h => ?_, fun h hb hne h0 => ?_⟩
  · rw [step_readReg h h4 hlt, State.readReg_table]
    by_cases hfree : s.busy = true ∧ (off = 0x14 ∨ off = 0x18 ∨ off = 0x1C ∨ off = 0x24)
    · rw [if_pos hfree]
      exact ⟨Config.freeWord s.draws, congrArg Host.Outcome.next (if_pos hfree)⟩
    · rw [if_neg hfree]
      exact congrArg Host.Outcome.next (if_neg hfree)
  · rw [step_writeReg_idle h h4 hlt hb, State.writeReg_table _ hne h0]
    exact ⟨_, rfl, rfl, rfl⟩

/-! ### What every command leaves: frames -/

/-- A command that goes on has completed (R342). -/
theorem exec_not_busy {i : Instr} {s t : State} (h : exec i s = .next t) : t.busy = false := by
  by_cases hi : IsCodec i
  · rcases exec_codec_cases hi h with ⟨d, _, rfl⟩ | ⟨e, _, rfl⟩ <;> rfl
  · rcases exec_primitive hi h with ⟨e, rfl⟩ | ⟨r, u, rfl, _⟩ <;> rfl

/-- While a command stays in progress a step takes a move off the agenda, answers a read or marks a violation, and nothing else
(R380, R381). -/
theorem step_while_busy {s t : State} (hb : s.busy = true) (h : step s = .next t) (ht : t.busy = true) :
    ∃ rest log draws violation,
      t = { s with agenda := rest, readLog := log, draws := draws, violation := violation } := by
  obtain ⟨u, ⟨rest, hu⟩, h⟩ := step_cases h
  have hub : u.busy = true := by rw [hu]; exact hb
  suffices hsame : ∃ log draws violation, t = { u with readLog := log, draws := draws, violation := violation } by
    obtain ⟨log, draws, violation, rfl⟩ := hsame
    subst hu
    exact ⟨rest, log, draws, violation, rfl⟩
  rcases h with ⟨hidle, _⟩ | ⟨i, _, _, he⟩ | ⟨e, _, _, rfl⟩ | ⟨off, rfl⟩ | ⟨a, rfl⟩ | ⟨a, rfl⟩ | ⟨off, v, rfl⟩ | ⟨a, v, rfl⟩ | rfl
  · exact absurd (hidle.symm.trans hub) (by decide)
  · exact absurd ((exec_not_busy he).symm.trans ht) (by decide)
  · exact absurd ht (by simp)
  · rcases u.readReg_cases off with ⟨v, e⟩ | ⟨_, e⟩ <;> rw [e] <;> exact ⟨_, _, _, rfl⟩
  · exact ⟨_, _, _, rfl⟩
  · unfold State.hostReadOut
    split <;> exact ⟨_, _, _, rfl⟩
  · rcases u.hostWriteReg_cases off v with ⟨_, e⟩ | e | ⟨hidle, _⟩
    · rw [e]; exact ⟨_, _, _, rfl⟩
    · rw [e] at ht; exact absurd ht (by simp)
    · exact absurd (hidle.symm.trans hub) (by decide)
  · unfold State.hostWriteIn
    rw [if_pos hub]
    exact ⟨_, _, _, rfl⟩
  · rcases u.hostWriteOut_cases with ⟨_, e⟩ | ⟨_, e⟩ <;> rw [e] <;> exact ⟨_, _, _, rfl⟩

/-- Settles O16: such a step changes only VIOLATION and the model's own fields. -/
theorem nothingMovesWhileBusy : Obligations.NothingMovesWhileBusy := by
  intro s t hb h ht
  obtain ⟨rest, log, draws, violation, rfl⟩ := step_while_busy hb h ht
  exact ⟨rfl, rfl, rfl, rfl, rfl, rfl, rfl, rfl, rfl, rfl, rfl, fun _ => rfl, ⟨rfl, rfl, rfl, rfl, rfl, rfl⟩, rfl, fun _ => rfl⟩

/-- A primitive command leaves the host's side (R21). -/
theorem Ran.sameHostSide {s u : State} {i : Instr} (h : Ran s i u) : SameHostSide s u := by
  cases h <;> exact ⟨rfl, rfl, rfl, rfl, rfl, rfl, rfl, rfl, fun _ => rfl, rfl, rfl⟩

/-- Settles O17: each end of a command leaves the host's side of the state it ends. -/
theorem commandsLeaveHostSide : Obligations.CommandsLeaveHostSide := by
  intro i s t h
  by_cases hi : IsCodec i
  · rcases exec_codec_cases hi h with ⟨d, _, rfl⟩ | ⟨e, _, rfl⟩ <;>
      exact ⟨rfl, rfl, rfl, rfl, rfl, rfl, rfl, rfl, fun _ => rfl, rfl, rfl⟩
  · rcases exec_primitive hi h with ⟨e, rfl⟩ | ⟨r, u, rfl, hr⟩
    · exact ⟨rfl, rfl, rfl, rfl, rfl, rfl, rfl, rfl, fun _ => rfl, rfl, rfl⟩
    · exact hr.sameHostSide

end Sys2Proof.Machine
end

section
/-! PROOFS. Which OUT bytes a command writes, how a codec command ends and what its result depends on, and the check of IN_LEN
(10_state.md R24, R26, R60; 60_exceptions.md R332, R335). -/

namespace Sys2Proof.Machine

/-! ### The writers, in any state: what they append, within the capacity (R145 to R149) -/

/-- `w'` is `w` with bytes appended, each counted, and no more than `cap` in all. -/
def Writer.Extends (cap : Nat) (w w' : Writer) : Prop :=
  w'.len ≤ cap ∧ ∃ added, w'.out = added ++ w.out ∧ w'.len = w.len + added.length

theorem Writer.Extends.trans {cap : Nat} {w w1 w2 : Writer} (h : w.Extends cap w1) (h' : w1.Extends cap w2) :
    w.Extends cap w2 := by
  obtain ⟨_, a, ho, hl⟩ := h
  obtain ⟨hc, a', ho', hl'⟩ := h'
  exact ⟨hc, a' ++ a, by rw [ho', ho, List.append_assoc], by rw [hl', hl, List.length_append]; omega⟩

/-- Nothing appended: the length and the bytes are as before. -/
theorem Writer.Extends.of_eq {cap : Nat} {w w' : Writer} (hc : w.len ≤ cap) (hl : w'.len = w.len) (ho : w'.out = w.out) :
    w.Extends cap w' :=
  ⟨hl ▸ hc, [], ho, hl⟩

theorem appendByte_extends {cap : Nat} {v : Byte} {w w' : Writer} (hc : w.len ≤ cap) (h : appendByte cap v w = .ok w') :
    w.Extends cap w' := by
  rw [appendByte_eq] at h
  split at h
  · cases h
  · cases h
    exact ⟨by dsimp only; omega, [v], rfl, rfl⟩

theorem writeBit_extends {cap : Nat} {b : Bool} {w w' : Writer} (hc : w.len ≤ cap) (h : writeBit cap b w = .ok w') :
    w.Extends cap w' := by
  unfold writeBit at h
  dsimp only at h
  split at h
  · split at h
    · cases h
    · rename_i w1 h1
      cases h
      have he : w.Extends cap w1 := appendByte_extends hc h1
      exact he
  · cases h
    exact .of_eq hc rfl rfl

theorem writeAll_extends {cap : Nat} {bits : List Bool} {w w' : Writer} (hc : w.len ≤ cap)
    (h : writeAll cap bits w = .ok w') : w.Extends cap w' := by
  induction bits generalizing w with
  | nil => cases h; exact .of_eq hc rfl rfl
  | cons b bits ih =>
    simp only [writeAll] at h
    split at h
    · cases h
    · rename_i w1 h1
      have he := writeBit_extends hc h1
      exact he.trans (ih he.1 h)

theorem finishWriter_extends {cap : Nat} {w w' : Writer} (hc : w.len ≤ cap) (h : finishWriter cap w = .ok w') :
    w.Extends cap w' := by
  unfold finishWriter at h
  split at h
  · cases h; exact .of_eq hc rfl rfl
  · split at h
    · cases h
    · rename_i w1 h1
      cases h
      have he : w.Extends cap w1 := appendByte_extends hc h1
      exact he

/-- Legal parameters keep OUT_CAP a 32-bit number (R7). -/
theorem BuffersOk.outCap_lt {s : State} (h : BuffersOk s) : s.params.outCap < 2 ^ 32 := by
  have hp := h.1
  simp only [Config.Params.wf, Bool.and_eq_true, decide_eq_true_eq] at hp
  omega

theorem BuffersOk.outLen_le {s : State} (h : BuffersOk s) : s.outLen.toNat ≤ s.params.outCap := by
  obtain ⟨_, _, _, _, _, hlen⟩ := h
  exact hlen

/-- A bitstream write or finish that goes on appends to OUT what OUT_LEN counts, within OUT_CAP. -/
theorem withWriter_outLen {s : State} {w : Writer} (hb : BuffersOk s) (h : s.writer.Extends s.params.outCap w) :
    (s.withWriter w).outLen.toNat = s.outLen.toNat + w.out.length ∧ (s.withWriter w).outLen.toNat ≤ s.params.outCap := by
  have hcap := hb.outCap_lt
  obtain ⟨hc, added, ho, hl⟩ := h
  have hout : w.out = added := by simpa [State.writer] using ho
  have hlen : w.len = s.outLen.toNat + w.out.length := by rw [hl, hout]; rfl
  have hmod : (s.withWriter w).outLen.toNat = w.len := by
    rw [State.withWriter_outLen, BitVec.toNat_ofNat]
    exact Nat.mod_eq_of_lt (by omega)
  exact ⟨hmod.trans hlen, hmod ▸ hc⟩

/-- The writer that a bitstream write leaves extends the one it began with. -/
theorem bsWrite_extends {n : Nat} {s u : State} {r : Results} (hc : s.outLen.toNat ≤ s.params.outCap)
    (h : bsWrite n s = .ok (r, u)) : ∃ w, s.writer.Extends s.params.outCap w ∧ u = s.withWriter w := by
  unfold bsWrite at h
  split at h
  · split at h
    · cases h
    · cases h
      exact ⟨_, writeAll_extends (w := s.writer) hc ‹_›, rfl⟩
  · cases h

/-- The same for BS_FINISH. -/
theorem bsFlush_extends {s u : State} {r : Results} (hc : s.outLen.toNat ≤ s.params.outCap)
    (h : bsFlush s = .ok (r, u)) : ∃ w, s.writer.Extends s.params.outCap w ∧ u = s.withWriter w := by
  unfold bsFlush at h
  by_cases hfit : s.outLen.toNat + (if s.bs.nacc = 0 then 0 else 1) ≤ s.params.outCap
  · rw [if_pos hfit] at h
    split at h
    · cases h
    · cases h
      exact ⟨_, finishWriter_extends (w := s.writer) hc ‹_›, rfl⟩
  · rw [if_neg hfit] at h
    cases h

/-! ### Which OUT bytes a command may write (R74, log 7) -/

/-- A codec command writes from index 0 on. -/
theorem outSpan_codec {i : Instr} (h : IsCodec i) (s : State) :
    outSpan s i = (0, codecSpan (withInputBytes s (codecRun s.params i))) := by
  rcases h with rfl | rfl | rfl | rfl | rfl | rfl <;> rfl

/-- A bitstream write writes from OUT_LEN on. -/
theorem outSpan_write {i : Instr} {n : Nat} (h : WriteForm i n) (s : State) :
    outSpan s i = (s.outLen.toNat, appendSpan s (bsWrite n s)) := by
  rcases h with ⟨rfl, rfl⟩ | ⟨k, rfl, _, _, rfl⟩ | ⟨k, rfl, _, _, rfl⟩ <;> rfl

/-- The four shapes of a command's span. -/
theorem outSpan_cases (s : State) (i : Instr) :
    IsCodec i ∨ (∃ n, outSpan s i = (s.outLen.toNat, appendSpan s (bsWrite n s))) ∨
      outSpan s i = (s.outLen.toNat, appendSpan s (bsFlush s)) ∨ outSpan s i = (s.outLen.toNat, 0) := by
  cases i
  case hufCompress | hufDecompress | lzssCompress | lzssDecompress | lzwCompress | lzwDecompress => left; simp [IsCodec]
  case bsWriteBit | bsWriteBits | bsWriteBytes => exact .inr (.inl ⟨_, rfl⟩)
  case bsFinish => exact .inr (.inr (.inl rfl))
  all_goals exact .inr (.inr (.inr rfl))

/-- A codec command's output, or what it wrote before its error, fits OUT_CAP, the check of IN_LEN included. -/
theorem withInputBytes_fits {i : Instr} (hi : IsCodec i) (s : State) :
    (∀ d, withInputBytes s (codecRun s.params i) = .ok d → d.out.length ≤ s.params.outCap) ∧
      ∀ e, withInputBytes s (codecRun s.params i) = .error e → e.written ≤ s.params.outCap := by
  by_cases hl : s.opLen ≤ s.params.inCap
  · rw [withInputBytes_of_le hl]
    exact codecRun_fits hi _
  · rw [withInputBytes_of_lt (Nat.not_le.1 hl)]
    exact ⟨fun _ h => (by cases h), fun _ h => by cases h; exact Nat.zero_le _⟩

/-- The span of every command lies within OUT_CAP. -/
theorem outSpan_le {s : State} (hb : BuffersOk s) (i : Instr) : (outSpan s i).1 + (outSpan s i).2 ≤ s.params.outCap := by
  have hlen := hb.outLen_le
  have append : ∀ run : Except Err (Results × State),
      (∀ r u, run = .ok (r, u) → ∃ w, s.writer.Extends s.params.outCap w ∧ u = s.withWriter w) →
      s.outLen.toNat + appendSpan s run ≤ s.params.outCap := by
    intro run hrun
    cases run with
    | error e => exact hlen
    | ok x =>
      obtain ⟨w, hw, hu⟩ := hrun x.1 x.2 rfl
      have := (withWriter_outLen hb hw).2
      show s.outLen.toNat + (x.2.outLen.toNat - s.outLen.toNat) ≤ _
      rw [hu]
      omega
  rcases outSpan_cases s i with hi | ⟨n, h⟩ | h | h
  · rw [outSpan_codec hi, Nat.zero_add]
    cases h : withInputBytes s (codecRun s.params i) with
    | ok d => exact (withInputBytes_fits hi s).1 d h
    | error e => exact (withInputBytes_fits hi s).2 e h
  · rw [h]
    exact append _ fun r u => bsWrite_extends hlen
  · rw [h]
    exact append _ fun r u => bsFlush_extends hlen
  · rw [h]
    exact hlen

/-- A bitstream command leaves every byte outside those that OUT_LEN came to count. -/
theorem withWriter_outByte {s : State} {w : Writer} (hb : BuffersOk s) (h : s.writer.Extends s.params.outCap w) {a : Nat}
    (ha : a < s.outLen.toNat ∨ s.outLen.toNat + ((s.withWriter w).outLen.toNat - s.outLen.toNat) ≤ a) :
    (s.withWriter w).outByte a = s.outByte a := by
  have hl := (withWriter_outLen hb h).1
  rw [State.outByte_store _ s.outBuf s.outLen.toNat a w.out.reverse rfl, List.length_reverse, if_neg (by omega)]
  rfl

/-- A primitive command that does not store leaves OUT. -/
theorem Ran.outByte_eq {s u : State} {i : Instr} (h : Ran s i u) (hi : ¬ StoresOut i) (a : Nat) :
    u.outByte a = s.outByte a := by
  cases h
  case write n w _ _ hw => exact absurd (.inr (.inr ⟨n, hw⟩)) hi
  case finish => exact absurd (.inr (.inl rfl)) hi
  all_goals rfl

/-- A primitive command that is not one of those R24 names leaves OUT_LEN. -/
theorem Ran.outLen_eq {s u : State} {i : Instr} (h : Ran s i u) (hi : ¬ ChangesOutLen i) : u.outLen = s.outLen := by
  cases h
  case write n w _ _ hw => exact absurd (.inl (.inr (.inr ⟨n, hw⟩))) hi
  case finish => exact absurd (.inl (.inr (.inl rfl))) hi
  case bsInit => exact absurd (.inr (.inl rfl)) hi
  case clearAll => exact absurd (.inr (.inr rfl)) hi
  all_goals rfl

/-- A primitive command leaves every OUT byte outside its span. -/
theorem Ran.outByte_outside {s u : State} {i : Instr} (h : Ran s i u) (hb : BuffersOk s) {a : Nat}
    (ha : a < (outSpan s i).1 ∨ (outSpan s i).1 + (outSpan s i).2 ≤ a) : u.outByte a = s.outByte a := by
  have hlen := hb.outLen_le
  cases h
  case write n w hf hw hform =>
    have hrun : bsWrite n s = .ok ({ r0 := BitVec.ofNat 32 w.len, r1 := BitVec.ofNat 32 w.nacc }, s.withWriter w) := by
      simp [bsWrite, State.bitsFit, hf, hw]
    rw [outSpan_write hform, hrun] at ha
    exact withWriter_outByte hb (writeAll_extends (w := s.writer) hlen hw) ha
  case finish w hf hw =>
    have hrun : bsFlush s = .ok ({ r0 := BitVec.ofNat 32 w.len }, s.withWriter w) := by
      unfold bsFlush
      rw [if_pos hf, hw]
    have hspan : outSpan s .bsFinish = (s.outLen.toNat, appendSpan s (bsFlush s)) := rfl
    rw [hspan, hrun] at ha
    exact withWriter_outByte hb (finishWriter_extends (w := s.writer) hlen hw) ha
  all_goals rfl

/-- A codec command leaves every OUT byte outside its span (log 6). -/
theorem exec_codec_outByte {i : Instr} {s t : State} (hi : IsCodec i) (h : exec i s = .next t) {a : Nat}
    (ha : a < (outSpan s i).1 ∨ (outSpan s i).1 + (outSpan s i).2 ≤ a) : t.outByte a = s.outByte a := by
  rw [outSpan_codec hi] at ha
  rcases exec_codec_cases hi h with ⟨d, hr, rfl⟩ | ⟨e, hr, rfl⟩
  · rw [hr] at ha
    change a < 0 ∨ 0 + d.out.length ≤ a at ha
    rw [State.outByte_store _ s.outBuf 0 a d.out rfl, if_neg (by omega)]
    rfl
  · rw [hr] at ha
    exact State.outByte_spoilOut (s := s.clearUnits) ha

/-- Settles O18: the codec commands by their common end, the primitive ones by what `Ran` says they leave. -/
theorem commandsLeaveOutput : Obligations.CommandsLeaveOutput := by
  intro i s t h
  by_cases hi : IsCodec i
  · exact ⟨fun hn => absurd (.inl hi) hn, fun hn => absurd (.inl (.inl hi)) hn, fun _ a => exec_codec_outByte hi h⟩
  · rcases exec_primitive hi h with ⟨e, rfl⟩ | ⟨r, u, rfl, hr⟩
    · exact ⟨fun _ _ => rfl, fun _ => rfl, fun _ _ _ => rfl⟩
    · exact ⟨fun hn a => hr.outByte_eq hn a, fun hn => hr.outLen_eq hn, fun hb a => hr.outByte_outside hb⟩

/-! ### The codec commands' end (R60, R335, R383) -/

/-- `clearUnits` clears every sub-unit; what a state holds beside them does not matter. -/
theorem unitsCleared_of_sameUnits {s t : State} (h : SameUnits s.clearUnits t) : UnitsCleared t := by
  obtain ⟨hbs, hpq, hhd, hcw, hht, hlzw⟩ := h
  rw [UnitsCleared, hbs, hpq, hhd, hcw, hht, hlzw]
  refine ⟨rfl, rfl, rfl, rfl, rfl, rfl, rfl, fun v => ?_, rfl, rfl, rfl, rfl, rfl, (by decide : Trie.width [] = 9)⟩
  simp [Tree.cleared]

/-- Settles O21: both ends of a codec command clear the sub-units, and the one with an error the results too. -/
theorem codecEndsWithUnitsCleared : Obligations.CodecEndsWithUnitsCleared := by
  intro i s t hi h
  rcases exec_codec_cases hi h with ⟨d, _, rfl⟩ | ⟨e, _, rfl⟩
  · exact ⟨unitsCleared_of_sameUnits (s := s) ⟨rfl, rfl, rfl, rfl, rfl, rfl⟩, fun e he => (by cases he)⟩
  · exact ⟨unitsCleared_of_sameUnits (s := s) ⟨rfl, rfl, rfl, rfl, rfl, rfl⟩, fun _ _ => ⟨rfl, rfl, rfl, rfl⟩⟩

/-- The output bytes of a state whose OUT holds `out` from index 0 on, as far as OUT_LEN counts them. -/
theorem State.outBytes_store_take {s : State} {m : Memory} {out : List Byte} (h : s.outBuf = Memory.store m 0 out)
    (hl : s.outLen.toNat ≤ out.length) : s.outBytes = out.take s.outLen.toNat := by
  apply List.ext_getElem (by simp [State.outBytes, hl])
  intro j h1 h2
  rw [List.length_take] at h2
  simp only [State.outBytes, List.getElem_map, List.getElem_range, List.getElem_take]
  rw [State.outByte_store s m 0 j out h, if_pos (by omega), Nat.sub_zero, List.getD_eq_getElem _ _ (by omega)]

/-- A codec command reads the parameters, IN_LEN and the bytes below it only (R140, R383). -/
theorem withInputBytes_congr {s s' : State} {run : List Byte → Except CodecRaise CodecDone} (hp : s.params = s'.params)
    (hl : s.opLen = s'.opLen) (hin : ∀ a, a < s.opLen → s.inByte a = s'.inByte a) :
    withInputBytes s run = withInputBytes s' run := by
  rw [withInputBytes, withInputBytes, State.inTooLong, State.inTooLong, State.inBytes_congr hin, hp, hl]

/-- Settles O22: both runs end with the same result of the same function of the input. -/
theorem codecResultIgnoresHistory : Obligations.CodecResultIgnoresHistory := by
  intro i s s' t t' hi hp hl hin h h'
  have hrun : withInputBytes s (codecRun s.params i) = withInputBytes s' (codecRun s'.params i) := by
    rw [withInputBytes_congr hp hl hin, hp]
  rw [exec_codec hi] at h h'
  rw [hrun] at h
  cases hr : withInputBytes s' (codecRun s'.params i) with
  | ok d =>
    rw [hr] at h h'
    obtain rfl := Host.Outcome.next.inj h
    obtain rfl := Host.Outcome.next.inj h'
    have hmod : (BitVec.ofNat 32 d.out.length).toNat ≤ d.out.length := by
      rw [BitVec.toNat_ofNat]
      exact Nat.mod_le _ _
    refine ⟨rfl, rfl, rfl, rfl, rfl, ?_⟩
    rw [State.outBytes_store_take rfl hmod, State.outBytes_store_take rfl hmod]
    rfl
  | error e =>
    rw [hr] at h h'
    obtain rfl := Host.Outcome.next.inj h
    obtain rfl := Host.Outcome.next.inj h'
    exact ⟨rfl, rfl, rfl, rfl, rfl, rfl⟩

/-! ### Input longer than IN_CAP (R332) -/

/-- An error raised in a state changes STATUS and the results only (R334). -/
theorem State.raise_failedWith (s : State) (e : Err) : FailedWith s (s.raise e) e :=
  ⟨rfl, rfl, rfl, rfl, rfl, rfl, ⟨rfl, rfl, rfl, rfl, rfl, rfl, rfl, rfl, fun _ => rfl, rfl, rfl⟩,
    ⟨rfl, rfl, rfl, rfl, rfl, rfl⟩, rfl, fun _ => rfl⟩

/-- A bitstream read is its shared operation, the immediate being legal (R152 to R154). -/
theorem exec_read {i : Instr} {n : Nat} (h : ReadForm i n) (s : State) : exec i s = settle s (bsRead n s) := by
  rcases h with ⟨rfl, rfl⟩ | ⟨k, rfl, h1, h2, rfl⟩ | ⟨k, rfl, h1, h2, rfl⟩
  · rfl
  · simp [exec, execBsReadBits, h1, h2]
  · simp [exec, execBsReadBytes, h1, h2]

/-- Settles O24: every one of these commands stands behind the check of IN_LEN. -/
theorem tooLongInputIsRefused : Obligations.TooLongInputIsRefused := by
  intro i s hl hi
  have primitive : ∀ {run : Except Err (Results × State)}, exec i s = settle s (withInput s run) →
      ∃ t, exec i s = .next t ∧ t.err = some .capacityExceeded ∧ (¬ IsCodec i → FailedWith s t .capacityExceeded) := by
    intro run he
    rw [withInput_of_lt hl, settle_error] at he
    exact ⟨_, he, rfl, fun _ => s.raise_failedWith _⟩
  rcases hi with hi | ⟨n, hi⟩ | rfl | rfl
  · rw [exec_codec hi, withInputBytes_of_lt hl]
    exact ⟨_, rfl, rfl, fun hn => absurd hi hn⟩
  · exact primitive (exec_read hi s)
  · exact primitive rfl
  · exact primitive rfl

end Sys2Proof.Machine
end

section
/-! PROOFS. The invariants of 10_state.md §3, each kept by every step: first the induction over the moves, then for each invariant
what the primitive commands, clearing and a soft reset do to it. -/

namespace Sys2Proof.Machine

/-! ### The invariants, from what each kind of move changes -/

/-- What the invariants of 10_state.md §3 but that of issue speak of: the parameters, the buffers, OUT_LEN and the sub-units. -/
def SameData (s t : State) : Prop :=
  t.params = s.params ∧ t.inBuf = s.inBuf ∧ t.outBuf = s.outBuf ∧ t.outLen = s.outLen ∧ SameUnits s t

theorem SameData.refl (s : State) : SameData s s := ⟨rfl, rfl, rfl, rfl, rfl, rfl, rfl, rfl, rfl, rfl⟩

/-- A register write that is no soft reset leaves buffers, OUT_LEN and sub-units. -/
theorem State.hostWriteReg_sameData {s : State} {off : Nat} {v : Word} (h : s.hostWriteReg off v ≠ s.softReset) :
    SameData s (s.hostWriteReg off v) := by
  rcases s.hostWriteReg_cases off v with ⟨_, e⟩ | e | ⟨_, e | e | e | e | e | e | e | e⟩
  case inr.inl => exact absurd e h
  all_goals
    rw [e]
    exact SameData.refl s

/-- A property of the parameters, the buffers, OUT_LEN and the sub-units is kept by every step if the commands, a soft reset and
a store to IN keep it. -/
theorem step_keeps_data {P : State → Prop} (same : ∀ s t : State, SameData s t → P s → P t)
    (codec : ∀ (s : State) (bytes : List Byte) (n : Word), P s → bytes.length ≤ s.params.outCap →
      n.toNat ≤ bytes.length → P { s.clearUnits with outBuf := Memory.store s.outBuf 0 bytes, outLen := n })
    (ran : ∀ {s u : State} {i : Instr}, P s → Ran s i u → P u)
    (soft : ∀ s : State, P s → P s.softReset)
    (input : ∀ (s : State) (a : Nat) (v : Byte), P s → a < s.params.inCap → P { s with inBuf := Sparse.put s.inBuf a v })
    {s t : State} (hs : P s) (h : step s = .next t) : P t := by
  refine step_keeps (P := P) ?_ ?_ ?_ ?_ ?_ ?_ ?_ soft ?_ input hs h
  · exact fun s rest hs => same s _ (SameData.refl s) hs
  · exact fun s e hs => same s _ (SameData.refl s) hs
  · intro s i d hs hi hr
    have hfit := (withInputBytes_fits hi s).1 d hr
    have hlen : (BitVec.ofNat 32 d.out.length).toNat ≤ d.out.length := by
      rw [BitVec.toNat_ofNat]
      exact Nat.mod_le _ _
    refine same _ _ ?_ (codec s d.out _ hs hfit hlen)
    exact SameData.refl _
  · intro s i e hs hi hr
    have hfit := (withInputBytes_fits hi s).2 e hr
    rw [← freeBytes_length s.draws e.written] at hfit
    refine same _ _ ?_ (codec s (freeBytes s.draws e.written) 0 hs hfit (Nat.zero_le _))
    exact SameData.refl _
  · exact fun s i u r hs hr => same u _ (SameData.refl u) (ran hs hr)
  · exact fun s v draws hs => same s _ (SameData.refl s) hs
  · exact fun s hs => same s _ (SameData.refl s) hs
  · exact fun s off v hs _ hne => same s _ (State.hostWriteReg_sameData hne) hs

/-- A property of the parameters and the sub-units is kept by every step if the primitive commands, clearing and a soft reset
keep it. -/
theorem step_keeps_units {P : State → Prop} (same : ∀ s t : State, t.params = s.params → SameUnits s t → P s → P t)
    (clear : ∀ s : State, P s → P s.clearUnits)
    (ran : ∀ {s u : State} {i : Instr}, P s → Ran s i u → P u)
    (soft : ∀ s : State, P s → P s.softReset)
    {s t : State} (hs : P s) (h : step s = .next t) : P t := by
  refine step_keeps_data (P := P) ?_ ?_ ran soft ?_ hs h
  · rintro s t ⟨hp, _, _, _, hu⟩
    exact same s t hp hu
  · exact fun s bytes n hs _ _ => same s.clearUnits _ rfl ⟨rfl, rfl, rfl, rfl, rfl, rfl⟩ (clear s hs)
  · exact fun s a v hs _ => same s _ rfl ⟨rfl, rfl, rfl, rfl, rfl, rfl⟩ hs

/-! ### The heap (R281) -/

theorem HeapOrder.nil : HeapOrder [] := fun _ _ hk => absurd hk (by simp)

/-- Every primitive command keeps the heap: only Push and Pop and the clearing commands change it. -/
theorem Ran.heapOk {s u : State} {i : Instr} (hs : HeapOk s) (h : Ran s i u) : HeapOk u := by
  obtain ⟨hlen, ho⟩ := hs
  cases h
  case clearAll | pqClear | htBuild => exact ⟨by simp, HeapOrder.nil⟩
  case pqPush hcap =>
    refine ⟨?_, (heapPush_spec _ _).2 ho⟩
    rw [heapPush_length]
    rw [pqCap_eq] at hcap
    omega
  case pqPop e q hpop =>
    have hl := heapPop_length hpop
    refine ⟨by dsimp only; omega, ?_⟩
    rcases heapPop_spec s.pq with ⟨_, hnone⟩ | ⟨e', q', hsome, _, _, horder⟩
    · rw [hnone] at hpop; cases hpop
    · rw [hsome] at hpop; cases hpop
      exact horder ho
  all_goals exact ⟨hlen, ho⟩

/-- Settles O56: the heap functions keep heap order, and every other move leaves or clears the queue. -/
theorem stepKeepsHeapOrder : Obligations.StepKeepsHeapOrder := by
  intro s t hs h
  refine step_keeps_units (P := HeapOk) ?_ ?_ Ran.heapOk ?_ hs h
  · rintro s t _ ⟨_, hpq, _⟩ hs
    rw [HeapOk, hpq]
    exact hs
  · exact fun _ _ => ⟨Nat.zero_le _, HeapOrder.nil⟩
  · exact fun _ _ => ⟨Nat.zero_le _, HeapOrder.nil⟩

/-! ### The dictionary (R289) -/

theorem dictOk_of_hd_nil {s : State} (h : s.hd = []) : DictOk s := by
  rw [DictOk, h]
  exact ⟨.nil, by simp, Nat.zero_le _⟩

/-- A removal does not raise the total. -/
theorem Dict.total_removeOldest_le {d : Dict} (h : Sparse.wf d) (k : Nat) :
    Dict.total (Dict.removeOldest d k) ≤ Dict.total d := by
  rw [Dict.total_removeOldest h]
  exact Nat.sub_le _ _

theorem keyOperand_lt (w : Word) : keyOperand w < 2 ^ 24 := by
  rw [keyOperand_eq]
  exact Nat.mod_lt _ (by decide)

/-- An insertion lists its key and the keys that were listed. -/
theorem Dict.key_insert {d : Dict} {k : Nat} {x : Word} {e : Nat × List Word} (he : e ∈ Dict.insert d k x) :
    e.1 = k ∨ e ∈ d := by
  rcases Sparse.mem_put he with rfl | he
  · exact .inl rfl
  · exact .inr he

/-- Every primitive command keeps the dictionary: only the insertion, the removal and the clearing commands change it. -/
theorem Ran.dictOk {s u : State} {i : Instr} (hs : DictOk s) (h : Ran s i u) : DictOk u := by
  obtain ⟨hwf, hkeys, htotal⟩ := hs
  have hd : Dict.wf s.hd := ⟨hwf, fun e he => (hkeys e he).2⟩
  cases h
  case clearAll | hdClear => exact dictOk_of_hd_nil rfl
  case hdInsert hcap =>
    have hd' := Dict.insert_wf hd (keyOperand s.opArg0) s.opArg1
    refine ⟨hd'.1, fun e he => ⟨?_, hd'.2 e he⟩, ?_⟩
    · rcases Dict.key_insert he with hk | he
      · exact hk ▸ keyOperand_lt _
      · exact (hkeys e he).1
    · rw [hdCap_eq] at hcap
      dsimp only
      rw [Dict.total_insert hwf]
      omega
  case hdRemoveOldest x rest _ =>
    have hd' := Dict.removeOldest_wf hd (keyOperand s.opArg0)
    refine ⟨hd'.1, fun e he => ⟨?_, hd'.2 e he⟩, (Dict.total_removeOldest_le hwf _).trans htotal⟩
    rcases Dict.key_removeOldest he with hk | he
    · exact hk ▸ keyOperand_lt _
    · exact (hkeys e he).1
  all_goals exact ⟨hwf, hkeys, htotal⟩

/-- Settles O57: the dictionary's functions keep its form, and every other move leaves or clears it. -/
theorem stepKeepsDictionary : Obligations.StepKeepsDictionary := by
  intro s t hs h
  refine step_keeps_units (P := DictOk) ?_ ?_ Ran.dictOk ?_ hs h
  · rintro s t _ ⟨_, _, hhd, _⟩ hs
    rw [DictOk, hhd]
    exact hs
  · exact fun _ _ => dictOk_of_hd_nil rfl
  · exact fun _ _ => dictOk_of_hd_nil rfl

/-! ### The window (R300, R301) -/

/-- A cleared window is well formed whatever bytes its slots still hold (R302). -/
theorem windowOk_of_head_zero {s : State} (hwf : Memory.wf s.cw.buf) (hslots : ∀ c ∈ s.cw.buf, c.1 < 4113)
    (hh : s.cw.head = 0) (hc : s.cw.cursor = 0) : WindowOk s := by
  refine ⟨hwf, hslots, by omega, by omega, by omega, fun p hp => ?_⟩
  exact absurd hp.2 (by omega)

/-- A position readable after a write is the one written or was readable before. -/
theorem Window.readable_push {w : Window} {b : Byte} {p : Nat} (h : (w.push b).readable p) : p = w.head ∨ w.readable p := by
  simp only [Window.readable, Window.push_head, cwCap_eq] at h ⊢
  omega

/-- A write keeps every slot that was written, and writes its own (R303). -/
theorem Window.push_slot_isSome {w : Window} {b : Byte} {p : Nat}
    (h : p = w.head ∨ (Sparse.get w.buf (p % 4113)).isSome = true) :
    (Sparse.get (w.push b).buf (p % 4113)).isSome = true := by
  have hbuf : (w.push b).buf = Sparse.put w.buf (w.head % 4113) b := rfl
  rw [hbuf, Sparse.get_put]
  split
  · rfl
  · rename_i hne
    exact h.resolve_left (fun hp => hne (by rw [hp]))

/-- Every primitive command keeps the window: only CW_WRITE, CW_MOVE_CURSOR and the clearing commands change it. -/
theorem Ran.windowOk {s u : State} {i : Instr} (hs : WindowOk s) (h : Ran s i u) : WindowOk u := by
  have hs' := hs
  obtain ⟨hwf, hslots, htop, hlow, hhigh, hread⟩ := hs
  cases h
  case clearAll | cwClear => exact windowOk_of_head_zero hwf hslots rfl rfl
  case cwWrite hne hcur =>
    rw [cwTopPosition_eq] at hne
    rw [cwCap_eq] at hcur
    refine ⟨Sparse.put_wf hwf _ _, fun c hc => ?_, ?_, ?_, ?_, fun p hp => ?_⟩
    · rcases Sparse.mem_put hc with rfl | hc
      · show s.cw.head % 4113 < 4113
        omega
      · exact hslots c hc
    · rw [Window.push_head]; omega
    · exact Nat.sub_le_of_le_add hcur
    · exact hhigh.trans (Nat.le_succ _)
    · exact Window.push_slot_isSome ((Window.readable_push hp).imp_right (hread p))
  case cwMoveCursor c hge hle => exact ⟨hwf, hslots, htop, hge, hle, hread⟩
  all_goals exact hs'

/-- Settles O58: CW_WRITE and CW_MOVE_CURSOR keep the window by their own checks, and every other move leaves or clears it. -/
theorem stepKeepsWindow : Obligations.StepKeepsWindow := by
  intro s t hs h
  refine step_keeps_units (P := WindowOk) ?_ ?_ Ran.windowOk ?_ hs h
  · rintro s t _ ⟨_, _, _, hcw, _⟩ hs
    rw [WindowOk, hcw]
    exact hs
  · rintro s ⟨hwf, hslots, _⟩
    exact windowOk_of_head_zero hwf hslots rfl rfl
  · exact fun s _ => windowOk_of_head_zero .nil (by simp) rfl rfl

/-! ### The LZW dictionary (R240, R242) -/

theorem trieOk_of_lzw_nil {s : State} (h : s.lzw = []) : TrieOk s := by
  rw [TrieOk, h]
  exact ⟨Nat.zero_le _, by simp, .nil⟩

/-- Every primitive command keeps the LZW dictionary: only LZW_INSERT and the clearing commands change it. -/
theorem Ran.trieOk {s u : State} {i : Instr} (hs : TrieOk s) (h : Ran s i u) : TrieOk u := by
  obtain ⟨hlen, hprefix, hnodup⟩ := id hs
  cases h
  case clearAll | lzwClear => exact trieOk_of_lzw_nil rfl
  case lzwInsert hlive hnew =>
    by_cases hfull : s.lzw.length = 65278
    · exact trieOk_of_lzw_nil (by dsimp only; rw [Trie.insert_eq, if_pos hfull])
    · obtain ⟨hne, hlt⟩ := (Trie.live_iff _ _).1 hlive
      rw [Trie.child_eq_none] at hnew
      rw [Trie.insert_eq, if_neg hfull]
      refine ⟨?_, fun j e he => ?_, ?_⟩
      · rw [List.length_append, List.length_singleton]; omega
      · rcases Nat.lt_trichotomy j s.lzw.length with hj | rfl | hj
        · rw [List.getElem?_append_left hj] at he
          exact hprefix j e he
        · rw [List.getElem?_concat_length] at he
          cases he
          exact ⟨hlt, hne⟩
        · rw [List.getElem?_eq_none (by simp; omega)] at he
          cases he
      · exact List.nodup_append.2 ⟨hnodup, List.nodup_singleton _, fun a ha b hb hab => hnew (List.mem_singleton.1 hb ▸ hab ▸ ha)⟩
  all_goals exact hs

/-- Settles O59: LZW_INSERT adds an entry only under a live parent and where there was none. -/
theorem stepKeepsTrie : Obligations.StepKeepsTrie := by
  intro s t hs h
  refine step_keeps_units (P := TrieOk) ?_ ?_ Ran.trieOk ?_ hs h
  · rintro s t _ ⟨_, _, _, _, _, hlzw⟩ hs
    rw [TrieOk, hlzw]
    exact hs
  · exact fun _ _ => trieOk_of_lzw_nil rfl
  · exact fun _ _ => trieOk_of_lzw_nil rfl

/-! ### The Huffman tree (R186, R187) -/

/-- Every primitive command keeps the tree cleared or built: only HT_BUILD and the clearing commands change it. -/
theorem Ran.treeOk {s u : State} {i : Instr} (hs : TreeOk s) (h : Ran s i u) : TreeOk u := by
  cases h
  case clearAll | htClear => exact .inl rfl
  case htBuild hl => exact .inr ⟨s.inBytes s.opLen, by simpa using hl, rfl⟩
  all_goals exact hs

/-- Every step keeps the tree the cleared one or one that BuildTree makes of an input that fits IN_BUF. -/
theorem step_keeps_treeOk {s t : State} (hs : TreeOk s) (h : step s = .next t) : TreeOk t := by
  refine step_keeps_units (P := TreeOk) ?_ ?_ Ran.treeOk ?_ hs h
  · rintro s t hp ⟨_, _, _, _, hht, _⟩ hs
    rw [TreeOk, hht, hp]
    exact hs
  · exact fun _ _ => .inl rfl
  · exact fun _ _ => .inl rfl

/-! ### The buffers and the shifter (R24, R26, R27) -/

/-- A store to OUT within OUT_CAP keeps the buffers well formed. -/
theorem BuffersOk.store {s t : State} {first : Nat} {bytes : List Byte} (h : BuffersOk s)
    (hfit : first + bytes.length ≤ s.params.outCap) (hp : t.params = s.params) (hin : t.inBuf = s.inBuf)
    (hout : t.outBuf = Memory.store s.outBuf first bytes) (hlen : t.outLen.toNat ≤ s.params.outCap) : BuffersOk t := by
  obtain ⟨hwf, hinwf, hincap, houtwf, houtcap, _⟩ := h
  rw [BuffersOk, hp, hin, hout]
  refine ⟨hwf, hinwf, hincap, Memory.store_wf houtwf _ _, fun c hc => ?_, hlen⟩
  rcases Memory.mem_store hc with hc | hc
  · omega
  · exact houtcap c hc

/-- A shifter in its cleared state is well formed. -/
theorem shifterOk_of_cleared {s : State} (h : s.bs = Shifter.cleared) : ShifterOk s := by
  rw [ShifterOk, h]
  exact ⟨by decide, by decide, Nat.zero_le _⟩

/-- Finish keeps the pending bits in form (R149). -/
theorem finishWriter_ok {cap : Nat} {w w' : Writer} (hw : w.ok) (h : finishWriter cap w = .ok w') : w'.ok := by
  have hspec := finishWriter_spec cap w hw
  rw [h] at hspec
  split at hspec
  · cases hspec; exact hw
  · split at hspec
    · cases hspec
    · obtain ⟨w1, he, _, _, hnacc, hacc, _⟩ := hspec
      cases he
      simp [Writer.ok, hnacc, hacc]

/-- A run of bits keeps the pending bits in form (R146). -/
theorem writeAll_ok {cap : Nat} {bits : List Bool} {w w' : Writer} (hw : w.ok) (hc : w.len ≤ cap)
    (h : writeAll cap bits w = .ok w') : w'.ok := by
  have hspec := writeAll_spec cap bits w hw hc
  rw [h] at hspec
  split at hspec
  · obtain ⟨w1, he, hwrites⟩ := hspec
    cases he
    exact hwrites.ok
  · cases hspec

/-- A bitstream write or finish that goes on keeps the buffers and the shifter. -/
theorem withWriter_buffersOk_shifterOk {s : State} {w : Writer} (hb : BuffersOk s) (hs : ShifterOk s)
    (hext : s.writer.Extends s.params.outCap w) (hw : w.ok) : BuffersOk (s.withWriter w) ∧ ShifterOk (s.withWriter w) := by
  obtain ⟨hlen, hcap⟩ := withWriter_outLen hb hext
  have hfit : s.outLen.toNat + w.out.reverse.length ≤ s.params.outCap := by
    rw [List.length_reverse, ← hlen]
    exact hcap
  obtain ⟨_, _, hrpos⟩ := hs
  exact ⟨hb.store hfit rfl rfl rfl hcap, hw.1, hw.2, hrpos⟩

/-- Every primitive command keeps the buffers and the shifter. -/
theorem Ran.buffersOk_shifterOk {s u : State} {i : Instr} (hs : BuffersOk s ∧ ShifterOk s) (h : Ran s i u) :
    BuffersOk u ∧ ShifterOk u := by
  obtain ⟨hb, hsh⟩ := hs
  obtain ⟨hwf, hinwf, hincap, houtwf, houtcap, hlen⟩ := id hb
  obtain ⟨hnacc, hacc, _⟩ := id hsh
  have hwriter : s.writer.ok := ⟨hnacc, hacc⟩
  cases h
  case clearAll | bsInit =>
    exact ⟨⟨hwf, hinwf, hincap, houtwf, houtcap, Nat.zero_le _⟩, shifterOk_of_cleared rfl⟩
  case read n hl hp _ => exact ⟨hb, hnacc, hacc, by dsimp only; omega⟩
  case write n w _ hw _ =>
    exact withWriter_buffersOk_shifterOk hb hsh (writeAll_extends (w := s.writer) hlen hw) (writeAll_ok hwriter hlen hw)
  case finish w _ hw =>
    exact withWriter_buffersOk_shifterOk hb hsh (finishWriter_extends (w := s.writer) hlen hw) (finishWriter_ok hwriter hw)
  all_goals exact ⟨hb, hsh⟩

/-- An abandoned command spoils its span and nothing else (R372). -/
theorem State.abandon_span (s : State) : s.abandon = s ∨ ∃ i, s.abandon = s.spoilOut (outSpan s i).1 (outSpan s i).2 := by
  unfold State.abandon
  split
  · split
    · exact .inr ⟨_, rfl⟩
    · exact .inl rfl
  · exact .inl rfl

/-- A soft reset keeps the buffers: what an abandoned command may have written lies within OUT_CAP (R372). -/
theorem State.softReset_buffersOk {s : State} (hb : BuffersOk s) : BuffersOk s.softReset := by
  obtain ⟨first, bytes, hfit, hout⟩ : ∃ first bytes, first + bytes.length ≤ s.params.outCap ∧
      s.abandon.outBuf = Memory.store s.outBuf first bytes := by
    rcases s.abandon_span with h | ⟨i, h⟩ <;> rw [h]
    · exact ⟨0, [], Nat.zero_le _, rfl⟩
    · exact ⟨_, freeBytes s.draws (outSpan s i).2, by rw [freeBytes_length]; exact outSpan_le hb i, rfl⟩
  exact hb.store hfit rfl s.abandon_inBuf hout (Nat.zero_le _)

/-- Settles O55: the buffers and the shifter by the commands' spans and writers, the tree on its own. -/
theorem stepKeepsBuffersShifterAndTree : Obligations.StepKeepsBuffersShifterAndTree := by
  intro s t h
  refine ⟨fun hs => ?_, fun hs => step_keeps_treeOk hs h⟩
  refine step_keeps_data (P := fun s => BuffersOk s ∧ ShifterOk s) ?_ ?_ Ran.buffersOk_shifterOk ?_ ?_ hs h
  · rintro s t ⟨hp, hin, hout, hlen, hbs, _⟩ ⟨hb, hsh⟩
    rw [BuffersOk, ShifterOk, hp, hin, hout, hlen, hbs]
    exact ⟨hb, hsh⟩
  · rintro s bytes n ⟨hb, _⟩ hfit hn
    exact ⟨hb.store (first := 0) (by omega) rfl rfl rfl (hn.trans hfit), shifterOk_of_cleared rfl⟩
  · exact fun s ⟨hb, _⟩ => ⟨State.softReset_buffersOk hb, shifterOk_of_cleared rfl⟩
  · rintro s a v ⟨⟨hwf, hinwf, hincap, hout⟩, hsh⟩ ha
    refine ⟨⟨hwf, Sparse.put_wf hinwf _ _, fun c hc => ?_, hout⟩, hsh⟩
    rcases Sparse.mem_put hc with rfl | hc
    · exact ha
    · exact hincap c hc

end Sys2Proof.Machine
end

section
/-! PROOFS. The host's accesses to IN and OUT (20_memory.md R71 to R73), and what a command reads of IN (R74, R140). -/

namespace Sys2Proof.Machine

/-! ### Byte accesses to IN and OUT (R72, R73) -/

/-- A host write to IN while BUSY = 0 changes nothing but IN, and there the one byte below IN_CAP (R72). -/
theorem State.hostWriteIn_idle {s : State} (hb : s.busy = false) (a : Nat) (v : Word) :
    { s.hostWriteIn a v with inBuf := s.inBuf } = s ∧
      ∀ b, (s.hostWriteIn a v).inByte b = if b = a ∧ a < s.params.inCap then v.setWidth 8 else s.inByte b := by
  unfold State.hostWriteIn
  rw [if_neg (by rw [hb]; decide)]
  by_cases ha : a < s.params.inCap
  · rw [if_pos ha]
    refine ⟨rfl, fun b => ?_⟩
    by_cases hba : b = a
    · rw [if_pos ⟨hba, ha⟩, hba, State.inByte, Sparse.get_put_self]
      exact byteOperand_eq v
    · rw [if_neg (fun h => hba h.1), State.inByte, Sparse.get_put_ne _ _ hba]
      rfl
  · rw [if_neg ha]
    exact ⟨rfl, fun b => (if_neg fun h => ha h.2).symm⟩

/-- Settles O14: each byte access is its `hostAccess` arm, split on BUSY. -/
theorem bufferAccesses : Obligations.BufferAccesses := by
  intro s addr v rest
  refine ⟨fun h => ?_, fun h => ⟨fun hb => ?_, fun hb => ?_⟩, fun h => ?_, fun h hb => ?_⟩ <;> rw [step_host h]
  · rfl
  · show Host.Outcome.next (({ s with agenda := rest } : State).hostReadOut addr) = _
    unfold State.hostReadOut
    exact congrArg Host.Outcome.next (if_neg fun hbusy => Bool.noConfusion (hb.symm.trans hbusy))
  · exact ⟨Config.freeByte s.draws, congrArg Host.Outcome.next (if_pos hb)⟩
  · show Host.Outcome.next ({ s with agenda := rest } : State).hostWriteOut = _
    rcases State.hostWriteOut_cases { s with agenda := rest } with ⟨hb, e⟩ | ⟨hb, e⟩
    · rw [e, show s.busy = false from hb, Bool.or_false]
    · rw [e, show s.busy = true from hb, Bool.or_true]
      rfl
  · exact ⟨_, rfl, State.hostWriteIn_idle (s := { s with agenda := rest }) hb addr v⟩

/-! ### Accesses of another width (R71) -/

theorem regAccess_refused {off n : Nat} (u : State) (h : n ≠ 4 ∨ off % 4 ≠ 0) : regAccess off n u = .refused .accessWidth :=
  if_neg fun hl => h.elim (· hl.1) (· hl.2)

theorem byteAccess_refused {n : Nat} (u : State) (h : n ≠ 1) : byteAccess n u = .refused .accessWidth := if_neg h

/-- Settles O15: by the space of the access, and whether it reads or writes. -/
theorem oddAccessesAreRefused : Obligations.OddAccessesAreRefused := by
  intro s a rest hs h
  rw [step_host hs]
  rcases h with ⟨off, n, rfl | ⟨v, rfl⟩, hn⟩ | ⟨sp, addr, n, hsp, rfl | ⟨v, rfl⟩, hn⟩
  · exact regAccess_refused _ hn
  · exact regAccess_refused _ hn
  · cases sp
    case reg => exact absurd rfl hsp
    case input | output => exact byteAccess_refused _ hn
  · cases sp
    case reg => exact absurd rfl hsp
    case input | output => exact byteAccess_refused _ hn

/-! ### Which bytes of IN a command reads (R74, R140) -/

/-- A run of a primitive command with IN replaced in the state it leaves. -/
def runWithIn (m : Memory) (run : Except Err (Results × State)) : Except Err (Results × State) :=
  run.map fun x => (x.1, { x.2 with inBuf := m })

/-- What a step answers, with IN replaced in the next state. -/
def outWithIn (m : Memory) : Out → Out
  | .next t => .next { t with inBuf := m }
  | .fault r => .fault r
  | .refused r => .refused r

section WithIn

variable (s : State) (m : Memory)

@[simp] theorem State.opArg0_withIn : ({ s with inBuf := m } : State).opArg0 = s.opArg0 := rfl
@[simp] theorem State.opArg1_withIn : ({ s with inBuf := m } : State).opArg1 = s.opArg1 := rfl
@[simp] theorem State.opLen_withIn : ({ s with inBuf := m } : State).opLen = s.opLen := rfl
@[simp] theorem State.writer_withIn : ({ s with inBuf := m } : State).writer = s.writer := rfl

/-- A check that does not look at IN. -/
theorem ite_withIn {c : Prop} [Decidable c] {a a' b b' : Except Err (Results × State)} (ha : a' = runWithIn m a)
    (hb : b' = runWithIn m b) : (if c then a' else b') = runWithIn m (if c then a else b) := by
  rw [ha, hb, runWithIn, runWithIn, runWithIn, apply_ite (Except.map _)]

/-- A primitive command whose run only carries IN along ends the same, whatever IN holds. -/
theorem settle_withIn {run run' : Except Err (Results × State)} (h : run' = runWithIn m run) :
    settle { s with inBuf := m } run' = outWithIn m (settle s run) := by
  rw [h]
  cases run <;> rfl

theorem settleCodec_withIn (run : Except CodecRaise CodecDone) :
    settleCodec { s with inBuf := m } run = outWithIn m (settleCodec s run) := by
  cases run <;> rfl

theorem withLegalImm_withIn (legal : Bool) {run run' : Except Err (Results × State)} (h : run' = runWithIn m run) :
    withLegalImm legal run' = runWithIn m (withLegalImm legal run) := by
  rw [h]
  cases legal <;> rfl

theorem withInput_withIn {run run' : Except Err (Results × State)} (h : run' = runWithIn m run) :
    withInput { s with inBuf := m } run' = runWithIn m (withInput s run) := by
  by_cases hl : s.opLen ≤ s.params.inCap
  · rw [withInput_of_le hl, withInput_of_le (s := { s with inBuf := m }) hl, h]
  · rw [withInput_of_lt (Nat.not_le.1 hl), withInput_of_lt (s := { s with inBuf := m }) (Nat.not_le.1 hl)]
    rfl

theorem bsWrite_withIn (n : Nat) : bsWrite n { s with inBuf := m } = runWithIn m (bsWrite n s) := by
  refine ite_withIn m ?_ rfl
  simp only [State.opArg0_withIn, State.writer_withIn]
  cases writeAll s.params.outCap (bitsOf s.opArg0.toNat n) s.writer <;> rfl

theorem bsFlush_withIn : bsFlush { s with inBuf := m } = runWithIn m (bsFlush s) := by
  refine ite_withIn m ?_ rfl
  simp only [State.writer_withIn]
  cases finishWriter s.params.outCap s.writer <;> rfl

end WithIn

section Readers

variable {s : State} {m : Memory} (h : ∀ a, a < s.opLen → ({ s with inBuf := m } : State).inByte a = s.inByte a)
include h

theorem State.readBits_withIn (n : Nat) : ({ s with inBuf := m } : State).readBits n = s.readBits n := by
  by_cases hn : 8 * s.opLen < s.bs.rpos + n
  · exact (if_pos hn).trans (if_pos hn).symm
  · refine (if_neg hn).trans (Eq.trans ?_ (if_neg hn).symm)
    refine congrArg (fun bits => some (ofBits bits)) (List.map_congr_left fun i hi => ?_)
    have hi := List.mem_range.1 hi
    exact congrArg (BitVec.getLsbD · _) (h ((s.bs.rpos + i) / 8) (by omega))

theorem bsRead_withIn (n : Nat) : bsRead n { s with inBuf := m } = runWithIn m (bsRead n s) := by
  refine withInput_withIn s m ?_
  rw [State.readBits_withIn h]
  cases s.readBits n <;> rfl

end Readers

/-- The comparison loop compares bytes below the limit only (R211). -/
theorem extendMatch_congr {byte byte' : Nat → Byte} {p c lim : Nat} (h : ∀ a, a < c + lim → byte a = byte' a) (hp : p < c)
    (fuel l : Nat) : extendMatch byte p c lim fuel l = extendMatch byte' p c lim fuel l := by
  induction fuel generalizing l with
  | zero => rfl
  | succ fuel ih =>
    have hcond : (l < lim ∧ byte (p + l) = byte (c + l)) ↔ (l < lim ∧ byte' (p + l) = byte' (c + l)) :=
      and_congr_right fun hl => by rw [h (p + l) (by omega), h (c + l) (by omega)]
    simp only [extendMatch, hcond, ih]

theorem scanMatches_congr {byte byte' : Nat → Byte} {c lim : Nat} (h : ∀ a, a < c + lim → byte a = byte' a)
    {ps : List Nat} (hps : ∀ p ∈ ps, p < c) (best : Nat × Nat) :
    scanMatches byte c lim ps best = scanMatches byte' c lim ps best := by
  induction ps generalizing best with
  | nil => rfl
  | cons p ps ih =>
    have hp : matchLength byte p c lim = matchLength byte' p c lim := extendMatch_congr h (hps p (by simp)) lim 3
    simp only [scanMatches, hp, ih fun q hq => hps q (List.mem_cons_of_mem p hq)]

/-- Every candidate lies before the current position (R211). -/
theorem lt_of_mem_candidates {byte : Nat → Byte} {c p : Nat} (h : p ∈ candidates byte c) : p < c := by
  simp only [candidates, List.mem_filter, List.mem_map, List.mem_range] at h
  obtain ⟨⟨i, hi, rfl⟩, _⟩ := h
  omega

theorem candidates_congr {byte byte' : Nat → Byte} {c : Nat} (h : ∀ a, a < c + 3 → byte a = byte' a) :
    candidates byte c = candidates byte' c := by
  have hkey : ∀ p, p ≤ c → keyAt byte p = keyAt byte' p := fun p hp => by
    rw [keyAt, keyAt, h p (by omega), h (p + 1) (by omega), h (p + 2) (by omega)]
  refine List.filter_congr fun p hp => ?_
  obtain ⟨i, _, rfl⟩ := List.mem_map.1 hp
  rw [hkey _ (by omega), hkey c le_rfl]

/-- FindMatch reads the input below its length only (R211). -/
theorem findMatch_congr {byte byte' : Nat → Byte} {N : Nat} (h : ∀ a, a < N → byte a = byte' a) (c : Nat) :
    findMatch byte N c = findMatch byte' N c := by
  unfold findMatch
  split
  · rfl
  · rw [candidates_congr (byte := byte) (byte' := byte') fun a ha => h a (by omega),
      scanMatches_congr (byte := byte) (byte' := byte') (fun a ha => h a (by omega)) fun p hp => lt_of_mem_candidates hp]

/-- Every command carries IN along, and reads it below IN_LEN only (R74, R140). -/
theorem exec_withIn (i : Instr) {s : State} {m : Memory}
    (h : ∀ a, a < s.opLen → ({ s with inBuf := m } : State).inByte a = s.inByte a) :
    exec i { s with inBuf := m } = outWithIn m (exec i s) := by
  by_cases hi : IsCodec i
  · rw [exec_codec hi, exec_codec hi, withInputBytes_congr (s := { s with inBuf := m }) (s' := s) rfl rfl h]
    exact settleCodec_withIn s m _
  cases i
  case hufCompress | hufDecompress | lzssCompress | lzssDecompress | lzwCompress | lzwDecompress =>
    exact absurd (by simp [IsCodec]) hi
  case nop | clearAll | bsInit | bsStatus | pqClear | hdClear | hdCount | cwClear | cwStatus | htClear | lzwClear | lzwStatus =>
    rfl
  all_goals refine settle_withIn s m ?_
  case bsReadBit => exact bsRead_withIn h 1
  case bsReadBits n => exact withLegalImm_withIn m _ (bsRead_withIn h _)
  case bsReadBytes n => exact withLegalImm_withIn m _ (bsRead_withIn h _)
  case bsWriteBit => exact bsWrite_withIn s m 1
  case bsWriteBits n => exact withLegalImm_withIn m _ (bsWrite_withIn s m _)
  case bsWriteBytes n => exact withLegalImm_withIn m _ (bsWrite_withIn s m _)
  case bsFinish => exact bsFlush_withIn s m
  case htBuild =>
    refine withInput_withIn s m ?_
    simp only [State.opLen_withIn, State.inBytes_congr h]
    rfl
  case lzssFind =>
    refine withInput_withIn s m ?_
    refine ite_withIn m rfl ?_
    simp only [State.opLen_withIn, State.opArg0_withIn, findMatch_congr h]
    rfl
  case htCode k => exact withLegalImm_withIn m _ (ite_withIn m rfl (ite_withIn m rfl rfl))
  case pqPush | hdInsert | cwRead | cwMoveCursor | lzwWidth => exact ite_withIn m rfl rfl
  case cwWrite => exact ite_withIn m rfl (ite_withIn m rfl rfl)
  case pqPop =>
    dsimp only
    cases heapPop s.pq <;> rfl
  case pqSize =>
    dsimp only
    split <;> rfl
  case hdRemoveOldest =>
    simp only [State.opArg0_withIn]
    cases Dict.list s.hd (keyOperand s.opArg0) <;> rfl
  case hdGet =>
    simp only [State.opArg0_withIn, State.opArg1_withIn]
    cases (Dict.list s.hd (keyOperand s.opArg0)).reverse[s.opArg1.toNat]? <;> rfl
  case htNode =>
    refine ite_withIn m ?_ rfl
    simp only [State.opArg0_withIn]
    cases s.ht.nodes[s.opArg0.toNat]? <;> rfl
  case lzwLookup =>
    refine ite_withIn m rfl (ite_withIn m ?_ rfl)
    simp only [State.opArg0_withIn, State.opArg1_withIn]
    cases Trie.child s.lzw s.opArg0.toNat (byteOperand s.opArg1) <;> rfl
  case lzwInsert =>
    refine ite_withIn m ?_ rfl
    simp only [State.opArg0_withIn, State.opArg1_withIn]
    cases Trie.child s.lzw s.opArg0.toNat (byteOperand s.opArg1) <;> rfl
  case lzwEntry =>
    refine ite_withIn m rfl ?_
    simp only [State.opArg0_withIn]
    cases Trie.entry s.lzw s.opArg0.toNat <;> rfl

/-- Settles O23: the two runs differ in the IN they carry along. -/
theorem commandsReadOnlyValidInput : Obligations.CommandsReadOnlyValidInput := by
  intro i s m t t' hin h h'
  rw [exec_withIn i hin, h] at h'
  obtain rfl := Host.Outcome.next.inj h'
  rfl

end Sys2Proof.Machine
end

section
/-! PROOFS. The command word (30_encoding.md R100 to R105): the decoder and R103's table accept the same words, decoding and encoding
undo each other, and what the engine does with an illegal word. -/

namespace Sys2Proof

/-! ### The fields of a word, as numbers (R100) -/

theorem opcodeField_toNat (w : Word) : (opcodeField w).toNat = w.toNat / 2 ^ 24 := by
  have := w.isLt
  rw [opcodeField, BitVec.extractLsb'_toNat, Nat.shiftRight_eq_div_pow]
  omega

theorem reservedField_toNat (w : Word) : (reservedField w).toNat = w.toNat / 2 ^ 8 % 2 ^ 16 := by
  rw [reservedField, BitVec.extractLsb'_toNat, Nat.shiftRight_eq_div_pow]

theorem immField_toNat (w : Word) : (immField w).toNat = w.toNat % 2 ^ 8 := by
  rw [immField, BitVec.extractLsb'_toNat, Nat.shiftRight_zero]

theorem reservedField_eq_zero_iff (w : Word) : reservedField w = 0#16 ↔ w.toNat / 2 ^ 8 % 2 ^ 16 = 0 := by
  rw [← reservedField_toNat, BitVec.toNat_eq]
  rfl

/-- A word is its three fields put together. -/
theorem fields_append (w : Word) : (opcodeField w ++ reservedField w ++ immField w : Word) = w := by
  apply BitVec.eq_of_getLsbD_eq
  intro j hj
  rw [BitVec.getLsbD_append, BitVec.getLsbD_append, opcodeField, reservedField, immField]
  simp only [BitVec.getLsbD_extractLsb']
  grind

/-! ### The commands of R103 and their immediates -/

/-- The least and the greatest IMM8 of a command's opcode (R103). -/
def Instr.immRange : Instr → Nat × Nat
  | .bsReadBits _ | .bsWriteBits _ => (1, 32)
  | .bsReadBytes _ | .bsWriteBytes _ => (1, 4)
  | .htCode _ => (0, 7)
  | _ => (0, 0)

/-- A command is well formed when its immediate is in the range of its opcode (R104). -/
theorem Instr.wellFormed_iff (i : Instr) :
    i.wellFormed = true ↔ i.immRange.1 ≤ (immOf i).toNat ∧ (immOf i).toNat ≤ i.immRange.2 := by
  cases i <;> simp [Instr.wellFormed, Instr.immRange, immOf]

/-- A command without an immediate has IMM8 = 0 in its word and admits no other (R103). -/
theorem Instr.immOf_immRange_of_not_hasImm {i : Instr} (h : i.hasImm = false) : immOf i = 0 ∧ i.immRange = (0, 0) := by
  cases i <;> first | exact ⟨rfl, rfl⟩ | cases h

/-- The opcode and the immediate of a command select it. -/
theorem commandOf_opcodeOf (i : Instr) : commandOf (opcodeOf i) (immOf i) = some i := by
  cases i <;> rfl

/-- A command that an opcode selects has that opcode, and the immediate too if it takes one. -/
theorem commandOf_some {op imm : Byte} {i : Instr} (h : commandOf op imm = some i) :
    opcodeOf i = op ∧ (i.hasImm = true → immOf i = imm) := by
  unfold commandOf at h
  split at h <;> cases h <;> exact ⟨rfl, fun hi => by cases hi <;> rfl⟩

/-- An immediate in the range of the command that an opcode selects is that command's. -/
theorem immOf_of_commandOf {op imm : Byte} {i : Instr} (h : commandOf op imm = some i)
    (hmax : imm.toNat ≤ i.immRange.2) : immOf i = imm := by
  cases hi : i.hasImm with
  | true => exact (commandOf_some h).2 hi
  | false =>
    obtain ⟨himm, hrange⟩ := Instr.immOf_immRange_of_not_hasImm hi
    rw [hrange] at hmax
    rw [himm]
    exact (BitVec.eq_of_toNat_eq (Nat.le_zero.1 hmax)).symm

/-- Every command's opcode stands in R103's table with the command's range of IMM8. -/
theorem opcodeOf_mem_commandTable (i : Instr) : ((opcodeOf i).toNat, i.immRange) ∈ Machine.commandTable := by
  cases i <;> simp [opcodeOf, Instr.immRange, Machine.commandTable]

/-- Every row of R103's table is the opcode of a command with the row's range of IMM8. -/
theorem commandOf_of_mem_commandTable (imm : Byte) :
    ∀ row ∈ Machine.commandTable, (commandOf (BitVec.ofNat 8 row.1) imm).map Instr.immRange = some row.2 :=
  List.map_inj_left.1 rfl

/-! ### Decoding -/

/-- The decoder's one accepting case: the opcode selects the command, RSV is 0 and IMM8 is in the command's range (R104, R105). -/
theorem decode_eq_ok_iff (w : Word) (i : Instr) :
    decode w = .ok i ↔ commandOf (opcodeField w) (immField w) = some i ∧ reservedField w = 0#16 ∧
      i.immRange.1 ≤ (immField w).toNat ∧ (immField w).toNat ≤ i.immRange.2 := by
  unfold decode
  cases hc : commandOf (opcodeField w) (immField w) with
  | none => simp
  | some j =>
    by_cases hr : reservedField w = 0#16
    · cases hi : j.hasImm with
      | true =>
        have hwf := j.wellFormed_iff
        rw [(commandOf_some hc).2 hi] at hwf
        simp only [hr, hi, hwf]
        grind
      | false =>
        have hz : immField w = 0 ↔ (immField w).toNat ≤ 0 := by
          rw [Nat.le_zero, BitVec.toNat_eq]
          rfl
        obtain ⟨_, hrange⟩ := Instr.immOf_immRange_of_not_hasImm hi
        grind
    · simp [hr]

/-- Settles O1: the fields of the encoded word are the command's own, which the decoder's accepting case asks for. -/
theorem decodeOfEncode : Obligations.DecodeOfEncode := by
  intro i hwf
  obtain ⟨hop, hrsv, himm⟩ := Laws.Rsv.fields (opcodeOf i) (immOf i)
  rw [decode_eq_ok_iff, encode, hop, hrsv, himm]
  exact ⟨commandOf_opcodeOf i, rfl, i.wellFormed_iff.1 hwf⟩

/-- A word that decodes to a command is that command's word. -/
theorem encode_of_decode {w : Word} {i : Instr} (h : decode w = .ok i) : encode i = w ∧ i.wellFormed = true := by
  obtain ⟨hc, hr, hrange⟩ := (decode_eq_ok_iff w i).1 h
  have himm := immOf_of_commandOf hc hrange.2
  rw [i.wellFormed_iff, encode, (commandOf_some hc).1, himm, ← hr]
  exact ⟨fields_append w, hrange⟩

/-- The decoder accepts exactly the words of R103's table (R104). -/
theorem exists_decode_iff_legalWord (w : Word) : (∃ i, decode w = .ok i) ↔ Machine.LegalWord w := by
  simp only [Machine.LegalWord, ← opcodeField_toNat, ← reservedField_eq_zero_iff, ← immField_toNat]
  constructor
  · rintro ⟨i, h⟩
    obtain ⟨hc, hr, hmin, hmax⟩ := (decode_eq_ok_iff w i).1 h
    exact ⟨_, opcodeOf_mem_commandTable i, by rw [(commandOf_some hc).1], hr, hmin, hmax⟩
  · rintro ⟨row, hrow, hop, hr, hmin, hmax⟩
    have hcmd := commandOf_of_mem_commandTable (immField w) row hrow
    rw [← hop, BitVec.ofNat_toNat, BitVec.setWidth_eq] at hcmd
    obtain ⟨i, hc, hrange⟩ := Option.map_eq_some_iff.1 hcmd
    exact ⟨i, (decode_eq_ok_iff w i).2 ⟨hc, hr, by rw [hrange]; exact hmin, by rw [hrange]; exact hmax⟩⟩

/-- Settles O2, from the decoder's accepting case read against R103's table and put together again by `encode`. -/
theorem everyWordIsOneCommandOrIllegal : Obligations.EveryWordIsOneCommandOrIllegal :=
  fun w => ⟨exists_decode_iff_legalWord w, fun _ => encode_of_decode⟩

/-- Settles O3: twelve closed words. -/
theorem tableWordsDecode : Obligations.TableWordsDecode := by
  unfold Obligations.TableWordsDecode
  decide

end Sys2Proof

namespace Sys2Proof.Machine

/-! ### Illegal words (R104) -/

/-- With no move left the engine takes its turn (R386). -/
theorem step_agenda_nil {s : State} (h : s.agenda = []) : step s = engineTurn s := by
  unfold step nextMove
  rw [h]

/-- An engine event at the front of the agenda is the engine's turn (R386). -/
theorem step_engine {s : State} {rest : List Event} (h : s.agenda = .engine :: rest) :
    step s = engineTurn { s with agenda := rest } := by
  unfold step nextMove
  rw [h]

/-- On an illegal word the engine's turn is the completion with ILLEGAL_COMMAND (R104, log 9). -/
theorem engineTurn_illegal {s : State} {l : Latch} (hl : s.latch = some l) (hw : ¬ LegalWord l.cmd) :
    engineTurn s = .next (s.raise .illegalCommand) := by
  rw [engineTurn, if_pos (State.busy_iff.2 ⟨l, hl⟩), engineStep, State.operands_of_latch hl]
  cases hd : decode l.cmd with
  | ok i => exact absurd ((exists_decode_iff_legalWord l.cmd).1 ⟨i, hd⟩) hw
  | error e => rfl

/-- ERR_CODE as STATUS shows it (R23, R330). -/
theorem State.statusWord_errCode (s : State) : s.statusWord.extractLsb' 4 4 = errCode s.err := by
  obtain ⟨_, _, _, _, hcode, _⟩ := statusAndCtrlLayout s
  exact hcode

/-- Settles O5: the engine's turn is an error raised in the state it is taken from. -/
theorem illegalWordCompletes : Obligations.IllegalWordCompletes := by
  intro s l hl hw
  refine ⟨fun h => ?_, fun rest h => ?_⟩
  · exact ⟨_, (step_agenda_nil h).trans (engineTurn_illegal hl hw), s.raise_failedWith _, State.statusWord_errCode _⟩
  · exact ⟨_, (step_engine h).trans (engineTurn_illegal (s := { s with agenda := rest }) hl hw), State.raise_failedWith _ _,
      State.statusWord_errCode _⟩

end Sys2Proof.Machine
end

section
/-! PROOFS. How a codec command ends, once its function of the input is known (R60, R335), and the compress commands: the stream
each packs, and what it leaves in OUT (R183, R214, R246). -/

namespace Sys2Proof.Machine

/-- A compress command packs its stream, which starts with the codec's tag (R107). -/
theorem CompressForm.codecRun_eq {p : Config.Params} {x : List Byte} {i : Instr} {tag : Word} {stream : List Bool} {r2 : Nat}
    (h : CompressForm p x i tag stream r2) :
    IsCodec i ∧ codecRun p i x = packStream p.outCap stream r2 ∧ ∃ payload, stream = tagBits tag ++ payload := by
  rcases h with ⟨rfl, rfl, rfl, rfl⟩ | ⟨rfl, rfl, rfl, rfl⟩ | ⟨rfl, rfl, rfl, rfl⟩
  · exact ⟨by simp [IsCodec], rfl, _, by simp only [hufStream, List.append_assoc]; rfl⟩
  · exact ⟨by simp [IsCodec], rfl, _, List.append_assoc _ _ _⟩
  · exact ⟨by simp [IsCodec], rfl, _, rfl⟩

/-- OUT_CAP of legal parameters (R7). -/
theorem outCap_le_of_wf {p : Config.Params} (h : p.wf = true) : p.outCap ≤ 2 ^ 28 := by
  simp only [Config.Params.wf, Bool.and_eq_true, decide_eq_true_eq] at h
  omega

/-- A codec command whose function succeeds on the input leaves the output in OUT from index 0 on, its length in OUT_LEN, every
sub-unit cleared, and nothing else changed (R60, R342). -/
theorem exec_codec_done {i : Instr} {s : State} {d : CodecDone} (hi : IsCodec i) (hwf : s.params.wf = true)
    (hlen : s.opLen ≤ s.params.inCap) (hrun : codecRun s.params i (s.inBytes s.opLen) = .ok d) :
    ∃ t, exec i s = .next t ∧ t.outBytes = d.out ∧ t.outLen.toNat = d.out.length ∧
      CompletedWith t t.outLen (BitVec.ofNat 32 d.r1) (BitVec.ofNat 32 d.r2) ∧ UnitsCleared t ∧ SameHostSide s t ∧
      ∀ a, t.outLen.toNat ≤ a → t.outByte a = s.outByte a := by
  have hexec := exec_codec hi s
  rw [withInputBytes_of_le hlen, hrun] at hexec
  have hout : (BitVec.ofNat 32 d.out.length).toNat = d.out.length := by
    have hfits := (codecRun_fits hi _).1 d hrun
    have hcap := outCap_le_of_wf hwf
    rw [BitVec.toNat_ofNat]
    omega
  refine ⟨_, hexec, State.outBytes_store (m := s.outBuf) rfl hout, hout, ⟨rfl, rfl, rfl, rfl, rfl, rfl⟩,
    (codecEndsWithUnitsCleared i s _ hi hexec).1, commandsLeaveHostSide i s _ hexec, fun a ha => ?_⟩
  have ha : d.out.length ≤ a := hout ▸ ha
  rw [State.outByte_store _ s.outBuf 0 a d.out rfl, if_neg (by omega)]
  rfl

/-- A codec command whose function raises on the input ends with that error and OUT_LEN 0 (R335). -/
theorem exec_codec_raised {i : Instr} {s : State} {e : CodecRaise} (hi : IsCodec i) (hlen : s.opLen ≤ s.params.inCap)
    (hrun : codecRun s.params i (s.inBytes s.opLen) = .error e) :
    ∃ t, exec i s = .next t ∧ t.err = some e.err ∧ t.outLen = 0 := by
  rw [exec_codec hi, withInputBytes_of_le hlen, hrun]
  exact ⟨_, rfl, rfl, rfl⟩

/-- Settles O44: what `packStream` makes of the stream, left by the codec commands' common end. -/
theorem compressCommandsComplete : Obligations.CompressCommandsComplete := by
  intro i s tag stream r2 hwf hlen hform
  obtain ⟨hi, hrun, payload, hstream⟩ := hform.codecRun_eq
  have hpack := packStream_spec s.params.outCap stream r2
  refine ⟨fun hfit => ?_, fun hfit => ?_⟩
  · rw [if_pos hfit] at hpack
    obtain ⟨d, hd, hdlen, hr1, hr2, hbits⟩ := hpack
    obtain ⟨t, hexec, hout, houtLen, hdone, hunits, hhost, hframe⟩ := exec_codec_done hi hwf hlen (hrun.trans hd)
    refine ⟨t, hexec, houtLen.trans hdlen, ?_, ?_, ?_, hunits, hhost, hframe⟩
    · rw [hout, hbits, houtLen]
    · rw [hstream]
      exact List.take_left' (tagBits_length tag)
    · rw [← hr1, ← hr2]
      exact hdone
  · rw [if_neg (by omega)] at hpack
    exact exec_codec_raised hi hlen (hrun.trans hpack)

end Sys2Proof.Machine
end

section
/-! PROOFS. The bitstream commands (40_bitstream.md R140 to R159): what a read returns, what a write and BS_FINISH append, and when
each raises; and the five status commands (R159, R256, R287, R295, R306). -/

namespace Sys2Proof.Machine

/-! ### The forms of the commands -/

/-- A read asks for at most 32 bits, so its value fits a result register (R153, R154). -/
theorem ReadForm.le_32 {i : Instr} {n : Nat} (h : ReadForm i n) : n ≤ 32 := by
  rcases h with ⟨_, rfl⟩ | ⟨k, _, _, h2, rfl⟩ | ⟨k, _, _, h2, rfl⟩ <;> omega

/-- A bitstream write is its shared operation, the immediate being legal (R155 to R157). -/
theorem exec_write {i : Instr} {n : Nat} (h : WriteForm i n) (s : State) : exec i s = settle s (bsWrite n s) := by
  rcases h with ⟨rfl, rfl⟩ | ⟨k, rfl, h1, h2, rfl⟩ | ⟨k, rfl, h1, h2, rfl⟩
  · rfl
  · simp [exec, execBsWriteBits, h1, h2]
  · simp [exec, execBsWriteBytes, h1, h2]

/-- BS_FINISH is its shared operation (R158). -/
theorem exec_bsFinish (s : State) : exec .bsFinish s = settle s (bsFlush s) := rfl

/-- A primitive command whose operation raises ends with that error and changes nothing else (R334). -/
theorem failedWith_of_settle_error {i : Instr} {s : State} {run : Except Err (Results × State)} {e : Err}
    (hexec : exec i s = settle s run) (hrun : run = .error e) : ∃ t, exec i s = .next t ∧ FailedWith s t e :=
  ⟨s.raise e, by rw [hexec, hrun, settle_error], s.raise_failedWith e⟩

/-! ### Errors (R144, R150) -/

theorem bsRead_of_past_end {n : Nat} {s : State} (hlen : s.opLen ≤ s.params.inCap) (hend : 8 * s.opLen < s.bs.rpos + n) :
    bsRead n s = .error .unexpectedEndOfStream := by
  rw [bsRead, withInput_of_le hlen, State.readBits, if_pos hend]

theorem bsWrite_of_not_fits {n : Nat} {s : State} (hfull : s.params.outCap < s.outLen.toNat + (s.bs.nacc + n) / 8) :
    bsWrite n s = .error .capacityExceeded := by
  have hfit : s.bitsFit n = false := decide_eq_false (Nat.not_le.2 hfull)
  rw [bsWrite, hfit, if_neg Bool.false_ne_true]

/-- The partial byte that BS_FINISH completes: one with bits pending, none without (R149). -/
theorem pendingByte_eq (m : Nat) : (if m = 0 then 0 else 1) = if 0 < m then 1 else 0 := by
  split <;> split <;> omega

theorem bsFlush_of_not_fits {s : State} (hfull : s.params.outCap < s.outLen.toNat + (if 0 < s.bs.nacc then 1 else 0)) :
    bsFlush s = .error .capacityExceeded := by
  rw [bsFlush, pendingByte_eq, if_neg (Nat.not_le.2 hfull)]

/-- Settles O28: each check comes before its command's own work, and the error is raised in the state the command found. -/
theorem bitstreamErrors : Obligations.BitstreamErrors := by
  intro i n s
  refine ⟨fun hform hlen hend => ?_, fun hform hfull => ?_, fun hfull => ?_⟩
  · exact failedWith_of_settle_error (exec_read hform s) (bsRead_of_past_end hlen hend)
  · exact failedWith_of_settle_error (exec_write hform s) (bsWrite_of_not_fits hfull)
  · exact failedWith_of_settle_error (exec_bsFinish s) (bsFlush_of_not_fits hfull)

/-! ### Reads (R140 to R143) -/

theorem State.readBits_of_le {n : Nat} {s : State} (hend : s.bs.rpos + n ≤ 8 * s.opLen) :
    s.readBits n = some (ofBits ((List.range n).map fun i => s.inBit (s.bs.rpos + i))) :=
  if_neg (Nat.not_lt.2 hend)

/-- Bit `k` of a value read is, for `k < n`, the stream bit `n - 1 - k` past the cursor, and 0 above (R142). -/
theorem readValue_testBit (s : State) (n k : Nat) :
    (ofBits ((List.range n).map fun i => s.inBit (s.bs.rpos + i))).testBit k =
      if k < n then s.inBit (s.bs.rpos + (n - 1 - k)) else false := by
  rw [ofBits_testBit, List.length_map, List.length_range]
  split
  · rw [List.getD_eq_getElem _ _ (by simp; omega), List.getElem_map, List.getElem_range]
  · rfl

/-- Settles O27: the value is that of the stream bits from the cursor on, and a result register holds it whole. -/
theorem readsReturnTheNextBits : Obligations.ReadsReturnTheNextBits := by
  intro i n s hform hlen hend
  have hn := hform.le_32
  have hexec := exec_read hform s
  rw [bsRead, withInput_of_le hlen, State.readBits_of_le hend, settle_ok] at hexec
  refine ⟨_, hexec, fun j hj => ?_, fun j hj => ?_, ⟨rfl, rfl, rfl, rfl, rfl, rfl⟩, rfl,
    commandsLeaveHostSide i s _ hexec, rfl, fun _ => rfl⟩
  · rw [State.complete_result0, BitVec.getLsbD_ofNat, readValue_testBit, if_pos (by omega),
      show n - 1 - (n - 1 - j) = j by omega, decide_eq_true (by omega), Bool.true_and, State.inBit]
  · rw [State.complete_result0, BitVec.getLsbD_ofNat, readValue_testBit, if_neg (by omega), Bool.and_false]

/-! ### Writes and BS_FINISH (R145 to R149) -/

/-- The bits written so far and those a writer that starts from them holds (R27). -/
theorem State.outBits_eq (s : State) : s.outBits = streamBits s.outBytes ++ s.writer.bits := rfl

/-- A write that fits extends the writer. -/
theorem Writes.writerExtends {cap : Nat} {w w' : Writer} {bits : List Bool} (h : Writes w w' bits)
    (hfit : w.len + (w.nacc + bits.length) / 8 ≤ cap) : w.Extends cap w' := by
  obtain ⟨added, hout, hadded⟩ := h.out_eq
  exact ⟨h.len_eq ▸ hfit, added, hout, by rw [h.len_eq, hadded]⟩

/-- The complete bytes after a write: those before it, then those the writer appended. -/
theorem withWriter_outBytes {s : State} {w : Writer} (hb : BuffersOk s) (h : s.writer.Extends s.params.outCap w) :
    (s.withWriter w).outBytes = s.outBytes ++ w.out.reverse := by
  have hlen := (withWriter_outLen hb h).1
  have hbyte : ∀ a, (s.withWriter w).outByte a = if s.outLen.toNat ≤ a ∧ a < s.outLen.toNat + w.out.reverse.length
      then w.out.reverse.getD (a - s.outLen.toNat) 0 else s.outByte a := fun a => State.outByte_store _ s.outBuf _ a _ rfl
  have hold : (List.range s.outLen.toNat).map (s.withWriter w).outByte = s.outBytes :=
    List.map_congr_left fun a ha => by rw [hbyte, if_neg (by rw [List.mem_range] at ha; omega)]
  have hnew : (List.range w.out.length).map (fun j => (s.withWriter w).outByte (s.outLen.toNat + j)) = w.out.reverse := by
    apply List.ext_getElem (by simp)
    intro j h1 h2
    rw [List.getElem_map, List.getElem_range, hbyte, if_pos (by omega),
      Nat.add_sub_cancel_left, List.getD_eq_getElem _ _ h2]
  rw [State.outBytes, hlen, List.range_add, List.map_append, List.map_map, hold]
  exact congrArg (s.outBytes ++ ·) hnew

/-- What a writer adds to its bits is added to the bits written so far. -/
theorem withWriter_outBits {s : State} {w : Writer} {bits : List Bool} (hb : BuffersOk s)
    (h : s.writer.Extends s.params.outCap w) (hbits : w.bits = s.writer.bits ++ bits) :
    (s.withWriter w).outBits = s.outBits ++ bits := by
  have hnew : (s.withWriter w).outBits = streamBits s.outBytes ++ w.bits := by
    rw [State.outBits, withWriter_outBytes hb h, streamBits_append, List.append_assoc]
    rfl
  rw [hnew, hbits, State.outBits_eq, List.append_assoc]

/-- OUT_LEN after a write is the writer's count of bytes. -/
theorem withWriter_outLen_eq_len {s : State} {w : Writer} (hb : BuffersOk s) (h : s.writer.Extends s.params.outCap w) :
    (s.withWriter w).outLen.toNat = w.len := by
  have hcap := hb.outCap_lt
  have hlen := h.1
  rw [State.withWriter_outLen, BitVec.toNat_ofNat, Nat.mod_eq_of_lt (by omega)]

/-- A write leaves the OUT bytes below the old OUT_LEN and from the new one on. -/
theorem withWriter_outByte_outside {s : State} {w : Writer} (hb : BuffersOk s) (h : s.writer.Extends s.params.outCap w)
    {a : Nat} (ha : a < s.outLen.toNat ∨ (s.withWriter w).outLen.toNat ≤ a) : (s.withWriter w).outByte a = s.outByte a :=
  have hlen := (withWriter_outLen hb h).1
  withWriter_outByte hb h (by omega)

/-- Settles O29: the writer's own append, carried over to OUT, OUT_LEN and the pending bits. -/
theorem writesAppendTheBits : Obligations.WritesAppendTheBits := by
  intro i n s hform hb hs hfit
  have hexec := exec_write hform s
  obtain ⟨hnacc, hacc, _⟩ := hs
  rcases bsWrite_cases n s ⟨hnacc, hacc⟩ hb.outLen_le with ⟨hfull, _⟩ | ⟨_, w, hwrites, hrun⟩
  · omega
  have hbits := bitsOf_length s.opArg0.toNat n
  have hext : s.writer.Extends s.params.outCap w := hwrites.writerExtends (by rw [hbits]; exact hfit)
  have hlen := hwrites.len_eq
  have hpending := hwrites.nacc_eq
  rw [hbits] at hlen hpending
  rw [hrun, settle_ok] at hexec
  exact ⟨_, hexec, withWriter_outBits hb hext hwrites.bits_eq, (withWriter_outLen_eq_len hb hext).trans hlen, hpending, rfl,
    ⟨rfl, rfl, rfl, rfl, rfl, rfl⟩, commandsLeaveHostSide i s _ hexec, fun _ => withWriter_outByte_outside hb hext⟩

/-- Finish where the partial byte fits: it appends zero bits up to the next byte, none if no bit is pending (R149). -/
theorem finishWriter_of_fits {cap : Nat} {w : Writer} (hw : w.ok) (hfit : w.len + (if 0 < w.nacc then 1 else 0) ≤ cap) :
    ∃ w', finishWriter cap w = .ok w' ∧ w'.bits = w.bits ++ List.replicate (if 0 < w.nacc then 8 - w.nacc else 0) false ∧
      w'.len = w.len + (if 0 < w.nacc then 1 else 0) ∧ w'.nacc = 0 := by
  have hspec := finishWriter_spec cap w hw
  by_cases hz : w.nacc = 0
  · rw [if_pos hz] at hspec
    exact ⟨w, hspec, by simp [hz], by simp [hz], hz⟩
  · have hpos : 0 < w.nacc := Nat.pos_of_ne_zero hz
    simp only [if_pos hpos] at hfit ⊢
    rw [if_neg hz, if_neg (by omega)] at hspec
    obtain ⟨w', hrun, hbits, hlen, hnacc, _, _⟩ := hspec
    exact ⟨w', hrun, hbits, hlen, hnacc⟩

/-- Settles O30: the writer's Finish, carried over to OUT and OUT_LEN. -/
theorem finishPadsWithZeros : Obligations.FinishPadsWithZeros := by
  intro s hb hs hfit
  obtain ⟨hnacc, hacc, _⟩ := hs
  obtain ⟨w, hrun, hbits, hlen, hzero⟩ := finishWriter_of_fits (w := s.writer) ⟨hnacc, hacc⟩ hfit
  have hext := finishWriter_extends (w := s.writer) hb.outLen_le hrun
  have hexec := exec_bsFinish s
  rw [bsFlush, pendingByte_eq, if_pos hfit, hrun] at hexec
  exact ⟨_, hexec, hzero, withWriter_outBits hb hext hbits, (withWriter_outLen_eq_len hb hext).trans hlen, rfl,
    ⟨rfl, rfl, rfl, rfl, rfl, rfl⟩, commandsLeaveHostSide _ s _ hexec, fun _ => withWriter_outByte_outside hb hext⟩

/-! ### Status commands (R159, R256, R287, R295, R306) -/

/-- A command that only reports: it completes the state it found with its results, and so leaves the sub-units and the output. -/
theorem statusCommand_completes {i : Instr} {s : State} {r : Results} (h : exec i s = .next (s.complete r)) :
    ∃ t, exec i s = .next t ∧ SameUnits s t ∧ SameOutput s t ∧ CompletedWith t r.r0 r.r1 r.r2 :=
  ⟨_, h, ⟨rfl, rfl, rfl, rfl, rfl, rfl⟩, ⟨rfl, fun _ => rfl⟩, rfl, rfl, rfl, rfl, rfl, rfl⟩

/-- What PQ_SIZE returns: the size and the root entry, all 0 of an empty heap (R287). -/
def pqSizeResults : List HeapEntry → Results
  | [] => {}
  | e :: rest => { r0 := BitVec.ofNat 32 (rest.length + 1), r1 := e.weight, r2 := e.payload }

theorem exec_pqSize (s : State) : exec .pqSize s = .next (s.complete (pqSizeResults s.pq)) := by
  unfold exec execPqSize pqSizeResults
  cases s.pq <;> rfl

/-- Settles O26: each of the five completes the state it found with the values its rule names. -/
theorem statusCommandsComplete : Obligations.StatusCommandsComplete := by
  intro s
  refine ⟨statusCommand_completes (i := .bsStatus) (s := s) rfl, ?_, ?_,
    statusCommand_completes (i := .cwStatus) (s := s) rfl, ?_⟩
  · obtain ⟨t, hexec, hunits, hout, hdone⟩ := statusCommand_completes (exec_pqSize s)
    refine ⟨t, hexec, hunits, hout, fun hnil => ?_, fun e rest hcons => ?_⟩
    · rwa [hnil] at hdone
    · rwa [hcons] at hdone ⊢
  · rw [← keyOperand_eq]
    exact statusCommand_completes (i := .hdCount) (s := s) rfl
  · obtain ⟨t, hexec, hunits, hout, hdone⟩ := statusCommand_completes (i := .lzwStatus) (s := s) rfl
    rw [show Trie.next s.lzw - Config.lzwFirstFree = s.lzw.length from Nat.add_sub_cancel_left _ _] at hdone
    exact ⟨t, hexec, hunits, hout, hdone⟩

end Sys2Proof.Machine
end

section
/-! PROOFS. Code trees (41_huffman.md R176): the tree an arena of nodes holds, and what the recursions over the arena make
of it: the list of codes, the serialization and the paths. -/

namespace Sys2Proof.Machine

/-- Whether a node is a leaf, the EOF leaf included (R31). -/
def Node.isLeaf : Node → Bool
  | .internal _ _ _ => false
  | .leaf _ _ | .eof _ => true

/-- The byte a leaf is serialized as (R177, R178). -/
def Node.byte : Node → Byte
  | .leaf v _ => v
  | .eof _ => Config.eofLeafValue
  | .internal _ _ _ => 0

/-- A code tree apart from the arena that holds it: its leaves, and the two subtrees of every fork (R176). -/
inductive CodeTree where
  | leaf (nd : Node)
  | fork (left right : CodeTree)

namespace CodeTree

/-- The number of nodes. -/
def size : CodeTree → Nat
  | leaf _ => 1
  | fork L R => L.size + R.size + 1

/-- The leaves from left to right. -/
def leaves : CodeTree → List Node
  | leaf nd => [nd]
  | fork L R => L.leaves ++ R.leaves

/-- The leaf a path leads to, 0 to the left and 1 to the right (R176). -/
def leafAt : CodeTree → List Bool → Option Node
  | leaf nd, [] => some nd
  | fork L _, false :: q => L.leafAt q
  | fork _ R, true :: q => R.leafAt q
  | _, _ => none

/-- The tree in preorder, as R177 serializes it. -/
def bits : CodeTree → List Bool
  | leaf nd => true :: bitsOf nd.byte.toNat 8
  | fork L R => false :: (L.bits ++ R.bits)

/-- A tree has a node, so a bound on the rounds that its size meets allows one. -/
theorem exists_fuel_eq_succ {T : CodeTree} {fuel : Nat} (h : T.size ≤ fuel) : ∃ k, fuel = k + 1 := by
  cases T <;> exact Nat.exists_eq_add_one.2 (Nat.lt_of_lt_of_le (Nat.succ_pos _) h)

/-- A tree has one leaf more than it has forks. -/
theorem size_add_one (T : CodeTree) : T.size + 1 = 2 * T.leaves.length := by
  induction T with
  | leaf nd => rfl
  | fork L R ihL ihR => simp only [size, leaves, List.length_append]; omega

end CodeTree

/-- The arena `nodes` holds the tree, with its root at the index. -/
def Spans (nodes : List Node) : CodeTree → Nat → Prop
  | .leaf nd, n => nodes[n]? = some nd ∧ nd.isLeaf = true
  | .fork L R, n => ∃ l r w, nodes[n]? = some (.internal l r w) ∧ Spans nodes L l ∧ Spans nodes R r

theorem Spans.lt {nodes : List Node} {T : CodeTree} {n : Nat} (h : Spans nodes T n) : n < nodes.length := by
  cases T with
  | leaf nd => exact (List.getElem?_eq_some_iff.1 h.1).1
  | fork L R =>
    obtain ⟨l, r, w, hn, _⟩ := h
    exact (List.getElem?_eq_some_iff.1 hn).1

theorem getElem?_append_of_eq_some {α : Type} {l more : List α} {n : Nat} {x : α} (h : l[n]? = some x) :
    (l ++ more)[n]? = some x := by
  rw [List.getElem?_append_left (List.getElem?_eq_some_iff.1 h).1, h]

/-- Nodes made later leave a tree as it is. -/
theorem Spans.append {nodes : List Node} {T : CodeTree} {n : Nat} (h : Spans nodes T n) (more : List Node) :
    Spans (nodes ++ more) T n := by
  induction T generalizing n with
  | leaf nd => exact ⟨getElem?_append_of_eq_some h.1, h.2⟩
  | fork L R ihL ihR =>
    obtain ⟨l, r, w, hn, hL, hR⟩ := h
    exact ⟨l, r, w, getElem?_append_of_eq_some hn, ihL hL, ihR hR⟩

/-! ### What the model's recursions do at a leaf and at an internal node -/

theorem leafCodes_leaf {nodes : List Node} {n : Nat} {nd : Node} (hn : nodes[n]? = some nd) (hl : nd.isLeaf = true)
    (fuel : Nat) (path : List Bool) : leafCodes nodes (fuel + 1) n path = [(nd, path)] := by
  cases nd with
  | internal l r w => cases hl
  | leaf v w => simp only [leafCodes, hn]
  | eof w => simp only [leafCodes, hn]

theorem leafCodes_internal {nodes : List Node} {n l r : Nat} {w : Word} (hn : nodes[n]? = some (.internal l r w))
    (fuel : Nat) (path : List Bool) : leafCodes nodes (fuel + 1) n path =
      leafCodes nodes fuel l (path ++ [false]) ++ leafCodes nodes fuel r (path ++ [true]) := by
  simp only [leafCodes, hn]

theorem serialize_leaf {nodes : List Node} {n : Nat} {nd : Node} (hn : nodes[n]? = some nd) (hl : nd.isLeaf = true)
    (fuel : Nat) : serialize nodes (fuel + 1) n = true :: bitsOf nd.byte.toNat 8 := by
  cases nd with
  | internal l r w => cases hl
  | leaf v w => simp only [serialize, hn]; rfl
  | eof w => simp only [serialize, hn]; rfl

theorem serialize_internal {nodes : List Node} {n l r : Nat} {w : Word} (hn : nodes[n]? = some (.internal l r w))
    (fuel : Nat) : serialize nodes (fuel + 1) n = false :: (serialize nodes fuel l ++ serialize nodes fuel r) := by
  simp only [serialize, hn]

/-- The leaves listed below a node are those of its tree (R176). -/
theorem Spans.map_fst_leafCodes {nodes : List Node} {T : CodeTree} {n fuel : Nat} (h : Spans nodes T n) (hf : T.size ≤ fuel)
    (path : List Bool) : (leafCodes nodes fuel n path).map Prod.fst = T.leaves := by
  induction T generalizing n fuel path with
  | leaf nd =>
    obtain ⟨fuel, rfl⟩ := CodeTree.exists_fuel_eq_succ hf
    rw [leafCodes_leaf h.1 h.2]
    rfl
  | fork L R ihL ihR =>
    obtain ⟨l, r, w, hn, hL, hR⟩ := h
    obtain ⟨fuel, rfl⟩ := CodeTree.exists_fuel_eq_succ hf
    simp only [CodeTree.size] at hf
    rw [leafCodes_internal hn, List.map_append, ihL hL (by omega), ihR hR (by omega)]
    rfl

/-- The serialization of a node is that of its tree (R177). -/
theorem Spans.serialize_eq {nodes : List Node} {T : CodeTree} {n fuel : Nat} (h : Spans nodes T n) (hf : T.size ≤ fuel) :
    serialize nodes fuel n = T.bits := by
  induction T generalizing n fuel with
  | leaf nd =>
    obtain ⟨fuel, rfl⟩ := CodeTree.exists_fuel_eq_succ hf
    exact serialize_leaf h.1 h.2 fuel
  | fork L R ihL ihR =>
    obtain ⟨l, r, w, hn, hL, hR⟩ := h
    obtain ⟨fuel, rfl⟩ := CodeTree.exists_fuel_eq_succ hf
    simp only [CodeTree.size] at hf
    rw [serialize_internal hn, ihL hL (by omega), ihR hR (by omega)]
    rfl

/-- A path from a node to a leaf of the arena leads to that leaf in the node's tree. -/
theorem Spans.leafAt_of_nodeAt {nodes : List Node} {T : CodeTree} {n : Nat} {q : List Bool} {nd : Node} (h : Spans nodes T n)
    (hq : nodeAt nodes n q = some nd) (hl : nd.isLeaf = true) : T.leafAt q = some nd := by
  induction T generalizing n q with
  | leaf x =>
    cases q with
    | nil => exact h.1.symm.trans hq
    | cons b q =>
      exfalso
      obtain ⟨hx, hxl⟩ := h
      cases x with
      | internal l r w => cases hxl
      | leaf v w => simp [nodeAt, hx] at hq
      | eof w => simp [nodeAt, hx] at hq
  | fork L R ihL ihR =>
    obtain ⟨l, r, w, hn, hL, hR⟩ := h
    cases q with
    | nil =>
      obtain rfl := Option.some.inj (hn.symm.trans hq)
      cases hl
    | cons b q =>
      rw [nodeAt_cons hn] at hq
      cases b
      · exact ihL hL hq
      · exact ihR hR hq

end Sys2Proof.Machine
end

section
/-! PROOFS. BuildTree (41_huffman.md R170 to R172): the trees that the heap's entries stand for share out the leaves, from the first leaf to
the one tree left at the end. -/

namespace Sys2Proof.Machine

/-! ### What BuildTree keeps (R170) -/

/-- Every internal node was made after its children, with the sum of their weights (R172). -/
def Linked (nodes : List Node) : Prop :=
  ∀ (k l r : Nat) (w : Word), nodes[k]? = some (.internal l r w) →
    l < k ∧ r < k ∧ ∃ a b, nodes[l]? = some a ∧ nodes[r]? = some b ∧ (nodeResults a).r1 + (nodeResults b).r1 = w

/-- A new node keeps the links of the others, and comes after any children it has (R172). -/
theorem linked_append_singleton {nodes : List Node} {nd : Node} (h : Linked nodes)
    (hnd : ∀ l r w, nd = .internal l r w → ∃ a b, nodes[l]? = some a ∧ nodes[r]? = some b ∧
      (nodeResults a).r1 + (nodeResults b).r1 = w) : Linked (nodes ++ [nd]) := by
  intro k l r w hk
  have children : ∃ a b, nodes[l]? = some a ∧ nodes[r]? = some b ∧ (nodeResults a).r1 + (nodeResults b).r1 = w ∧
      l < k ∧ r < k := by
    rcases Nat.lt_or_ge k nodes.length with hlt | hge
    · rw [List.getElem?_append_left hlt] at hk
      obtain ⟨hl, hr, a, b, ha, hb, hw⟩ := h k l r w hk
      exact ⟨a, b, ha, hb, hw, hl, hr⟩
    · have hlen := (List.getElem?_eq_some_iff.1 hk).1
      obtain rfl : k = nodes.length := by simp at hlen; omega
      rw [List.getElem?_concat_length] at hk
      obtain ⟨a, b, ha, hb, hw⟩ := hnd l r w (Option.some.inj hk)
      exact ⟨a, b, ha, hb, hw, (List.getElem?_eq_some_iff.1 ha).1, (List.getElem?_eq_some_iff.1 hb).1⟩
  obtain ⟨a, b, ha, hb, hw, hl, hr⟩ := children
  exact ⟨hl, hr, a, b, getElem?_append_of_eq_some ha, getElem?_append_of_eq_some hb, hw⟩

/-- A heap entry stands for the tree whose root its payload names, with the root's weight (R170). -/
def Stands (nodes : List Node) (T : Nat → CodeTree) (e : HeapEntry) : Prop :=
  Spans nodes (T e.payload.toNat) e.payload.toNat ∧
    ∃ nd, nodes[e.payload.toNat]? = some nd ∧ (nodeResults nd).r1 = e.weight

/-- The leaves of the trees the heap's entries stand for. -/
def heapLeaves (T : Nat → CodeTree) (heap : List HeapEntry) : List Node := heap.flatMap (fun e => (T e.payload.toNat).leaves)

/-- The state of BuildTree with these leaves made: the heap's entries stand for trees that share them out, and each combination
makes one node and takes one entry away (R170, R172). -/
structure Grown (leaves : List Node) (T : Nat → CodeTree) (b : Building) : Prop where
  linked : Linked b.1
  leaf_nodes : b.1.filter Node.isLeaf = leaves
  stands : ∀ e ∈ b.2, Stands b.1 T e
  shared : (heapLeaves T b.2).Perm leaves
  count : b.1.length + b.2.length = 2 * leaves.length

theorem Grown.nil (T : Nat → CodeTree) : Grown [] T ([], []) :=
  ⟨fun _ _ _ _ h => (by simp at h), rfl, fun _ h => (by simp at h), .refl _, rfl⟩

/-- A new node, with whatever tree, leaves what an entry stands for. -/
theorem Stands.addNode {nodes : List Node} {T : Nat → CodeTree} {e : HeapEntry} (h : Stands nodes T e) (nd : Node) (S : CodeTree) :
    Stands (nodes ++ [nd]) (Function.update T nodes.length S) e ∧
      Function.update T nodes.length S e.payload.toNat = T e.payload.toNat := by
  obtain ⟨hspan, x, hx, hw⟩ := h
  have hT : Function.update T nodes.length S e.payload.toNat = T e.payload.toNat :=
    Function.update_of_ne (Nat.ne_of_lt hspan.lt) S T
  exact ⟨⟨hT.symm ▸ hspan.append [nd], x, getElem?_append_of_eq_some hx, hw⟩, hT⟩

/-- NewNode and Push: the new node's entry stands for its tree `S`, and the entries left in the heap for theirs (R170). -/
theorem addNode_stands {nodes : List Node} {heap : List HeapEntry} {T : Nat → CodeTree} (h : ∀ e ∈ heap, Stands nodes T e)
    {nd : Node} {S : CodeTree} (hS : Spans (nodes ++ [nd]) S nodes.length) (hlen : nodes.length < 2 ^ 32) :
    (∀ e ∈ (addNode (nodes, heap) nd (nodeResults nd).r1).2, Stands (nodes ++ [nd]) (Function.update T nodes.length S) e) ∧
      (heapLeaves (Function.update T nodes.length S) (addNode (nodes, heap) nd (nodeResults nd).r1).2).Perm
        (S.leaves ++ heapLeaves T heap) := by
  have hidx : (BitVec.ofNat 32 nodes.length).toNat = nodes.length := by simpa using hlen
  have hpush := (heapPush_spec heap { weight := (nodeResults nd).r1, payload := BitVec.ofNat 32 nodes.length }).1
  have hself : Function.update T nodes.length S nodes.length = S := Function.update_self ..
  refine ⟨fun e he => ?_, ?_⟩
  · rcases List.mem_cons.1 (hpush.mem_iff.1 he) with rfl | he
    · rw [Stands, hidx, hself]
      exact ⟨hS, nd, List.getElem?_concat_length .., rfl⟩
    · exact ((h e he).addNode nd S).1
  · refine (hpush.flatMap_right _).trans ?_
    rw [List.flatMap_cons, hidx, hself, heapLeaves]
    refine .of_eq (congrArg _ (List.flatMap_congr fun e he => ?_))
    rw [((h e he).addNode nd S).2]

/-- A leaf joins the leaves (R170). -/
theorem Grown.addLeaf {leaves : List Node} {T : Nat → CodeTree} {b : Building} (h : Grown leaves T b) {nd : Node}
    (hnd : nd.isLeaf = true) (hlen : b.1.length < 2 ^ 32) :
    ∃ T', Grown (leaves ++ [nd]) T' (addNode b nd (nodeResults nd).r1) := by
  obtain ⟨hlinked, hleaf, hstands, hshared, hcount⟩ := h
  obtain ⟨hstands', hleaves⟩ := addNode_stands (S := .leaf nd) hstands ⟨List.getElem?_concat_length .., hnd⟩ hlen
  refine ⟨_, linked_append_singleton hlinked fun l r w he => ?_, ?_, hstands', ?_, ?_⟩
  · rw [he] at hnd; cases hnd
  · simp [addNode, hleaf, hnd]
  · exact hleaves.trans (List.perm_append_comm.trans (hshared.append_right _))
  · simp [addNode]; omega

/-- Two entries popped become the children of a new internal node (R170, R172). -/
theorem Grown.join {leaves : List Node} {T : Nat → CodeTree} {nodes : List Node} {heap rest : List HeapEntry} {x y : HeapEntry}
    (h : Grown leaves T (nodes, heap)) (hpop : heap.Perm (x :: y :: rest)) (hlen : nodes.length < 2 ^ 32) :
    ∃ T', Grown leaves T' (addNode (nodes, rest) (.internal x.payload.toNat y.payload.toNat (x.weight + y.weight))
      (x.weight + y.weight)) := by
  obtain ⟨hlinked, hleaf, hstands, hshared, hcount⟩ := h
  obtain ⟨hx, a, ha, hwa⟩ := hstands x (hpop.mem_iff.2 (by simp))
  obtain ⟨hy, b, hb, hwb⟩ := hstands y (hpop.mem_iff.2 (by simp))
  have hrest : ∀ e ∈ rest, Stands nodes T e := fun e he => hstands e (hpop.mem_iff.2 (by simp [he]))
  obtain ⟨hstands', hleaves⟩ := addNode_stands (nd := .internal x.payload.toNat y.payload.toNat (x.weight + y.weight))
    (S := .fork (T x.payload.toNat) (T y.payload.toNat)) hrest
    ⟨_, _, _, List.getElem?_concat_length .., hx.append _, hy.append _⟩ hlen
  refine ⟨_, linked_append_singleton hlinked fun l r w he => ?_, ?_, hstands', ?_, ?_⟩
  · cases he
    exact ⟨a, b, ha, hb, by rw [hwa, hwb]⟩
  · simp [addNode, hleaf, Node.isLeaf]
  · refine hleaves.trans (.trans (.of_eq ?_) ((hpop.flatMap_right _).symm.trans hshared))
    simp [CodeTree.leaves, heapLeaves]
  · have := hpop.length_eq
    simp [addNode] at this ⊢
    simp at hcount
    omega

/-- The newest node of a building is in its heap. -/
def NewestInHeap (b : Building) : Prop := ∃ e ∈ b.2, e.payload.toNat + 1 = b.1.length

theorem addNode_newestInHeap (b : Building) (nd : Node) (w : Word) (hlen : b.1.length < 2 ^ 32) :
    NewestInHeap (addNode b nd w) := by
  refine ⟨_, (heapPush_spec _ _).1.mem_iff.2 List.mem_cons_self, ?_⟩
  simpa [addNode] using hlen

/-- The combining loop ends with one entry in the heap, and keeps what each combination keeps (R170). -/
theorem combine_spec {P : Building → Prop}
    (hstep : ∀ nodes heap rest x y, P (nodes, heap) → heap.Perm (x :: y :: rest) →
      P (addNode (nodes, rest) (.internal x.payload.toNat y.payload.toNat (x.weight + y.weight)) (x.weight + y.weight)))
    (fuel : Nat) {b : Building} (hb : P b) (hpos : 0 < b.2.length) (hfuel : b.2.length ≤ fuel + 1) :
    P (combine fuel b) ∧ (combine fuel b).2.length = 1 := by
  induction fuel generalizing b with
  | zero => exact ⟨hb, by simp only [combine]; omega⟩
  | succ fuel ih =>
    obtain ⟨nodes, heap⟩ := b
    rcases heapPop_spec heap with ⟨rfl, _⟩ | ⟨x, heap1, hpop1, _, hperm1, _⟩
    · simp at hpos
    · rcases heapPop_spec heap1 with ⟨rfl, hpop2⟩ | ⟨y, heap2, hpop2, _, hperm2, _⟩
      · simp only [combine, hpop1, hpop2]
        exact ⟨hb, by simpa using hperm1.length_eq⟩
      · have hperm := hperm1.trans (hperm2.cons x)
        have hlen := hperm.length_eq
        simp only [List.length_cons] at hlen hpos hfuel
        simp only [combine, hpop1, hpop2]
        exact ih (hstep _ _ _ _ _ hb hperm) (by simp [addNode]) (by simp [addNode]; omega)

/-! ### The leaves (R170, R171) -/

/-- The byte values that occur in an input, rising. -/
def presentBytes (input : List Byte) : List Nat := (List.range 256).filter (fun v => occurrences input v != 0)

/-- The leaf BuildTree makes of a byte value that occurs. -/
def byteLeaf (input : List Byte) (v : Nat) : Node := .leaf (BitVec.ofNat 8 v) (BitVec.ofNat 32 (occurrences input v))

/-- The leaves BuildTree makes of an input, in the order it makes them (R170, D11). -/
def symbolLeaves (input : List Byte) : List Node := (presentBytes input).map (byteLeaf input) ++ [.eof Config.eofWeight]

theorem distinctBytes_eq (input : List Byte) : distinctBytes input = (presentBytes input).length := rfl

theorem distinctBytes_le (input : List Byte) : distinctBytes input ≤ 256 :=
  (List.length_filter_le _ _).trans_eq List.length_range

theorem symbolLeaves_length (input : List Byte) : (symbolLeaves input).length = distinctBytes input + 1 := by
  simp [symbolLeaves, distinctBytes_eq]

theorem mem_presentBytes {input : List Byte} {v : Nat} (hv : v < 256) :
    v ∈ presentBytes input ↔ BitVec.ofNat 8 v ∈ input := by
  simp [presentBytes, occurrences, hv, List.count_eq_zero]

theorem byteLeaf_isSymbol (input : List Byte) {v sym : Nat} (hv : v < 256) :
    (byteLeaf input v).isSymbol sym = (v == sym) := by
  simp [byteLeaf, Node.isSymbol, Nat.mod_eq_of_lt hv]

/-- The symbols of the leaves BuildTree makes: each byte value that occurs once, and the EOF symbol once. -/
theorem countP_symbolLeaves (input : List Byte) {sym : Nat} (hsym : sym ≤ 256) :
    (symbolLeaves input).countP (Node.isSymbol sym) = if sym = 256 ∨ BitVec.ofNat 8 sym ∈ input then 1 else 0 := by
  have hbytes : ((presentBytes input).map (byteLeaf input)).countP (Node.isSymbol sym) = (presentBytes input).count sym := by
    rw [List.countP_map]
    exact List.countP_congr fun v hv => by
      have hv : v < 256 := List.mem_range.1 (List.mem_filter.1 hv).1
      rw [Function.comp, byteLeaf_isSymbol input hv]
  have hnodup : (presentBytes input).Nodup := List.nodup_range.filter _
  rw [symbolLeaves, List.countP_append, hbytes, hnodup.count]
  rcases Nat.lt_or_eq_of_le hsym with hlt | rfl
  · have hne : sym ≠ 256 := by omega
    simp [mem_presentBytes hlt, Node.isSymbol, hne]
  · have : 256 ∉ presentBytes input := by simp [presentBytes]
    simp [this, Node.isSymbol]

/-! ### The built tree (R170 to R172, R187) -/

/-- The leaf loop adds the leaves of the values that occur (R170). -/
theorem foldl_addLeaf_grown (input : List Byte) (vs : List Nat) {leaves : List Node} {T : Nat → CodeTree} {b : Building}
    (h : Grown leaves T b) (hlen : leaves.length + vs.length ≤ 256) :
    ∃ T', Grown (leaves ++ (vs.filter (fun v => occurrences input v != 0)).map (byteLeaf input)) T'
      (vs.foldl (addLeaf input) b) := by
  induction vs generalizing leaves T b with
  | nil => exact ⟨T, by simpa using h⟩
  | cons v vs ih =>
    simp only [List.length_cons] at hlen
    rw [List.foldl_cons, addLeaf]
    by_cases hv : occurrences input v = 0
    · rw [if_pos hv, List.filter_cons_of_neg (by simp [hv])]
      exact ih h (by omega)
    · have hcount := h.count
      obtain ⟨T', h'⟩ := h.addLeaf (nd := byteLeaf input v) rfl (by omega)
      rw [if_neg hv, List.filter_cons_of_pos (by simp [hv]), List.map_cons, List.append_cons]
      exact ih h' (by simp; omega)

theorem allLeaves_grown (input : List Byte) : ∃ T, Grown (symbolLeaves input) T (allLeaves input) := by
  obtain ⟨T, h⟩ := foldl_addLeaf_grown input (List.range 256) (Grown.nil fun _ => .leaf (.eof 0)) (by simp)
  have hcount := h.count
  have hle := distinctBytes_le input
  rw [distinctBytes_eq, presentBytes] at hle
  simp at hcount hle
  exact h.addLeaf (nd := .eof Config.eofWeight) rfl (by omega)

/-- A building over an input's leaves has at most 514 nodes, so that a node's index fits its heap payload. -/
theorem Grown.nodes_length_lt {input : List Byte} {T : Nat → CodeTree} {b : Building} (h : Grown (symbolLeaves input) T b) :
    b.1.length < 2 ^ 32 := by
  have hcount := h.count
  have hle := distinctBytes_le input
  rw [symbolLeaves_length] at hcount
  omega

/-- What BuildTree keeps through the combining loop: a forest over the leaves, its newest node in the heap. -/
def Grows (leaves : List Node) (b : Building) : Prop := (∃ T, Grown leaves T b) ∧ NewestInHeap b

theorem allLeaves_grows (input : List Byte) : Grows (symbolLeaves input) (allLeaves input) := by
  obtain ⟨T, h⟩ := allLeaves_grown input
  refine ⟨⟨T, h⟩, addNode_newestInHeap _ _ _ ?_⟩
  have hlen := h.nodes_length_lt
  rw [allLeaves, addNode, List.length_append] at hlen
  omega

/-- BuildTree ends with one heap entry, for the newest node, which it takes as the root (R170). -/
theorem buildTree_grown (input : List Byte) :
    ∃ T e, Grown (symbolLeaves input) T ((buildTree input).nodes, [e]) ∧
      e.payload.toNat + 1 = (buildTree input).nodes.length ∧ (buildTree input).root = e.payload.toNat := by
  have hpos : 0 < (allLeaves input).2.length := by simp [allLeaves, addNode]
  obtain ⟨⟨⟨T, h⟩, e, he, hnewest⟩, hone⟩ := combine_spec (P := Grows (symbolLeaves input))
    (fun nodes heap rest x y ⟨⟨_, h⟩, _⟩ hperm =>
      ⟨h.join hperm h.nodes_length_lt, addNode_newestInHeap (nodes, rest) _ _ (h.nodes_length_lt :)⟩)
    (allLeaves input).2.length (allLeaves_grows input) hpos (Nat.le_succ _)
  obtain ⟨e', hheap⟩ := List.length_eq_one_iff.1 hone
  obtain rfl : e = e' := by rwa [hheap, List.mem_singleton] at he
  refine ⟨T, e, hheap ▸ h, hnewest, ?_⟩
  simp only [buildTree, hheap]
  rfl

/-- BuildTree's tree is one tree over all the leaves: 2D+1 nodes, the last one its root (R170 to R172). -/
theorem buildTree_spec (input : List Byte) :
    Linked (buildTree input).nodes ∧ (buildTree input).nodes.filter Node.isLeaf = symbolLeaves input ∧
      (buildTree input).nodes.length = 2 * distinctBytes input + 1 ∧ (buildTree input).root = 2 * distinctBytes input ∧
      ∃ T, Spans (buildTree input).nodes T (buildTree input).root ∧ T.leaves.Perm (symbolLeaves input) := by
  obtain ⟨T, e, ⟨hlinked, hleaf, hstands, hshared, hcount⟩, hnewest, hroot⟩ := buildTree_grown input
  simp only [symbolLeaves_length, List.length_singleton] at hcount
  obtain ⟨hspan, _⟩ := hstands e (List.mem_singleton_self e)
  refine ⟨hlinked, hleaf, by omega, by omega, T e.payload.toNat, hroot ▸ hspan, ?_⟩
  simpa [heapLeaves] using hshared

theorem buildTree_nodes_length (input : List Byte) : (buildTree input).nodes.length = 2 * distinctBytes input + 1 := by
  obtain ⟨_, _, hlen, _⟩ := buildTree_spec input
  exact hlen

/-- The arena of a built tree holds one tree over its leaves, as large as the arena. -/
theorem buildTree_spans (input : List Byte) :
    ∃ T, Spans (buildTree input).nodes T (buildTree input).root ∧ T.leaves.Perm (symbolLeaves input) ∧
      T.size = (buildTree input).nodes.length := by
  obtain ⟨_, _, hlen, _, T, hspan, hperm⟩ := buildTree_spec input
  refine ⟨T, hspan, hperm, ?_⟩
  have hsize := T.size_add_one
  rw [hperm.length_eq, symbolLeaves_length] at hsize
  omega

/-- Settles O38: BuildTree links each node to earlier ones, and its only EOF leaf is the last leaf it makes. -/
theorem builtTreeIsWellFormed : Obligations.BuiltTreeIsWellFormed := by
  intro input _
  obtain ⟨hlinked, hleaf, _⟩ := buildTree_spec input
  refine ⟨hlinked, ?_⟩
  have hcount := countP_symbolLeaves input (Nat.le_refl 256)
  rw [if_pos (.inl rfl), ← hleaf, List.countP_filter] at hcount
  rw [← List.countP_eq_length_filter, ← hcount]
  refine List.countP_congr fun nd _ => ?_
  cases nd with
  | internal l r w => exact Iff.rfl
  | leaf v w => simp [Node.isSymbol, Node.isLeaf, Nat.ne_of_lt v.isLt]
  | eof w => exact Iff.rfl

theorem countTable_toNat {input : List Byte} (h : input.length < 2 ^ 32) (v : Fin 256) :
    (countTable input)[v].toNat = input.count (BitVec.ofFin v) := by
  have : input.count (BitVec.ofFin v) ≤ input.length := List.count_le_length
  simp [countTable, occurrences]
  omega

theorem inCap_le_of_wf {p : Config.Params} (h : p.wf = true) : p.inCap ≤ 2 ^ 28 := by
  simp only [Config.Params.wf, Bool.and_eq_true, decide_eq_true_eq] at h
  omega

/-- Settles O37: HT_BUILD leaves what BuildTree makes of the input. -/
theorem buildMakesTheTree : Obligations.BuildMakesTheTree := by
  intro s hwf hlen
  obtain ⟨_, _, hlength, hroot, _⟩ := buildTree_spec (s.inBytes s.opLen)
  have hcap := inCap_le_of_wf hwf
  have hexec : exec .htBuild s = settle s (withInput s _) := rfl
  rw [withInput_of_le hlen, settle_ok] at hexec
  exact ⟨_, hexec, rfl, rfl, rfl, countTable_toNat (by rw [State.inBytes_length]; omega), hlength, hroot,
    ⟨rfl, rfl, rfl, rfl, rfl, rfl⟩, commandsLeaveHostSide _ _ _ hexec, rfl, fun _ => rfl⟩

end Sys2Proof.Machine
end

section
/-! PROOFS. Codes (41_huffman.md R176): the codes listed are a prefix code, and those of a built tree are one for each symbol; HT_NODE and
HT_CODE (R188, R189). -/

namespace Sys2Proof.Machine

/-! ### The prefix code (R176) -/

/-- Two runs of bits that part at a bit do not start each other. -/
theorem not_prefix_of_parted {path q q' : List Bool} {b b' : Bool} (h : b ≠ b') :
    ¬ (path ++ [b] ++ q) <+: (path ++ [b'] ++ q') := by
  rw [List.append_assoc, List.append_assoc, List.prefix_append_right_inj]
  intro hp
  exact h (List.cons_prefix_cons.1 hp).1

/-- The codes listed below a node are a prefix code: those on the left part from those on the right at the node (R176). -/
theorem leafCodes_pairwise (nodes : List Node) (fuel n : Nat) (path : List Bool) :
    List.Pairwise (fun a b => ¬ a.2 <+: b.2 ∧ ¬ b.2 <+: a.2) (leafCodes nodes fuel n path) := by
  induction fuel generalizing n path with
  | zero => exact .nil
  | succ fuel ih =>
    unfold leafCodes
    split
    · exact .nil
    · refine List.pairwise_append.2 ⟨ih _ _, ih _ _, fun x hx y hy => ?_⟩
      obtain ⟨⟨q, hq, _⟩, _⟩ := mem_leafCodes hx
      obtain ⟨⟨q', hq', _⟩, _⟩ := mem_leafCodes hy
      rw [hq, hq']
      exact ⟨not_prefix_of_parted (by decide), not_prefix_of_parted (by decide)⟩
    · exact List.pairwise_singleton _ _

/-- The codes of a built tree list the EOF symbol and each byte value that occurs once, and nothing else (R171, R176). -/
theorem filter_codes_length (input : List Byte) {sym : Nat} (hsym : sym ≤ 256) :
    ((buildTree input).codes.filter (fun c => c.1.isSymbol sym)).length =
      if sym = 256 ∨ BitVec.ofNat 8 sym ∈ input then 1 else 0 := by
  obtain ⟨T, hspan, hperm, hsize⟩ := buildTree_spans input
  rw [← countP_symbolLeaves input hsym, ← hperm.countP_eq, ← hspan.map_fst_leafCodes hsize.le [], List.countP_map,
    List.countP_eq_length_filter]
  rfl

/-- Code(s) of a listed symbol leads to a leaf of the symbol (R176). -/
theorem nodeAt_code {t : Tree} {sym : Nat} (h : t.codes.filter (fun c => c.1.isSymbol sym) ≠ []) :
    ∃ nd, nodeAt t.nodes t.root (t.code sym) = some nd ∧ nd.isSymbol sym = true := by
  obtain ⟨c, hc⟩ : ∃ c, t.codes.find? (fun c => c.1.isSymbol sym) = some c := by
    obtain ⟨c, hc⟩ := List.exists_mem_of_ne_nil _ h
    exact Option.isSome_iff_exists.1 (List.find?_isSome.2 ⟨c, (List.mem_filter.1 hc).1, (List.mem_filter.1 hc).2⟩)
  obtain ⟨⟨q, hq, hnode⟩, _⟩ := mem_leafCodes (List.mem_of_find?_eq_some hc)
  have hcode : t.code sym = q := by
    rw [Tree.code, codeIn, hc]
    exact hq
  exact ⟨c.1, hcode ▸ hnode, List.find?_some (p := fun c : Node × List Bool => c.1.isSymbol sym) hc⟩

/-- In a built tree Code(s) of the EOF symbol, and of a byte value that occurs, leads to its leaf (R176). -/
theorem buildTree_nodeAt_code {input : List Byte} {sym : Nat} (hsym : sym ≤ 256)
    (h : sym = 256 ∨ BitVec.ofNat 8 sym ∈ input) :
    ∃ nd, nodeAt (buildTree input).nodes (buildTree input).root ((buildTree input).code sym) = some nd ∧
      nd.isSymbol sym = true := by
  refine nodeAt_code fun hnil => ?_
  have := filter_codes_length input hsym
  rw [hnil, if_pos h] at this
  cases this

/-- Settles O39: codes part where their paths do, and the leaves of a built tree are one of each symbol. -/
theorem codesArePrefixFree : Obligations.CodesArePrefixFree := by
  refine ⟨fun t => ⟨leafCodes_pairwise _ _ _ _, fun c hc => ?_⟩, fun input sym hsym => ⟨fun h => ⟨?_, ?_⟩, fun h => ?_⟩⟩
  · obtain ⟨⟨q, hq, hnode⟩, hleaf⟩ := mem_leafCodes hc
    exact ⟨by rw [hq]; exact hnode, hleaf⟩
  · rw [filter_codes_length input hsym, if_pos h]
  · exact buildTree_nodeAt_code hsym h
  · refine List.length_eq_zero_iff.1 ?_
    rw [filter_codes_length input hsym, if_neg h]

/-! ### HT_NODE and HT_CODE (R188, R189) -/

theorem execHtNode_some {s : State} {nd : Node} (hv : s.ht.valid = true) (hn : s.ht.nodes[s.opArg0.toNat]? = some nd) :
    exec .htNode s = .next (s.complete (nodeResults nd)) := by
  simp only [exec, execHtNode, hv, hn, if_true, settle_ok]

theorem execHtNode_none {s : State} (h : s.ht.valid = false ∨ s.ht.nodes.length ≤ s.opArg0.toNat) :
    exec .htNode s = .next (s.raise .outOfBounds) := by
  rcases h with hv | hl
  · simp [exec, execHtNode, hv]
  · simp [exec, execHtNode, List.getElem?_eq_none hl]

/-- The two child indices in one word (R188, D44). -/
theorem childWord_eq {l r : Nat} (hr : r < 2 ^ 16) :
    (BitVec.ofNat 32 l <<< 16) ||| BitVec.ofNat 32 r = BitVec.ofNat 32 (l * 2 ^ 16 + r) := by
  rw [← Nat.shiftLeft_eq, Nat.shiftLeft_add_eq_or_of_lt hr]
  refine BitVec.eq_of_getLsbD_eq fun j hj => ?_
  rw [BitVec.getLsbD_ofNat, BitVec.getLsbD_or, BitVec.getLsbD_shiftLeft, BitVec.getLsbD_ofNat, BitVec.getLsbD_ofNat,
    Nat.testBit_or, Nat.testBit_shiftLeft]
  simp [hj, show j - 16 < 32 by omega, ← decide_not]

/-- Settles O40: of a node that is there HT_NODE only reports. -/
theorem nodeCommandReadsArena : Obligations.NodeCommandReadsArena := by
  intro s
  have done : ∀ nd, s.ht.valid = true → s.ht.nodes[s.opArg0.toNat]? = some nd →
      ∃ t, exec .htNode s = .next t ∧ CompletedWith t (nodeResults nd).r0 (nodeResults nd).r1 (nodeResults nd).r2 ∧
        SameUnits s t ∧ SameOutput s t := fun nd hv hn => by
    obtain ⟨t, hexec, hunits, hout, hdone⟩ := statusCommand_completes (execHtNode_some hv hn)
    exact ⟨t, hexec, hdone, hunits, hout⟩
  refine ⟨fun v w hv hn => done _ hv hn, fun l r w hv _ hr hn => ?_, fun w hv hn => done _ hv hn, fun h => ?_⟩
  · rw [← childWord_eq hr]
    exact done _ hv hn
  · exact ⟨_, execHtNode_none h, s.raise_failedWith _⟩

/-- Slice `k` of a code holds code bit 32k + j in bit 31 - j, and 0 past the code's end (R189). -/
theorem codeSlice_getLsbD (code : List Bool) (k : Nat) {j : Nat} (hj : j < 32) :
    (codeSlice code k).getLsbD (31 - j) = code.getD (32 * k + j) false := by
  have hlen : ((code.drop (32 * k)).take 32).length = min 32 (code.length - 32 * k) := by simp
  rw [codeSlice, BitVec.getLsbD_ofNat, decide_eq_true (by omega), Bool.true_and, ofBits_testBit, List.length_append,
    List.length_replicate, hlen, if_pos (by omega), show _ - 1 - (31 - j) = j by omega]
  rcases Nat.lt_or_ge (32 * k + j) code.length with hlt | hge
  · rw [List.getD_append _ _ _ _ (by omega)]
    simp [hj, List.getD_eq_getElem?_getD]
  · rw [List.getD_append_right _ _ _ _ (by omega), List.getD_eq_default _ _ hge, List.getD_eq_getElem?_getD,
      List.getElem?_replicate, if_pos (by omega)]
    rfl

theorem hasSymbol_iff {t : Tree} {sym : Nat} :
    t.hasSymbol sym = true ↔ t.valid = true ∧ (sym < 256 → t.counts.toList.getD sym 0 ≠ 0) := by
  rw [Tree.hasSymbol, Bool.and_eq_true, Bool.or_eq_true, decide_eq_true_eq, bne_iff_ne, ← Nat.not_lt, imp_iff_not_or]

/-- What HT_CODE returns of a symbol: its code's length and slice, zeros where it has none (R189). -/
def codeResults (t : Tree) (sym k : Nat) : Results :=
  if t.hasSymbol sym then { r0 := BitVec.ofNat 32 (t.code sym).length, r1 := codeSlice (t.code sym) k, r2 := 1 } else {}

theorem exec_htCode {s : State} {k : Byte} (hk : k.toNat ≤ 7) (hsym : s.opArg0.toNat ≤ 256) :
    exec (.htCode k) s = .next (s.complete (codeResults s.ht s.opArg0.toNat k.toNat)) := by
  simp only [exec, execHtCode, decide_eq_true hk, withLegalImm_true, if_neg (Nat.not_lt.2 hsym), codeResults]
  split <;> rfl

/-- Settles O41: with a legal k HT_CODE reports, or refuses the symbol; the check of k comes first. -/
theorem codeCommandReturnsSlices : Obligations.CodeCommandReturnsSlices := by
  intro s k
  refine ⟨fun hk => ⟨fun hsym hv hcount => ?_, fun hsym hnone => ?_, fun hsym => ?_⟩, fun hk => ?_⟩
  · have hexec := exec_htCode hk hsym
    rw [codeResults, if_pos (hasSymbol_iff.2 ⟨hv, hcount⟩)] at hexec
    exact ⟨_, hexec, fun j hj => codeSlice_getLsbD _ _ hj, ⟨rfl, rfl, rfl, rfl, rfl, rfl⟩,
      commandsLeaveHostSide _ _ _ hexec, ⟨rfl, rfl, rfl, rfl, rfl, rfl⟩, rfl, fun _ => rfl⟩
  · have hexec := exec_htCode hk hsym
    have habsent : ¬ s.ht.hasSymbol s.opArg0.toNat = true := fun h => by
      obtain ⟨hv, hcount⟩ := hasSymbol_iff.1 h
      rcases hnone with hv' | ⟨hlt, hzero⟩
      · exact absurd hv (by rw [hv']; decide)
      · exact hcount hlt hzero
    rw [codeResults, if_neg habsent] at hexec
    exact ⟨_, hexec, ⟨rfl, rfl, rfl, rfl, rfl, rfl⟩,
      commandsLeaveHostSide _ _ _ hexec, ⟨rfl, rfl, rfl, rfl, rfl, rfl⟩, rfl, fun _ => rfl⟩
  · refine failedWith_of_settle_error rfl ?_
    rw [decide_eq_true hk, withLegalImm_true]
    exact if_pos hsym
  · refine failedWith_of_settle_error rfl ?_
    rw [decide_eq_false (Nat.not_le.2 hk), withLegalImm_false]

end Sys2Proof.Machine
end

section
/-! PROOFS. The decoder (41_huffman.md R180 to R184): Deserialize and Walk over the bits and the codes of a tree; the decompress commands;
and HUF_DECOMPRESS of what HUF_COMPRESS wrote. -/

namespace Sys2Proof.Machine

/-! ### The decoder's arena (R180, R181) -/

/-- From an internal node Walk goes on from the child its first bit names (R181). -/
theorem walk_internal {nodes : List Node} {n l r : Nat} {w : Word} (hn : nodes[n]? = some (.internal l r w)) (b : Bool)
    (bits : List Bool) : walk nodes (b :: bits) n = walk nodes bits (if b then r else l) := by
  simp only [walk, hn]

namespace CodeTree

/-- The arena Deserialize makes of the tree's bits from index `base` on, in preorder (R180). -/
def arena : CodeTree → Nat → List Node
  | leaf nd, _ => [.leaf nd.byte 0]
  | fork L R, base => .internal (base + 1) (base + (L.size + 1)) 0 :: (L.arena (base + 1) ++ R.arena (base + (L.size + 1)))

/-- Where the arena holds the leaf at the end of a path. -/
def slot : CodeTree → List Bool → Nat
  | fork L _, false :: q => 1 + L.slot q
  | fork L R, true :: q => L.size + 1 + R.slot q
  | _, _ => 0

@[simp] theorem arena_length (T : CodeTree) (base : Nat) : (T.arena base).length = T.size := by
  induction T generalizing base with
  | leaf nd => rfl
  | fork L R ihL ihR => simp [arena, size, ihL, ihR]

theorem slot_lt_size (T : CodeTree) (q : List Bool) : T.slot q < T.size := by
  induction T generalizing q with
  | leaf nd => exact Nat.one_pos
  | fork L R ihL ihR =>
    match q with
    | [] => exact Nat.succ_pos _
    | false :: q => have := ihL q; simp only [slot, size]; omega
    | true :: q => have := ihR q; simp only [slot, size]; omega

/-- Paths to different leaves end at different places of the arena. -/
theorem leafAt_inj_slot {T : CodeTree} {q q' : List Bool} {nd nd' : Node} (h : T.leafAt q = some nd) (h' : T.leafAt q' = some nd')
    (hs : T.slot q = T.slot q') : nd = nd' := by
  induction T generalizing q q' with
  | leaf x =>
    match q, q' with
    | [], [] => exact Option.some.inj (h.symm.trans h')
    | _ :: _, _ => cases h
    | [], _ :: _ => cases h'
  | fork L R ihL ihR =>
    match q, q' with
    | [], _ => cases h
    | _ :: _, [] => cases h'
    | false :: q, false :: q' => exact ihL h h' (by simp only [slot] at hs; omega)
    | true :: q, true :: q' => exact ihR h h' (by simp only [slot] at hs; omega)
    | false :: q, true :: q' => have := L.slot_lt_size q; simp only [slot] at hs; omega
    | true :: q, false :: q' => have := L.slot_lt_size q'; simp only [slot] at hs; omega

/-- The arena holds the leaf's byte at its place. -/
theorem arena_slot {T : CodeTree} {q : List Bool} {nd : Node} (h : T.leafAt q = some nd) (base : Nat) :
    (T.arena base)[T.slot q]? = some (.leaf nd.byte 0) := by
  induction T generalizing q base with
  | leaf x =>
    cases q with
    | nil => obtain rfl := Option.some.inj h; rfl
    | cons b q => cases h
  | fork L R ihL ihR =>
    match q with
    | [] => cases h
    | false :: q =>
      rw [arena, slot, Nat.add_comm 1, List.getElem?_cons_succ]
      exact getElem?_append_of_eq_some (ihL h _)
    | true :: q =>
      rw [arena, slot, Nat.add_right_comm, List.getElem?_cons_succ, List.getElem?_append_right (by simp), arena_length,
        Nat.add_sub_cancel_left]
      exact ihR h _

/-- Walk follows a leaf's path from the root of the arena to the leaf's place and reads no further (R181). -/
theorem walk_arena {T : CodeTree} {q : List Bool} {nd : Node} (h : T.leafAt q = some nd) (before after : List Node)
    (rest : List Bool) : walk (before ++ (T.arena before.length ++ after)) (q ++ rest) before.length =
      some (before.length + T.slot q, rest) := by
  induction T generalizing q before after with
  | leaf x =>
    cases q with
    | nil => cases rest <;> simp [walk, arena, slot]
    | cons b q => cases h
  | fork L R ihL ihR =>
    have hroot : (before ++ ((fork L R).arena before.length ++ after))[before.length]? =
        some (.internal (before.length + 1) (before.length + (L.size + 1)) 0) := by simp [arena]
    match q with
    | [] => cases h
    | false :: q =>
      rw [List.cons_append, walk_internal hroot]
      have ih := ihL h (before ++ [.internal (before.length + 1) (before.length + (L.size + 1)) 0])
        (R.arena (before.length + (L.size + 1)) ++ after)
      simpa [arena, slot, Nat.add_assoc] using ih
    | true :: q =>
      rw [List.cons_append, walk_internal hroot]
      have ih := ihR h (before ++ .internal (before.length + 1) (before.length + (L.size + 1)) 0 :: L.arena (before.length + 1))
        after
      simpa [arena, slot, Nat.add_assoc] using ih

/-- Deserialize reads the tree's bits back and lays out its arena after the nodes there are (R180). -/
theorem deserialize_bits (T : CodeTree) {fuel : Nat} (nodes : List Node) (rest : List Bool) (hf : T.size ≤ fuel)
    (hcap : nodes.length + T.size ≤ 513) :
    deserialize fuel nodes (T.bits ++ rest) = .ok (nodes.length, nodes ++ T.arena nodes.length, rest) := by
  induction T generalizing fuel nodes rest with
  | leaf nd =>
    obtain ⟨fuel, rfl⟩ := exists_fuel_eq_succ hf
    simp only [size] at hf hcap
    have hbyte : BitVec.ofNat 8 (ofBits (bitsOf nd.byte.toNat 8)) = nd.byte := by
      rw [ofBits_bitsOf, Nat.mod_eq_of_lt nd.byte.isLt, BitVec.ofNat_toNat, BitVec.setWidth_eq]
    simp only [bits, List.cons_append, deserialize, takeBits_bitsOf, hbyte]
    rw [if_neg (by simp only [hufMaxNodes_eq]; omega)]
    rfl
  | fork L R ihL ihR =>
    obtain ⟨fuel, rfl⟩ := exists_fuel_eq_succ hf
    simp only [size] at hf hcap
    simp only [bits, List.cons_append, List.append_assoc, deserialize]
    rw [if_neg (by simp only [hufMaxNodes_eq]; omega), ihL _ _ (by omega) (by simp; omega)]
    dsimp only
    rw [ihR _ _ (by omega) (by simp; omega)]
    simp [arena]

end CodeTree

/-! ### The decompress commands (R184, R219, R248) -/

/-- What a decompress function counts in RESULT1 are bits of its input (R184, R219, R248). -/
theorem DecompressForm.r1_le {p : Config.Params} {i : Instr} {run : List Byte → Except CodecRaise CodecDone} {input : List Byte}
    {d : CodecDone} (h : DecompressForm p i run) (hd : run input = .ok d) : d.r1 ≤ 8 * input.length := by
  suffices hrest : ∃ rest : List Bool, d.r1 = (streamBits input).length - rest.length by
    obtain ⟨rest, hr1⟩ := hrest
    rw [hr1, streamBits_length]
    exact Nat.sub_le _ _
  rcases h with ⟨_, rfl⟩ | ⟨_, rfl⟩ | ⟨_, rfl⟩
  · simp only [hufDecompress] at hd
    (repeat' split at hd) <;> cases hd
    exact ⟨_, rfl⟩
  · simp only [lzssDecompress] at hd
    (repeat' split at hd) <;> cases hd
    exact ⟨_, rfl⟩
  · simp only [lzwDecompress] at hd
    (repeat' split at hd) <;> cases hd
    exact ⟨_, rfl⟩

/-- A decompress command is its function of the input. -/
theorem DecompressForm.codecRun_eq {p : Config.Params} {i : Instr} {run : List Byte → Except CodecRaise CodecDone}
    (h : DecompressForm p i run) : IsCodec i ∧ codecRun p i = run := by
  rcases h with ⟨rfl, rfl⟩ | ⟨rfl, rfl⟩ | ⟨rfl, rfl⟩
  · exact ⟨by simp [IsCodec], rfl⟩
  · exact ⟨by simp [IsCodec], rfl⟩
  · exact ⟨by simp [IsCodec], rfl⟩

/-- Settles O45: the decoding function's success, left by the codec commands' common end. -/
theorem decompressCommandsComplete : Obligations.DecompressCommandsComplete := by
  intro i s run d hwf hlen hform hrun
  obtain ⟨hi, hcodec⟩ := hform.codecRun_eq
  have hd : codecRun s.params i (s.inBytes s.opLen) = .ok d := by rw [hcodec, hrun]
  obtain ⟨t, hexec, hout, houtLen, hdone, hunits, hhost, hframe⟩ := exec_codec_done hi hwf hlen hd
  have hr1 := hform.r1_le hrun
  rw [State.inBytes_length] at hr1
  exact ⟨t, hexec, hout, houtLen.trans_le ((codecRun_fits hi _).1 d hd), hr1, hdone, hunits, hhost, hframe⟩

/-! ### Round trip (R183, R184) -/

/-- The payload loop over the codes of some bytes and the EOF code appends the bytes and reads no further (R184), where Walk reads
each byte's code exactly, to a place that holds the byte and is not the EOF leaf's, and the EOF code to the EOF leaf's. -/
theorem hufPayload_decodes {cap root eofLeaf : Nat} {nodes : List Node} {code : Byte → List Bool} {endCode rest : List Bool}
    (hend : walk nodes (endCode ++ rest) root = some (eofLeaf, rest)) {input : List Byte} (hbyte : ∀ b ∈ input, ∀ more,
      ∃ n, walk nodes (code b ++ more) root = some (n, more) ∧ n ≠ eofLeaf ∧ nodeValue nodes n = b)
    {fuel : Nat} {w : Writer} (hfuel : input.length < fuel) (hcap : w.len + input.length ≤ cap) :
    hufPayload cap nodes root eofLeaf fuel (input.flatMap code ++ (endCode ++ rest)) w =
      .ok ({ w with len := w.len + input.length, out := input.reverse ++ w.out }, rest) := by
  induction input generalizing fuel w with
  | nil =>
    obtain ⟨fuel, rfl⟩ : ∃ k, fuel = k + 1 := ⟨fuel - 1, by simp at hfuel; omega⟩
    simp [hufPayload, hend]
  | cons b input ih =>
    simp only [List.length_cons] at hfuel hcap
    obtain ⟨fuel, rfl⟩ : ∃ k, fuel = k + 1 := ⟨fuel - 1, by omega⟩
    obtain ⟨n, hwalk, hne, hval⟩ := hbyte b List.mem_cons_self (input.flatMap code ++ (endCode ++ rest))
    have hfull : w.len ≠ cap := by omega
    have ih := ih (fun b hb => hbyte b (List.mem_cons_of_mem _ hb)) (fuel := fuel)
      (w := { w with len := w.len + 1, out := b :: w.out }) (by omega) (by dsimp only; omega)
    simp only [List.flatMap_cons, List.append_assoc, hufPayload, hwalk, if_neg hne, hval, appendByte_eq, if_neg hfull, ih]
    simp [Nat.add_assoc, Nat.add_comm]

/-- Code(s) in the tree a built arena spans: it leads to a leaf of the symbol. -/
theorem leafAt_code {input : List Byte} {T : CodeTree} (hspan : Spans (buildTree input).nodes T (buildTree input).root)
    {sym : Nat} (hsym : sym ≤ 256) (h : sym = 256 ∨ BitVec.ofNat 8 sym ∈ input) :
    ∃ nd, T.leafAt ((buildTree input).code sym) = some nd ∧ nd.isSymbol sym = true := by
  obtain ⟨nd, hnode, hnd⟩ := buildTree_nodeAt_code hsym h
  refine ⟨nd, hspan.leafAt_of_nodeAt hnode ?_, hnd⟩
  cases nd with
  | internal l r w => cases hnd
  | leaf v w => rfl
  | eof w => rfl

namespace CodeTree

/-- The decoder's arena holds the tree alone. -/
theorem walk_arena_zero {T : CodeTree} {q : List Bool} {nd : Node} (h : T.leafAt q = some nd) (rest : List Bool) :
    walk (T.arena 0) (q ++ rest) 0 = some (T.slot q, rest) := by
  simpa using walk_arena h [] [] rest

/-- Where there are two leaves, no path to one is empty. -/
theorem ne_nil_of_leafAt {T : CodeTree} {q q' : List Bool} {nd nd' : Node} (h : T.leafAt q = some nd) (h' : T.leafAt q' = some nd')
    (hne : nd ≠ nd') : q ≠ [] := by
  rintro rfl
  cases T with
  | fork L R => cases h
  | leaf x =>
    cases q' with
    | nil => exact hne (Option.some.inj (h.symm.trans h'))
    | cons b q' => cases h'

end CodeTree

theorem Node.byte_of_isSymbol {nd : Node} {b : Byte} (h : nd.isSymbol b.toNat = true) : nd.byte = b := by
  cases nd with
  | internal l r w => cases h
  | leaf v w => exact BitVec.eq_of_toNat_eq (eq_of_beq h)
  | eof w => exact absurd (by simpa [Node.isSymbol] using h) (Nat.ne_of_lt b.isLt)

/-- A byte value's leaf is not the EOF leaf (D14). -/
theorem Node.ne_of_isSymbol_eof {nd nd' : Node} {b : Byte} (h : nd.isSymbol b.toNat = true) (h' : nd'.isSymbol 256 = true) :
    nd ≠ nd' := by
  rintro rfl
  cases nd with
  | internal l r w => cases h
  | leaf v w => exact absurd (by simpa [Node.isSymbol] using h') (Nat.ne_of_lt v.isLt)
  | eof w => exact absurd (by simpa [Node.isSymbol] using h) (Nat.ne_of_lt b.isLt)

theorem length_le_flatMap_length {α β : Type} {f : α → List β} {l : List α} (h : ∀ a ∈ l, f a ≠ []) :
    l.length ≤ (l.flatMap f).length := by
  have hsum := List.length_le_sum_of_one_le (l.map fun a => (f a).length) fun n hn => by
    obtain ⟨a, ha, rfl⟩ := List.mem_map.1 hn
    exact List.length_pos_iff.2 (h a ha)
  rwa [List.length_map, ← List.length_flatMap] at hsum

theorem hufStream_eq (tag : Word) (t : Tree) (input : List Byte) :
    hufStream tag t input = tagBits tag ++ (serialize t.nodes t.nodes.length t.root ++ (t.code 256 ++
      (input.flatMap (fun b => t.code b.toNat) ++ t.code 256))) := by
  simp only [hufStream, List.append_assoc]
  rfl

/-- HUF_DECOMPRESS of a tag, a tree's bits, the EOF code as the mark, the codes of some bytes and the EOF code again, with whatever bits
follow (R184): the codes lead to leaves of the tree, and the leaf of a byte is not the one the mark leads to. -/
theorem hufDecompress_of_leafAt {p : Config.Params} {T : CodeTree} {code : Byte → List Bool} {endCode padding : List Bool}
    {eofNode : Node} {input bytes : List Byte} (hsize : T.size ≤ 513) (hcap : input.length ≤ p.outCap)
    (heof : T.leafAt endCode = some eofNode)
    (hbyte : ∀ b ∈ input, ∃ nd, T.leafAt (code b) = some nd ∧ nd ≠ eofNode ∧ nd.byte = b)
    (hbits : streamBits bytes = tagBits p.tagHuf ++ (T.bits ++ (endCode ++ (input.flatMap code ++ (endCode ++ padding))))) :
    hufDecompress p bytes =
      .ok { out := input, r1 := (streamBits bytes).length - padding.length, r2 := T.size } := by
  have hopen : openStream p.tagHuf (streamBits bytes) =
      .ok (T.bits ++ (endCode ++ (input.flatMap code ++ (endCode ++ padding)))) := by rw [hbits, openStream_tagBits]
  have htree := T.deserialize_bits (fuel := Config.hufMaxNodes + 1) [] (endCode ++ (input.flatMap code ++ (endCode ++ padding)))
    (Nat.le_succ_of_le hsize) (by simpa using hsize)
  have hlong : input.length ≤ (input.flatMap code).length := length_le_flatMap_length fun b hb => by
    obtain ⟨nd, hnd, hne, _⟩ := hbyte b hb
    exact CodeTree.ne_nil_of_leafAt hnd heof hne
  have hpayload := hufPayload_decodes (cap := p.outCap) (CodeTree.walk_arena_zero heof padding)
    (fun b hb more => by
      obtain ⟨nd, hnd, hne, hb⟩ := hbyte b hb
      refine ⟨_, CodeTree.walk_arena_zero hnd more, fun hs => hne (CodeTree.leafAt_inj_slot hnd heof hs), ?_⟩
      rw [nodeValue, CodeTree.arena_slot hnd, hb])
    (fuel := (input.flatMap code ++ (endCode ++ padding)).length + 1)
    (w := Writer.fresh) (by rw [List.length_append]; omega) (by simpa [Writer.fresh] using hcap)
  simp only [List.length_nil, List.nil_append] at htree
  simp only [hufDecompress, hopen, htree, CodeTree.walk_arena_zero heof, hpayload, CodeTree.arena_length]
  simp [Writer.fresh]

/-- HUF_DECOMPRESS of a byte string that holds HUF_COMPRESS's stream of an input, and whatever bits after it (R183, R184). -/
theorem hufDecompress_hufStream {p : Config.Params} {input bytes : List Byte} {padding : List Bool}
    (hcap : input.length ≤ p.outCap) (hbits : streamBits bytes = hufStream p.tagHuf (buildTree input) input ++ padding) :
    hufDecompress p bytes = .ok { out := input, r1 := (hufStream p.tagHuf (buildTree input) input).length,
                                  r2 := (buildTree input).nodes.length } := by
  obtain ⟨T, hspan, hperm, hsize⟩ := buildTree_spans input
  have hD := distinctBytes_le input
  obtain ⟨eofNode, heof, heofSym⟩ := leafAt_code hspan (Nat.le_refl 256) (.inl rfl)
  have hbyte : ∀ b ∈ input, ∃ nd, T.leafAt ((buildTree input).code b.toNat) = some nd ∧ nd ≠ eofNode ∧ nd.byte = b :=
    fun b hb => by
      obtain ⟨nd, hnd, hsym⟩ := leafAt_code hspan (Nat.le_of_lt b.isLt) (.inr (by simpa using hb))
      exact ⟨nd, hnd, Node.ne_of_isSymbol_eof hsym heofSym, Node.byte_of_isSymbol hsym⟩
  have hstream := hbits
  rw [hufStream_eq, hspan.serialize_eq (Nat.le_of_eq hsize)] at hstream
  simp only [List.append_assoc] at hstream
  have hlen := buildTree_nodes_length input
  rw [hufDecompress_of_leafAt (by omega) hcap heof hbyte hstream, hbits, hsize, List.length_append, Nat.add_sub_cancel]

/-- A codec command that ends without an error ran its function of a legal length of input, and it succeeded (R332). -/
theorem codecRun_of_exec {i : Instr} {s t : State} (hi : IsCodec i) (h : exec i s = .next t) (herr : t.err = none) :
    s.opLen ≤ s.params.inCap ∧ ∃ d, codecRun s.params i (s.inBytes s.opLen) = .ok d := by
  rcases exec_codec_cases hi h with ⟨d, hrun, _⟩ | ⟨e, _, rfl⟩
  · rcases Nat.lt_or_ge s.params.inCap s.opLen with hlt | hle
    · rw [withInputBytes_of_lt hlt] at hrun
      cases hrun
    · rw [withInputBytes_of_le hle] at hrun
      exact ⟨hle, d, hrun⟩
  · cases herr

/-- HUF_DECOMPRESS undoes HUF_COMPRESS, and counts the same bits and nodes (R183, R184). -/
theorem hufDecompress_of_hufCompress {p : Config.Params} {input : List Byte} {d : CodecDone} (hcap : input.length ≤ p.outCap)
    (h : hufCompress p input = .ok d) : hufDecompress p d.out = .ok { d with out := input } := by
  have hpack := packStream_spec p.outCap (hufStream p.tagHuf (buildTree input) input) (buildTree input).nodes.length
  split at hpack
  · obtain ⟨d', hd', _, hr1, hr2, hbits⟩ := hpack
    obtain rfl := Except.ok.inj (hd'.symm.trans h)
    rw [hufDecompress_hufStream hcap hbits, ← hr1, ← hr2]
  · cases hpack.symm.trans h

/-- Settles O47: HUF_COMPRESS ran, so the input had a legal length, and HUF_DECOMPRESS undoes it. -/
theorem huffmanRoundTrip : Obligations.HuffmanRoundTrip := by
  intro s t u hwf hexec herr hcap hparams hlen hin
  have hc : IsCodec .hufCompress := .inl rfl
  have hd : IsCodec .hufDecompress := .inr (.inl rfl)
  obtain ⟨hle, d, hrun⟩ := codecRun_of_exec hc hexec herr
  obtain ⟨t', hexec', hout, _, ⟨_, hr1, hr2, _⟩, _⟩ := exec_codec_done hc hwf hle hrun
  obtain rfl := Host.Outcome.next.inj (hexec.symm.trans hexec')
  have hback : codecRun u.params .hufDecompress (u.inBytes u.opLen) = .ok { d with out := s.inBytes s.opLen } := by
    rw [hin, hout, hparams]
    exact hufDecompress_of_hufCompress (by rwa [State.inBytes_length]) hrun
  obtain ⟨v, hexecv, hvout, hvlen, hdone, _⟩ := exec_codec_done hd (hparams ▸ hwf) hlen hback
  have hlength : v.outLen = s.operands.inLen := BitVec.eq_of_toNat_eq (hvlen.trans (State.inBytes_length _ _))
  rw [hlength, ← hr1, ← hr2] at hdone
  exact ⟨v, hexecv, hvout, hdone⟩

end Sys2Proof.Machine
end

section
/-! PROOFS. FindMatch as a function of the input (42_lzss.md R211): the comparison loop, the scan over the candidates, and LZSS_FIND
(R212). -/

namespace Sys2Proof.Machine

/-! ### Matches (R210, R211) -/

/-- The `l` bytes at `p` are those at `c`. -/
def Repeats (byte : Nat → Byte) (p c l : Nat) : Prop := ∀ j, j < l → byte (p + j) = byte (c + j)

theorem Repeats.mono {byte : Nat → Byte} {p c l n : Nat} (h : Repeats byte p c l) (hn : n ≤ l) : Repeats byte p c n :=
  fun j hj => h j (Nat.lt_of_lt_of_le hj hn)

theorem Repeats.tail {byte : Nat → Byte} {p c l : Nat} (h : Repeats byte p c (l + 1)) : Repeats byte (p + 1) (c + 1) l :=
  fun j hj => by rw [Nat.add_assoc, Nat.add_assoc c, Nat.add_comm 1]; exact h (j + 1) (Nat.succ_lt_succ hj)

/-- One byte more repeats where the next two agree. -/
theorem repeats_succ {byte : Nat → Byte} {p c l : Nat} :
    Repeats byte p c (l + 1) ↔ Repeats byte p c l ∧ byte (p + l) = byte (c + l) := by
  refine ⟨fun h => ⟨h.mono (Nat.le_succ l), h l (Nat.lt_succ_self l)⟩, fun ⟨h, hl⟩ j hj => ?_⟩
  rcases Nat.lt_succ_iff_lt_or_eq.1 hj with hj | rfl
  · exact h j hj
  · exact hl

theorem repeats_congr {byte byte' : Nat → Byte} {p c l : Nat} (hpc : p < c) (h : ∀ a, p ≤ a → a < c + l → byte a = byte' a) :
    Repeats byte p c l ↔ Repeats byte' p c l :=
  forall₂_congr fun j hj => by rw [h (p + j) (by omega) (by omega), h (c + j) (by omega) (by omega)]

/-- Equal keys are three equal bytes (R210). -/
theorem keyAt_eq_iff {byte : Nat → Byte} {p c : Nat} : keyAt byte p = keyAt byte c ↔ Repeats byte p c 3 := by
  have lt : ∀ a, (byte a).toNat < 256 := fun a => (byte a).isLt
  have h0 := lt p; have h1 := lt (p + 1); have h2 := lt (p + 2)
  have k0 := lt c; have k1 := lt (c + 1); have k2 := lt (c + 2)
  have repeats_zero : Repeats byte p c 0 := fun j hj => absurd hj (Nat.not_lt_zero j)
  simp only [repeats_succ, repeats_zero, true_and, Nat.add_zero, ← BitVec.toNat_inj, keyAt]
  omega

/-- The comparison loop goes as far as the bytes repeat, up to the limit (R211). -/
theorem le_extendMatch_iff {byte : Nat → Byte} {p c lim fuel l : Nat} (hl : Repeats byte p c l) (hlim : l ≤ lim)
    (hfuel : lim ≤ l + fuel) (n : Nat) : n ≤ extendMatch byte p c lim fuel l ↔ n ≤ lim ∧ Repeats byte p c n := by
  have stop : ∀ {l}, Repeats byte p c l → l ≤ lim → ¬ (l < lim ∧ byte (p + l) = byte (c + l)) →
      (n ≤ l ↔ n ≤ lim ∧ Repeats byte p c n) := fun {l} hl hlim hstop =>
    ⟨fun hn => ⟨hn.trans hlim, hl.mono hn⟩, fun ⟨hn, hrep⟩ =>
      Nat.not_lt.1 fun hlt => hstop ⟨Nat.lt_of_lt_of_le hlt hn, hrep l hlt⟩⟩
  induction fuel generalizing l with
  | zero => exact stop hl hlim fun hnext => absurd hnext.1 (Nat.not_lt.2 hfuel)
  | succ fuel ih =>
    rw [extendMatch]
    split
    · rename_i hnext
      exact ih (repeats_succ.2 ⟨hl, hnext.2⟩) hnext.1 (by omega)
    · exact stop hl hlim ‹_›

/-- The match length of a candidate is the greatest length up to the limit for which its bytes repeat (R211). -/
theorem le_matchLength_iff {byte : Nat → Byte} {p c lim : Nat} (hkey : keyAt byte p = keyAt byte c) (hlim : 3 ≤ lim) (n : Nat) :
    n ≤ matchLength byte p c lim ↔ n ≤ lim ∧ Repeats byte p c n :=
  le_extendMatch_iff (keyAt_eq_iff.1 hkey) hlim (Nat.le_add_left lim 3) n

/-! ### The scan (R211) -/

/-- No candidate beats length 18, so stopping there changes nothing. -/
theorem scanMatches_of_full {byte : Nat → Byte} {c lim : Nat} {ps : List Nat} (hlen : ∀ p ∈ ps, matchLength byte p c lim ≤ 18)
    {best : Nat × Nat} (hbest : best.1 = 18) : scanMatches byte c lim ps best = best := by
  cases ps with
  | nil => rfl
  | cons p ps => simp [scanMatches, Nat.not_lt.2 (hlen p List.mem_cons_self), hbest]

/-- One candidate of the scan: it replaces the best so far if it is longer. -/
theorem scanMatches_cons {byte : Nat → Byte} {c lim : Nat} {ps : List Nat} (hlen : ∀ p ∈ ps, matchLength byte p c lim ≤ 18)
    (p : Nat) (best : Nat × Nat) : scanMatches byte c lim (p :: ps) best =
      scanMatches byte c lim ps (if best.1 < matchLength byte p c lim then (matchLength byte p c lim, c - p) else best) := by
  rw [scanMatches]
  generalize (if best.1 < matchLength byte p c lim then (matchLength byte p c lim, c - p) else best) = best'
  split
  · rename_i hfull
    exact (scanMatches_of_full hlen hfull).symm
  · rfl

/-- The scan keeps the pair it began with, or takes that of a longer candidate: the longest, and the nearest of the longest where
the candidates come newest first. -/
theorem scanMatches_spec {byte : Nat → Byte} {c lim : Nat} {ps : List Nat} (hlen : ∀ p ∈ ps, matchLength byte p c lim ≤ 18)
    (hps : ps.Pairwise (· > ·)) (best : Nat × Nat) :
    best.1 ≤ (scanMatches byte c lim ps best).1 ∧
    (∀ p ∈ ps, matchLength byte p c lim ≤ (scanMatches byte c lim ps best).1) ∧
    (scanMatches byte c lim ps best = best ∨
      ∃ p ∈ ps, best.1 < matchLength byte p c lim ∧ scanMatches byte c lim ps best = (matchLength byte p c lim, c - p) ∧
        ∀ q ∈ ps, matchLength byte q c lim = matchLength byte p c lim → q ≤ p) := by
  induction ps generalizing best with
  | nil => exact ⟨Nat.le_refl _, fun p hp => absurd hp List.not_mem_nil, .inl rfl⟩
  | cons p ps ih =>
    obtain ⟨hnewest, hps⟩ := List.pairwise_cons.1 hps
    obtain ⟨_, hlen⟩ := List.forall_mem_cons.1 hlen
    rw [scanMatches_cons hlen, List.forall_mem_cons]
    split
    · rename_i hlonger
      obtain ⟨hle, hall, hpair⟩ := ih hlen hps (matchLength byte p c lim, c - p)
      refine ⟨(Nat.le_of_lt hlonger).trans hle, ⟨hle, hall⟩, .inr ?_⟩
      rcases hpair with hkept | ⟨q, hq, hlt, htaken, hnear⟩
      · exact ⟨p, List.mem_cons_self, hlonger, hkept, List.forall_mem_cons.2
          ⟨fun _ => Nat.le_refl p, fun q hq _ => Nat.le_of_lt (hnewest q hq)⟩⟩
      · exact ⟨q, List.mem_cons_of_mem p hq, hlonger.trans hlt, htaken, List.forall_mem_cons.2
          ⟨fun heq => absurd heq (Nat.ne_of_lt hlt), hnear⟩⟩
    · rename_i hnot
      obtain ⟨hle, hall, hpair⟩ := ih hlen hps best
      refine ⟨hle, ⟨(Nat.not_lt.1 hnot).trans hle, hall⟩, hpair.imp_right ?_⟩
      rintro ⟨q, hq, hlt, htaken, hnear⟩
      exact ⟨q, List.mem_cons_of_mem p hq, hlt, htaken, List.forall_mem_cons.2
        ⟨fun heq => absurd (heq ▸ hlt) hnot, hnear⟩⟩

/-! ### FindMatch (R211) -/

/-- A match of `l` bytes for position `c` starts at `p`: within the history before `c`, of an encodable length, within the input
(R211). -/
structure IsMatch (byte : Nat → Byte) (N c p l : Nat) : Prop where
  before : p < c
  inHistory : c ≤ p + 4095
  min_le : 3 ≤ l
  le_max : l ≤ 18
  inInput : c + l ≤ N
  repeats : Repeats byte p c l

/-- The positions before `c` that the history holds, oldest first. -/
def historyBefore (c : Nat) : List Nat := List.range' (c - 4095) (min c 4095)

theorem mem_historyBefore {c p : Nat} : p ∈ historyBefore c ↔ p < c ∧ c ≤ p + 4095 := by
  rw [historyBefore, List.mem_range'_1]
  omega

theorem candidates_eq (byte : Nat → Byte) (c : Nat) :
    candidates byte c = (historyBefore c).reverse.filter (fun p => keyAt byte p == keyAt byte c) := by
  have hback : ∀ i, c - 4095 + min c 4095 - 1 - i = c - 1 - i := fun i => by omega
  simp only [candidates, historyBefore, List.reverse_range', hback, lzssHistoryCap_eq]

theorem candidates_pairwise (byte : Nat → Byte) (c : Nat) : (candidates byte c).Pairwise (· > ·) := by
  rw [candidates_eq]
  exact (List.pairwise_reverse.2 List.pairwise_lt_range').filter _

theorem mem_candidates {byte : Nat → Byte} {c p : Nat} :
    p ∈ candidates byte c ↔ (p < c ∧ c ≤ p + 4095) ∧ keyAt byte p = keyAt byte c := by
  rw [candidates_eq, List.mem_filter, List.mem_reverse, mem_historyBefore, beq_iff_eq]

/-- A candidate's match length says how long its matches are (R211). -/
theorem isMatch_iff {byte : Nat → Byte} {N c p l : Nat} (hN : c + 3 ≤ N) :
    IsMatch byte N c p l ↔ p ∈ candidates byte c ∧ 3 ≤ l ∧ l ≤ matchLength byte p c (min 18 (N - c)) := by
  rw [mem_candidates]
  constructor
  · rintro ⟨hp, hc, h3, h18, hl, hrep⟩
    have hkey := keyAt_eq_iff.2 (hrep.mono h3)
    exact ⟨⟨⟨hp, hc⟩, hkey⟩, h3, (le_matchLength_iff hkey (by omega) l).2 ⟨by omega, hrep⟩⟩
  · rintro ⟨⟨⟨hp, hc⟩, hkey⟩, h3, hl⟩
    obtain ⟨hl, hrep⟩ := (le_matchLength_iff hkey (by omega) l).1 hl
    exact ⟨hp, hc, h3, by omega, by omega, hrep⟩

/-- A candidate has a match, of its match length. -/
theorem isMatch_matchLength {byte : Nat → Byte} {N c p : Nat} (hN : c + 3 ≤ N) (hp : p ∈ candidates byte c) :
    IsMatch byte N c p (matchLength byte p c (min 18 (N - c))) := by
  have hkey := (mem_candidates.1 hp).2
  have hmin := (le_matchLength_iff hkey (lim := min 18 (N - c)) (by omega) 3).2 ⟨by omega, keyAt_eq_iff.1 hkey⟩
  exact (isMatch_iff hN).2 ⟨hp, hmin, Nat.le_refl _⟩

/-- FindMatch gives (0, 0) without candidates, else the pair of a longest one, the nearest of these (R211). -/
theorem findMatch_cases {byte : Nat → Byte} {N c : Nat} (hN : c + 3 ≤ N) :
    (findMatch byte N c = (0, 0) ∧ ∀ p, p ∉ candidates byte c) ∨
    ∃ p ∈ candidates byte c, findMatch byte N c = (matchLength byte p c (min 18 (N - c)), c - p) ∧
      ∀ q ∈ candidates byte c, matchLength byte q c (min 18 (N - c)) ≤ matchLength byte p c (min 18 (N - c)) ∧
        (matchLength byte q c (min 18 (N - c)) = matchLength byte p c (min 18 (N - c)) → q ≤ p) := by
  obtain ⟨_, hall, hpair⟩ := scanMatches_spec (fun p hp => (isMatch_matchLength hN hp).le_max) (candidates_pairwise byte c) (0, 0)
  have hfind : findMatch byte N c = atLeastMin (scanMatches byte c (min 18 (N - c)) (candidates byte c) (0, 0)) :=
    if_neg (by omega)
  rcases hpair with hnone | ⟨p, hp, _, htaken, hnear⟩
  · rw [hnone] at hfind hall
    exact .inl ⟨hfind, fun p hp => absurd ((isMatch_matchLength hN hp).min_le.trans (hall p hp)) (by decide)⟩
  · rw [htaken] at hfind hall
    rw [atLeastMin, if_pos (isMatch_matchLength hN hp).min_le] at hfind
    exact .inr ⟨p, hp, hfind, fun q hq => ⟨hall q hq, hnear q hq⟩⟩

/-- FindMatch gives no match or one that is there; no match is longer, and none as long is nearer (R211). -/
theorem findMatch_spec (byte : Nat → Byte) (N c : Nat) :
    (findMatch byte N c = (0, 0) ∨ ∃ p, IsMatch byte N c p (findMatch byte N c).1 ∧ (findMatch byte N c).2 = c - p) ∧
    ∀ p l, IsMatch byte N c p l → l ≤ (findMatch byte N c).1 ∧ (l = (findMatch byte N c).1 → (findMatch byte N c).2 ≤ c - p) := by
  rcases Nat.lt_or_ge N (c + 3) with hshort | hN
  · have hend : findMatch byte N c = (0, 0) := if_pos (by omega)
    exact ⟨.inl hend, fun p l hmatch => absurd hmatch.inInput (by have := hmatch.min_le; omega)⟩
  · rcases findMatch_cases (byte := byte) hN with ⟨hnone, hempty⟩ | ⟨p, hp, hfound, hbest⟩
    · exact ⟨.inl hnone, fun p l hmatch => absurd ((isMatch_iff hN).1 hmatch).1 (hempty p)⟩
    · rw [hfound]
      refine ⟨.inr ⟨p, isMatch_matchLength hN hp, rfl⟩, fun q l hmatch => ?_⟩
      obtain ⟨hq, _, hl⟩ := (isMatch_iff hN).1 hmatch
      obtain ⟨hle, hnear⟩ := hbest q hq
      exact ⟨hl.trans hle, fun heq => Nat.sub_le_sub_left (hnear (Nat.le_antisymm hle (heq.symm.trans_le hl))) c⟩

/-- What FindMatch finds is a match (R211). -/
theorem isMatch_findMatch {byte : Nat → Byte} {N c : Nat} (h : 3 ≤ (findMatch byte N c).1) :
    ∃ p, IsMatch byte N c p (findMatch byte N c).1 ∧ (findMatch byte N c).2 = c - p :=
  (findMatch_spec byte N c).1.resolve_left fun hnone => by rw [hnone] at h; exact absurd h (by decide)

/-! ### LZSS_FIND (R212) -/

theorem exec_lzssFind {s : State} (hlen : s.opLen ≤ s.params.inCap) (hpos : s.opArg0.toNat ≤ s.opLen) :
    exec .lzssFind s = .next (s.complete { r0 := BitVec.ofNat 32 (findMatch s.inByte s.opLen s.opArg0.toNat).1,
                                           r1 := BitVec.ofNat 32 (findMatch s.inByte s.opLen s.opArg0.toNat).2 }) := by
  simp only [exec, execLzssFind, withInput_of_le hlen, if_neg (Nat.not_lt.2 hpos), settle_ok]

/-- Settles O42: the command reports FindMatch at ARG0, behind the checks of IN_LEN and of ARG0. -/
theorem findReturnsBestMatch : Obligations.FindReturnsBestMatch := by
  intro s _
  refine ⟨fun hlong => failedWith_of_settle_error rfl (withInput_of_lt hlong _), fun hlen hpos => ?_, fun hlen hpast => ?_⟩
  · have hexec := exec_lzssFind hlen hpos
    obtain ⟨hfound, hbest⟩ := findMatch_spec s.inByte s.opLen s.opArg0.toNat
    refine ⟨_, _, _, hexec, ⟨rfl, rfl, rfl, rfl, rfl, rfl⟩, commandsLeaveHostSide _ _ _ hexec, ⟨rfl, rfl, rfl, rfl, rfl, rfl⟩,
      ⟨rfl, fun _ => rfl⟩, ?_, fun p l hp hc h3 h18 hl hrep => hbest p l ⟨hp, hc, h3, h18, hl, hrep⟩⟩
    rcases hfound with hnone | ⟨p, ⟨hp, hc, h3, h18, hl, hrep⟩, hoff⟩
    · exact .inl (Prod.mk.inj hnone)
    · rw [hoff]
      refine .inr ⟨h3, h18, by omega, by omega, by omega, hl, fun j hj => ?_⟩
      rw [Nat.sub_sub_self (Nat.le_of_lt hp)]
      exact hrep j hj
  · refine failedWith_of_settle_error rfl ?_
    rw [withInput_of_le hlen, if_pos hpast]

end Sys2Proof.Machine
end

section
/-! PROOFS. The organisation of LZSS_COMPRESS (42_lzss.md R213, R217): the window holds the input around the position and the
dictionary its history by keys, which every Advance() keeps; so the blocks it emits are FindMatch's. -/

namespace Sys2Proof.Machine

/-! ### The window over the input (R214, R217, R300) -/

/-- Every readable position of the window holds the input's byte. -/
def Window.Shows (byte : Nat → Byte) (w : Window) : Prop := ∀ p, w.readable p → w.byteAt p = byte p

theorem Window.Shows.push {byte : Nat → Byte} {w : Window} (h : w.Shows byte) : (w.push (byte w.head)).Shows byte := by
  intro p hp
  rcases Nat.eq_or_lt_of_le (Nat.le_of_lt_succ hp.2) with rfl | hlt
  · exact Window.byteAt_push_head w _
  · rw [Window.byteAt_push_readable _ hp (Nat.ne_of_lt hlt)]
    exact h p ((Window.readable_push hp).resolve_left (Nat.ne_of_lt hlt))

theorem Window.shows_of_head_zero {byte : Nat → Byte} {w : Window} (h : w.head = 0) : w.Shows byte :=
  fun p hp => absurd hp.2 (by omega)

theorem fillLookahead_spec (byte : Nat → Byte) (count : Nat) {w : Window} (h : w.Shows byte) :
    (fillLookahead byte count w).Shows byte ∧ (fillLookahead byte count w).head = w.head + count := by
  induction count generalizing w with
  | zero => exact ⟨h, rfl⟩
  | succ count ih =>
    obtain ⟨hshows, hhead⟩ := ih h.push
    exact ⟨hshows, hhead.trans (by rw [Window.push_head]; omega)⟩

/-! ### The dictionary over the history (R213) -/

/-- The positions of the `n` from `a` on whose key is `k`, oldest first; a position with a key has 3 bytes of input (R210). -/
def keyedPositions (byte : Nat → Byte) (N k a n : Nat) : List Nat :=
  (List.range' a n).filter (fun p => decide (p + 3 ≤ N) && keyAt byte p == k)

theorem keyedPositions_succ_left (byte : Nat → Byte) (N k a n : Nat) : keyedPositions byte N k a (n + 1) =
    if a + 3 ≤ N ∧ keyAt byte a = k then a :: keyedPositions byte N k (a + 1) n else keyedPositions byte N k (a + 1) n := by
  simp [keyedPositions, List.range'_succ, List.filter_cons]

theorem keyedPositions_succ_right (byte : Nat → Byte) (N k a n : Nat) : keyedPositions byte N k a (n + 1) =
    keyedPositions byte N k a n ++ if a + n + 3 ≤ N ∧ keyAt byte (a + n) = k then [a + n] else [] := by
  simp [keyedPositions, List.range'_concat, List.filter_append, List.filter_cons]

/-- The dictionary lists, key by key, the `n` positions from `a` on. -/
structure Dict.Indexes (byte : Nat → Byte) (N a n : Nat) (d : Dict) : Prop where
  wf : Dict.wf d
  list_eq : ∀ k, Dict.list d k = (keyedPositions byte N k a n).map (BitVec.ofNat 32)

theorem Dict.Indexes.nil (byte : Nat → Byte) (N a : Nat) : Dict.Indexes byte N a 0 [] :=
  ⟨⟨List.Pairwise.nil, by simp⟩, fun _ => rfl⟩

/-- Removing the oldest position of its key takes the oldest position out (R217). -/
theorem Dict.Indexes.removeOldest {byte : Nat → Byte} {N a n : Nat} {d : Dict} (h : d.Indexes byte N a (n + 1)) (ha : a + 3 ≤ N) :
    (Dict.removeOldest d (keyAt byte a)).Indexes byte N (a + 1) n := by
  refine ⟨Dict.removeOldest_wf h.wf _, fun k => ?_⟩
  rw [Dict.list_removeOldest h.wf.1, h.list_eq, h.list_eq, keyedPositions_succ_left, keyedPositions_succ_left]
  by_cases hk : k = keyAt byte a
  · simp [hk, ha]
  · simp [hk, Ne.symm hk]

/-- Inserting a position under its key puts it in as the newest (R217). -/
theorem Dict.Indexes.insert {byte : Nat → Byte} {N a n : Nat} {d : Dict} (h : d.Indexes byte N a n) (hN : a + n + 3 ≤ N) :
    (Dict.insert d (keyAt byte (a + n)) (BitVec.ofNat 32 (a + n))).Indexes byte N a (n + 1) := by
  refine ⟨Dict.insert_wf h.wf _ _, fun k => ?_⟩
  rw [Dict.list_insert, h.list_eq, h.list_eq, keyedPositions_succ_right]
  by_cases hk : k = keyAt byte (a + n)
  · simp [hk, hN]
  · simp [hk, Ne.symm hk]

/-- A position with no key of its own is listed nowhere. -/
theorem Dict.Indexes.skip {byte : Nat → Byte} {N a n : Nat} {d : Dict} (h : d.Indexes byte N a n) (hN : N < a + n + 3) :
    d.Indexes byte N a (n + 1) := by
  refine ⟨h.wf, fun k => ?_⟩
  rw [h.list_eq, keyedPositions_succ_right, if_neg (by omega), List.append_nil]

/-! ### The working state (R213, R217) -/

/-- The loop invariant of LZSS_COMPRESS: at position `c` the window shows the input up to 18 bytes past it, and the dictionary
indexes the history before it (R213). -/
structure LzssWork.Tracks (byte : Nat → Byte) (N : Nat) (w : LzssWork) : Prop where
  head_eq : w.cw.head = min N (w.c + 18)
  shows : w.cw.Shows byte
  indexes : w.hd.Indexes byte N (w.c - 4095) (min w.c 4095)

theorem LzssWork.start_tracks (byte : Nat → Byte) (N : Nat) : (LzssWork.start byte N).Tracks byte N := by
  obtain ⟨hshows, hhead⟩ := fillLookahead_spec byte (min N Config.lzssLookaheadCap) (w := { buf := [], head := 0, cursor := 0 })
    (Window.shows_of_head_zero rfl)
  exact ⟨hhead.trans (by simp [LzssWork.start]), hshows, Dict.Indexes.nil byte N _⟩

/-- What the engine reads of the window is the input's: from the oldest position of the history to the end of the lookahead. -/
theorem LzssWork.Tracks.byteAt_eq {byte : Nat → Byte} {N : Nat} {w : LzssWork} (h : w.Tracks byte N) {p : Nat}
    (hlo : w.c ≤ p + 4095) (hN : p < N) (hhi : p < w.c + 18) : w.cw.byteAt p = byte p := by
  refine h.shows p ⟨?_, ?_⟩ <;> rw [h.head_eq]
  · rw [cwCap_eq]; omega
  · omega

theorem LzssWork.Tracks.keyAt_eq {byte : Nat → Byte} {N : Nat} {w : LzssWork} (h : w.Tracks byte N) {p : Nat}
    (hlo : w.c ≤ p + 4095) (hN : p + 3 ≤ N) (hhi : p ≤ w.c) : keyAt w.cw.byteAt p = keyAt byte p := by
  rw [keyAt, keyAt, h.byteAt_eq (by omega) (by omega) (by omega), h.byteAt_eq (by omega) (by omega) (by omega),
    h.byteAt_eq (by omega) (by omega) (by omega)]

/-- The first half of the dictionary's slide: the position that leaves the history leaves the dictionary (R217). -/
theorem LzssWork.Tracks.evict {byte : Nat → Byte} {N : Nat} {w : LzssWork} (h : w.Tracks byte N) (hc : w.c < N) :
    (if Config.lzssHistoryCap ≤ w.c then Dict.removeOldest w.hd (keyAt w.cw.byteAt (w.c - Config.lzssHistoryCap))
      else w.hd).Indexes byte N (w.c + 1 - 4095) (min w.c 4094) := by
  have hindexes := h.indexes
  simp only [lzssHistoryCap_eq]
  split
  · rename_i hfull
    rw [h.keyAt_eq (by omega) (by omega) (by omega), Nat.sub_add_comm hfull, Nat.min_eq_right (by omega)]
    rw [Nat.min_eq_right hfull] at hindexes
    exact hindexes.removeOldest (by omega)
  · rwa [show w.c + 1 - 4095 = w.c - 4095 by omega, show min w.c 4094 = min w.c 4095 by omega]

/-- The second half: the position becomes the newest of the history, under its key if it has one (R217). -/
theorem LzssWork.Tracks.enter {byte : Nat → Byte} {N : Nat} {w : LzssWork} (h : w.Tracks byte N) {d : Dict}
    (hd : d.Indexes byte N (w.c + 1 - 4095) (min w.c 4094)) :
    (if w.c + 3 ≤ N then Dict.insert d (keyAt w.cw.byteAt w.c) (BitVec.ofNat 32 w.c) else d).Indexes byte N
      (w.c + 1 - 4095) (min (w.c + 1) 4095) := by
  have hnewest : w.c + 1 - 4095 + min w.c 4094 = w.c := by omega
  rw [show min (w.c + 1) 4095 = min w.c 4094 + 1 by omega]
  split
  · rename_i hkeyed
    have hin := hd.insert (by omega)
    rwa [hnewest, ← h.keyAt_eq (by omega) hkeyed (Nat.le_refl _)] at hin
  · exact hd.skip (by omega)

/-- The window's slide: the head moves with the position until the input ends (R217). -/
theorem LzssWork.Tracks.slide {byte : Nat → Byte} {N : Nat} {w : LzssWork} (h : w.Tracks byte N) :
    (LzssWork.advance byte N w).cw.head = min N (w.c + 1 + 18) ∧ (LzssWork.advance byte N w).cw.Shows byte := by
  have hhead := h.head_eq
  have hshows : Window.Shows byte { w.cw with cursor := w.c + 1 } := h.shows
  rw [LzssWork.advance]
  split
  · exact ⟨by rw [Window.push_head]; dsimp only; omega, hshows.push⟩
  · exact ⟨by dsimp only; omega, hshows⟩

/-- Advance() keeps the invariant. -/
theorem LzssWork.Tracks.advance {byte : Nat → Byte} {N : Nat} {w : LzssWork} (h : w.Tracks byte N) (hc : w.c < N) :
    (LzssWork.advance byte N w).Tracks byte N :=
  ⟨h.slide.1, h.slide.2, h.enter (h.evict hc)⟩

@[simp] theorem LzssWork.advance_c (byte : Nat → Byte) (N : Nat) (w : LzssWork) : (LzssWork.advance byte N w).c = w.c + 1 := rfl

theorem LzssWork.Tracks.advanceBy {byte : Nat → Byte} {N : Nat} {times : Nat} {w : LzssWork} (h : w.Tracks byte N)
    (hc : w.c + times ≤ N) :
    (LzssWork.advanceBy byte N times w).Tracks byte N ∧ (LzssWork.advanceBy byte N times w).c = w.c + times := by
  induction times generalizing w with
  | zero => exact ⟨h, rfl⟩
  | succ times ih =>
    obtain ⟨htracks, hat⟩ := ih (h.advance (by omega)) (by rw [LzssWork.advance_c]; omega)
    exact ⟨htracks, hat.trans (by rw [LzssWork.advance_c]; omega)⟩

/-! ### The engine's match finder (R213) -/

/-- The scan depends on the bytes by the candidates' match lengths only. -/
theorem scanMatches_congr_matchLength {byte byte' : Nat → Byte} {c lim : Nat} {ps : List Nat}
    (h : ∀ p ∈ ps, matchLength byte p c lim = matchLength byte' p c lim) (best : Nat × Nat) :
    scanMatches byte c lim ps best = scanMatches byte' c lim ps best := by
  induction ps generalizing best with
  | nil => rfl
  | cons p ps ih =>
    obtain ⟨hp, hps⟩ := List.forall_mem_cons.1 h
    simp only [scanMatches, hp, ih hps]

/-- The dictionary's list under the key at the position, newest first, is the list of candidates (R213). -/
theorem LzssWork.Tracks.dict_list_eq {byte : Nat → Byte} {N : Nat} {w : LzssWork} (h : w.Tracks byte N) (hN : w.c + 3 ≤ N)
    (hlen : N ≤ 2 ^ 28) : (Dict.list w.hd (keyAt byte w.c)).reverse.map BitVec.toNat = candidates byte w.c := by
  have hkeyed : keyedPositions byte N (keyAt byte w.c) (w.c - 4095) (min w.c 4095) =
      (historyBefore w.c).filter (fun p => keyAt byte p == keyAt byte w.c) := by
    refine List.filter_congr fun p hp => ?_
    have hp := (mem_historyBefore.1 hp).1
    simp only [decide_eq_true (show p + 3 ≤ N by omega), Bool.true_and]
  rw [h.indexes.list_eq, hkeyed, candidates_eq, List.filter_reverse, ← List.map_reverse, List.map_map]
  refine (List.map_congr_left (g := id) fun p hp => ?_).trans (List.map_id _)
  have hp := (mem_historyBefore.1 (List.mem_of_mem_filter (List.mem_reverse.1 hp))).1
  exact (BitVec.toNat_ofNat p 32).trans (Nat.mod_eq_of_lt (by omega))

/-- A candidate's match length is the same over the window as over the input: every byte compared is still readable (R213, R217). -/
theorem LzssWork.Tracks.matchLength_eq {byte : Nat → Byte} {N : Nat} {w : LzssWork} (h : w.Tracks byte N) (hN : w.c + 3 ≤ N)
    {p : Nat} (hp : p ∈ candidates byte w.c) :
    matchLength w.cw.byteAt p w.c (min 18 (N - w.c)) = matchLength byte p w.c (min 18 (N - w.c)) := by
  obtain ⟨⟨hlt, hin⟩, hkey⟩ := mem_candidates.1 hp
  have hkeyw : keyAt w.cw.byteAt p = keyAt w.cw.byteAt w.c := by
    rw [h.keyAt_eq hin (by omega) (by omega), h.keyAt_eq (by omega) hN (Nat.le_refl _), hkey]
  refine eq_of_forall_le_iff fun n => ?_
  rw [le_matchLength_iff hkeyw (by omega), le_matchLength_iff hkey (by omega)]
  exact and_congr_right fun hn => repeats_congr hlt fun a ha hac => h.byteAt_eq (by omega) (by omega) (by omega)

/-- The engine's match finder is FindMatch over the input (R213). -/
theorem LzssWork.Tracks.find_eq {byte : Nat → Byte} {N : Nat} {w : LzssWork} (h : w.Tracks byte N) (hlen : N ≤ 2 ^ 28) :
    w.find N = findMatch byte N w.c := by
  unfold LzssWork.find findMatch
  split
  · rfl
  · have hN : w.c + 3 ≤ N := by omega
    rw [h.keyAt_eq (by omega) hN (Nat.le_refl _), h.dict_list_eq hN hlen]
    exact congrArg atLeastMin (scanMatches_congr_matchLength (fun p hp => h.matchLength_eq hN hp) _)

/-! ### The greedy parse (R214) -/

theorem lzssBlocks_eq_lzssParse {byte : Nat → Byte} {N : Nat} (hlen : N ≤ 2 ^ 28) (fuel : Nat) {w : LzssWork}
    (h : w.Tracks byte N) : lzssBlocks byte N fuel w = lzssParse byte N fuel w.c := by
  induction fuel generalizing w with
  | zero => rfl
  | succ fuel ih =>
    simp only [lzssBlocks, lzssParse, h.find_eq hlen]
    split
    · rename_i hc
      split
      · rename_i hmatch
        obtain ⟨p, hfound, _⟩ := isMatch_findMatch hmatch
        obtain ⟨htracks, hat⟩ := h.advanceBy hfound.inInput
        rw [ih htracks, hat]
      · rw [ih (h.advance hc), LzssWork.advance_c]
    · rfl

/-- Settles O43, by the loop invariant of R213. -/
theorem windowEngineRefinesFindMatch : Obligations.WindowEngineRefinesFindMatch :=
  fun byte N hlen => lzssBlocks_eq_lzssParse hlen N (LzssWork.start_tracks byte N)

end Sys2Proof.Machine
end

section
/-! PROOFS. The LZSS round trip (42_lzss.md R214, R219): each block read back appends the bytes the parse passed over, and the end
block ends the loop. -/

namespace Sys2Proof.Machine

/-! ### The decoder's output (R219) -/

/-- The decoder's writer when it has given back the first `c` bytes of the input. -/
def Writer.upTo (byte : Nat → Byte) (c : Nat) : Writer :=
  { Writer.fresh with len := c, out := ((List.range c).map byte).reverse }

@[simp] theorem Writer.upTo_len (byte : Nat → Byte) (c : Nat) : (Writer.upTo byte c).len = c := rfl

@[simp] theorem Writer.upTo_zero (byte : Nat → Byte) : Writer.upTo byte 0 = Writer.fresh := rfl

@[simp] theorem Writer.upTo_out_reverse (byte : Nat → Byte) (c : Nat) : (Writer.upTo byte c).out.reverse = (List.range c).map byte :=
  List.reverse_reverse _

theorem appendByte_upTo {byte : Nat → Byte} {cap c : Nat} (hc : c < cap) :
    appendByte cap (byte c) (Writer.upTo byte c) = .ok (Writer.upTo byte (c + 1)) := by
  rw [appendByte_eq, Writer.upTo_len, if_neg (Nat.ne_of_lt hc)]
  simp [Writer.upTo, List.range_succ]

/-- The newest byte but `k` of the output. -/
theorem Writer.upTo_out_getD (byte : Nat → Byte) {c k : Nat} (hk : k < c) : (Writer.upTo byte c).out.getD k 0 = byte (c - 1 - k) := by
  simp [Writer.upTo, List.getD_eq_getElem?_getD, hk]

/-- The copy of a pointer gives back the bytes that repeat those at the offset, the ones it has just appended among them (R220). -/
theorem copyBack_upTo {byte : Nat → Byte} {cap p count c : Nat} (hp : p < c) (hrep : Repeats byte p c count)
    (hcap : c + count ≤ cap) : copyBack cap (c - p) count (Writer.upTo byte c) = .ok (Writer.upTo byte (c + count)) := by
  induction count generalizing p c with
  | zero => rfl
  | succ count ih =>
    have hfirst : (Writer.upTo byte c).out.getD (c - p - 1) 0 = byte c := by
      rw [Writer.upTo_out_getD byte (by omega), show c - 1 - (c - p - 1) = p by omega]
      exact hrep 0 (Nat.succ_pos count)
    have ih := ih (p := p + 1) (c := c + 1) (Nat.succ_lt_succ hp) hrep.tail (by omega)
    rw [Nat.add_sub_add_right, Nat.add_right_comm, Nat.add_assoc] at ih
    rw [copyBack, hfirst, appendByte_upTo (by omega)]
    exact ih

/-! ### Blocks read back (R109, R219) -/

theorem lzssPayload_literal {byte : Nat → Byte} {cap c : Nat} (hc : c < cap) (fuel : Nat) (bits : List Bool) (nptr : Nat) :
    lzssPayload cap (fuel + 1) ((Block.literal (byte c)).bits ++ bits) (Writer.upTo byte c) nptr =
      lzssPayload cap fuel bits (Writer.upTo byte (c + 1)) nptr := by
  have hbyte : BitVec.ofNat 8 (ofBits (bitsOf (byte c).toNat 8)) = byte c := by
    rw [ofBits_bitsOf, Nat.mod_eq_of_lt (byte c).isLt, BitVec.ofNat_toNat, BitVec.setWidth_eq]
  simp only [Block.bits, List.cons_append, lzssPayload, takeBits_bitsOf, hbyte, appendByte_upTo hc]

theorem lzssPayload_pointer {byte : Nat → Byte} {N cap p l c : Nat} (h : IsMatch byte N c p l) (hcap : N ≤ cap) (fuel : Nat)
    (bits : List Bool) (nptr : Nat) :
    lzssPayload cap (fuel + 1) ((Block.pointer (c - p) l).bits ++ bits) (Writer.upTo byte c) nptr =
      lzssPayload cap fuel bits (Writer.upTo byte (c + l)) (nptr + 1) := by
  obtain ⟨hp, hc, h3, h18, hl, hrep⟩ := h
  have hoff : ofBits (bitsOf (c - p) 12) = c - p := by rw [ofBits_bitsOf, Nat.mod_eq_of_lt (by omega)]
  have hlen : ofBits (bitsOf (l - 3) 4) + 3 = l := by rw [ofBits_bitsOf, Nat.mod_eq_of_lt (by omega)]; omega
  simp only [Block.bits, List.cons_append, List.append_assoc, lzssPayload, lzssOffsetBits_eq, lzssLengthBits_eq, lzssMinMatch_eq,
    takeBits_bitsOf, hoff, hlen, Writer.upTo_len, copyBack_upTo hp hrep (hl.trans hcap)]
  rw [if_neg (by omega), if_neg (by omega)]

theorem lzssPayload_end (cap fuel : Nat) (bits : List Bool) (w : Writer) (nptr : Nat) :
    lzssPayload cap (fuel + 1) (endBlockBits ++ bits) w nptr = .ok (w, nptr, bits) := by
  simp only [endBlockBits, List.cons_append, List.append_assoc, lzssPayload, takeBits_bitsOf, ofBits_bitsOf, Nat.zero_mod, if_true]

/-! ### The parse read back (R214, R219) -/

theorem lzssParse_end (byte : Nat → Byte) (rounds : Nat) {N c : Nat} (hc : N ≤ c) : lzssParse byte N rounds c = [] := by
  cases rounds with
  | zero => rfl
  | succ rounds => exact if_neg (Nat.not_lt.2 hc)

theorem lzssParse_literal {byte : Nat → Byte} {N c : Nat} (rounds : Nat) (hc : c < N) (h : ¬ 3 ≤ (findMatch byte N c).1) :
    lzssParse byte N (rounds + 1) c = .literal (byte c) :: lzssParse byte N rounds (c + 1) := by
  simp only [lzssParse, if_pos hc, lzssMinMatch_eq, if_neg h]

/-- Where FindMatch finds a match the parse has a pointer to it, and goes on past its bytes. -/
theorem lzssParse_pointer {byte : Nat → Byte} {N c : Nat} (rounds : Nat) (h : 3 ≤ (findMatch byte N c).1) :
    ∃ p l, IsMatch byte N c p l ∧
      lzssParse byte N (rounds + 1) c = .pointer (c - p) l :: lzssParse byte N rounds (c + l) := by
  obtain ⟨p, hfound, hoff⟩ := isMatch_findMatch h
  have hc : c < N := by have := hfound.inInput; omega
  exact ⟨p, _, hfound, by simp only [lzssParse, if_pos hc, lzssMinMatch_eq, if_pos h, hoff]⟩

/-- The block loop over a parse from position `c` on gives back the rest of the input, and counts the pointers (R219). -/
theorem lzssPayload_lzssParse {byte : Nat → Byte} {N cap : Nat} (hcap : N ≤ cap) (rest : List Bool) {rounds c fuel : Nat}
    (nptr : Nat) (hc : c ≤ N) (hrounds : N ≤ c + rounds) (hfuel : (lzssParse byte N rounds c).length < fuel) :
    lzssPayload cap fuel ((lzssParse byte N rounds c).flatMap Block.bits ++ (endBlockBits ++ rest)) (Writer.upTo byte c) nptr =
      .ok (Writer.upTo byte N, nptr + ((lzssParse byte N rounds c).filter Block.isPointer).length, rest) := by
  induction rounds generalizing c fuel nptr with
  | zero =>
    obtain ⟨fuel, rfl⟩ := Nat.exists_eq_add_one.2 (Nat.zero_lt_of_lt hfuel)
    obtain rfl := Nat.le_antisymm hc hrounds
    exact lzssPayload_end cap fuel rest _ nptr
  | succ rounds ih =>
    obtain ⟨fuel, rfl⟩ := Nat.exists_eq_add_one.2 (Nat.zero_lt_of_lt hfuel)
    rcases Nat.eq_or_lt_of_le hc with rfl | hlt
    · rw [lzssParse_end byte _ (Nat.le_refl c)]
      exact lzssPayload_end cap fuel rest _ nptr
    by_cases hmatch : 3 ≤ (findMatch byte N c).1
    · obtain ⟨p, l, hfound, hparse⟩ := lzssParse_pointer rounds hmatch
      have hmin := hfound.min_le
      rw [hparse, List.length_cons] at hfuel
      rw [hparse, List.flatMap_cons, List.append_assoc, lzssPayload_pointer hfound hcap,
        ih (nptr + 1) hfound.inInput (by omega) (by omega), List.filter_cons_of_pos rfl, List.length_cons, Nat.add_assoc,
        Nat.add_comm 1]
    · rw [lzssParse_literal rounds hlt hmatch, List.length_cons] at hfuel
      rw [lzssParse_literal rounds hlt hmatch, List.flatMap_cons, List.append_assoc, lzssPayload_literal (hlt.trans_le hcap),
        ih (c := c + 1) nptr hlt (by omega) (by omega)]
      rfl

/-! ### The commands (R214, R219) -/

theorem Block.bits_ne_nil (b : Block) : b.bits ≠ [] := by
  cases b <;> exact List.cons_ne_nil _ _

theorem map_inputAt_range (input : List Byte) : (List.range input.length).map (inputAt input) = input := by
  refine List.ext_getElem (by simp) fun j h1 h2 => ?_
  rw [List.getElem_map, List.getElem_range, inputAt, List.getD_eq_getElem _ _ h2]

/-- LZSS_DECOMPRESS of a byte string that holds the stream of an input's parse, and whatever bits after it (R214, R219). -/
theorem lzssDecompress_lzssStream {p : Config.Params} {input bytes : List Byte} {padding : List Bool} {blocks : List Block}
    (hcap : input.length ≤ p.outCap) (hblocks : blocks = lzssParse (inputAt input) input.length input.length 0)
    (hbits : streamBits bytes = lzssStream p.tagLzss blocks ++ padding) :
    lzssDecompress p bytes = .ok { out := input, r1 := (lzssStream p.tagLzss blocks).length,
                                   r2 := (blocks.filter Block.isPointer).length } := by
  have hopen : openStream p.tagLzss (streamBits bytes) = .ok (blocks.flatMap Block.bits ++ (endBlockBits ++ padding)) := by
    rw [hbits, lzssStream, List.append_assoc, List.append_assoc, openStream_tagBits]
  have hlong : blocks.length ≤ (blocks.flatMap Block.bits).length := length_le_flatMap_length fun b _ => b.bits_ne_nil
  have hpayload := lzssPayload_lzssParse hcap padding (byte := inputAt input) (rounds := input.length) (c := 0)
    (fuel := (blocks.flatMap Block.bits ++ (endBlockBits ++ padding)).length + 1) 0 (Nat.zero_le _) (by omega)
    (by rw [← hblocks, List.length_append]; omega)
  rw [← hblocks, Writer.upTo_zero] at hpayload
  simp only [lzssDecompress, hopen, hpayload]
  rw [Writer.upTo_out_reverse, map_inputAt_range, hbits, List.length_append, Nat.add_sub_cancel, Nat.zero_add]

/-- LZSS_DECOMPRESS undoes LZSS_COMPRESS, and counts the same bits and pointers (R214, R219). -/
theorem lzssDecompress_of_lzssCompress {p : Config.Params} {input : List Byte} {d : CodecDone} (hlen : input.length ≤ 2 ^ 28)
    (hcap : input.length ≤ p.outCap) (h : lzssCompress p input = .ok d) : lzssDecompress p d.out = .ok { d with out := input } := by
  have hpack := packStream_spec p.outCap (lzssStream p.tagLzss (lzssParse (inputAt input) input.length input.length 0))
    ((lzssParse (inputAt input) input.length input.length 0).filter Block.isPointer).length
  rw [lzssCompress, windowEngineRefinesFindMatch _ _ hlen] at h
  split at hpack
  · obtain ⟨d', hd', _, hr1, hr2, hbits⟩ := hpack
    obtain rfl := Except.ok.inj (hd'.symm.trans h)
    rw [lzssDecompress_lzssStream hcap rfl hbits, ← hr1, ← hr2]
  · cases hpack.symm.trans h

/-- Scenario S-RT: where a decompress command's function undoes what a compress command made of its input, the decompress command
run on that output leaves the input in OUT and the compressor's other results (R60, R342, R383). -/
theorem exec_roundTrip {comp dec : Instr} (hcomp : IsCodec comp) (hdec : IsCodec dec) {s t u : State} (hwf : s.params.wf = true)
    (hexec : exec comp s = .next t) (herr : t.err = none) (hparams : u.params = s.params) (hlen : u.opLen ≤ u.params.inCap)
    (hin : u.inBytes u.opLen = t.outBytes) (hback : ∀ d, codecRun s.params comp (s.inBytes s.opLen) = .ok d →
      codecRun s.params dec d.out = .ok { d with out := s.inBytes s.opLen }) :
    ∃ v, exec dec u = .next v ∧ v.outBytes = s.inBytes s.opLen ∧ CompletedWith v s.operands.inLen t.result1 t.result2 := by
  obtain ⟨hle, d, hrun⟩ := codecRun_of_exec hcomp hexec herr
  obtain ⟨t', hexec', hout, _, ⟨_, hr1, hr2, _⟩, _⟩ := exec_codec_done hcomp hwf hle hrun
  obtain rfl := Host.Outcome.next.inj (hexec.symm.trans hexec')
  have hrunBack : codecRun u.params dec (u.inBytes u.opLen) = .ok { d with out := s.inBytes s.opLen } := by
    rw [hin, hout, hparams, hback d hrun]
  obtain ⟨v, hexecv, hvout, hvlen, hdone, _⟩ := exec_codec_done hdec (hparams ▸ hwf) hlen hrunBack
  have hlength : v.outLen = s.operands.inLen := BitVec.eq_of_toNat_eq (hvlen.trans (State.inBytes_length _ _))
  rw [hlength, ← hr1, ← hr2] at hdone
  exact ⟨v, hexecv, hvout, hdone⟩

/-- Settles O48: LZSS_COMPRESS ran, so the input had a legal length, and LZSS_DECOMPRESS undoes it. -/
theorem lzssRoundTrip : Obligations.LzssRoundTrip := by
  intro s t u hwf hexec herr hcap hparams hlen hin
  have hcomp : IsCodec .lzssCompress := by simp [IsCodec]
  obtain ⟨hle, _⟩ := codecRun_of_exec hcomp hexec herr
  refine exec_roundTrip hcomp (by simp [IsCodec]) hwf hexec herr hparams hlen hin fun d hrun => ?_
  exact lzssDecompress_of_lzssCompress (by rw [State.inBytes_length]; exact hle.trans (inCap_le_of_wf hwf))
    (by rwa [State.inBytes_length]) hrun

end Sys2Proof.Machine
end

section
/-! PROOFS. The sequences of the LZW dictionary (43_lzw.md R240, R243): in a dictionary whose entries come after their parents, the
sequence of an entry is its parent's and its last byte, and a later entry changes none. -/

namespace Sys2Proof.Machine

/-! ### Entries after their parents (R240) -/

/-- R240: every entry extends a byte or an earlier entry. -/
def Trie.ParentsFirst (t : Trie) : Prop := ∀ i e, t[i]? = some e → e.parent < 257 + i ∧ e.parent ≠ 256

theorem TrieOk.parentsFirst {s : State} (h : TrieOk s) : Trie.ParentsFirst s.lzw := by
  obtain ⟨_, hparents, _⟩ := h
  exact hparents

theorem Trie.parentsFirst_nil : Trie.ParentsFirst [] := fun _ _ h => by simp at h

/-- A live index is a byte or the index of an entry (R253). -/
theorem Trie.live_cases {t : Trie} {i : Nat} (h : Trie.live t i = true) :
    i < 256 ∨ ∃ j e, i = 257 + j ∧ t[j]? = some e := by
  obtain ⟨hne, hlt⟩ := (Trie.live_iff t i).1 h
  rcases Nat.lt_or_ge i 256 with hbyte | hge
  · exact .inl hbyte
  · exact .inr ⟨i - 257, _, by omega, List.getElem?_eq_getElem (by omega)⟩

/-- Every byte is a live index. -/
theorem Trie.live_byte (t : Trie) (b : Byte) : Trie.live t b.toNat = true := by
  have hb := b.isLt
  exact (Trie.live_iff t _).2 (by omega)

/-- A child is a live index. -/
theorem Trie.live_child {t : Trie} {p i : Nat} {b : Byte} (h : Trie.child t p b = some i) : Trie.live t i = true := by
  obtain ⟨hge, hlt, _⟩ := Trie.child_eq_some h
  exact (Trie.live_iff t i).2 (by omega)

/-- The parent of an entry is a live index. -/
theorem Trie.ParentsFirst.live_parent {t : Trie} (h : t.ParentsFirst) {j : Nat} {e : TrieEntry} (he : t[j]? = some e) :
    Trie.live t e.parent = true := by
  obtain ⟨hlt, hne⟩ := h j e he
  obtain ⟨hj, _⟩ := List.getElem?_eq_some_iff.1 he
  exact (Trie.live_iff t _).2 ⟨hne, by omega⟩

/-- An entry under a live index keeps parents first. -/
theorem Trie.ParentsFirst.append {t : Trie} (h : t.ParentsFirst) {e : TrieEntry} (he : Trie.live t e.parent = true) :
    Trie.ParentsFirst (t ++ [e]) := by
  intro i e' hi
  obtain ⟨hne, hlt⟩ := (Trie.live_iff t _).1 he
  rcases Nat.lt_or_ge i t.length with hi' | hi'
  · exact h i e' (by rwa [List.getElem?_append_left hi'] at hi)
  · rw [List.getElem?_append_right hi', List.getElem?_singleton] at hi
    split at hi
    · obtain rfl := Option.some.inj hi
      omega
    · cases hi

/-- So does Insert, whether or not it flushes (R242). -/
theorem Trie.ParentsFirst.insert {t : Trie} (h : t.ParentsFirst) {p : Nat} (hp : Trie.live t p = true) (b : Byte) :
    Trie.ParentsFirst (Trie.insert t p b).1 := by
  rw [Trie.insert_eq]
  split
  · exact Trie.parentsFirst_nil
  · exact h.append hp

/-! ### Sequences (R240, R243) -/

theorem Trie.seq_byte (t : Trie) {i : Nat} (hi : i < 256) : Trie.seq t i = [BitVec.ofNat 8 i] := by
  rw [Trie.seq, Trie.seqRev, if_pos hi, List.reverse_singleton]

@[simp] theorem Trie.seq_toNat (t : Trie) (b : Byte) : Trie.seq t b.toNat = [b] := by
  rw [Trie.seq_byte t b.isLt, BitVec.ofNat_toNat, BitVec.setWidth_eq]

/-- The sequence of an entry is its parent's and its last byte. -/
theorem Trie.ParentsFirst.seq_entry {t : Trie} (h : t.ParentsFirst) {j : Nat} {e : TrieEntry} (he : t[j]? = some e) :
    Trie.seq t (257 + j) = Trie.seq t e.parent ++ [e.last] := by
  obtain ⟨hj, _⟩ := List.getElem?_eq_some_iff.1 he
  obtain ⟨hparent, _⟩ := h j e he
  have hentry : Trie.entry t (257 + j) = some e := by
    rw [Trie.entry, if_neg (by simp), lzwFirstFree_eq, Nat.add_sub_cancel_left, he]
  rw [Trie.seq, Trie.seqRev, if_neg (by omega), hentry]
  dsimp only
  rw [List.reverse_cons, Trie.seqRev_fuel h _ _ (by omega) (by omega), Trie.seq]

/-- The sequence of a child is the index's and the byte. -/
theorem Trie.ParentsFirst.seq_child {t : Trie} (h : t.ParentsFirst) {p i : Nat} {b : Byte} (hi : Trie.child t p b = some i) :
    Trie.seq t i = Trie.seq t p ++ [b] := by
  obtain ⟨hge, _, he⟩ := Trie.child_eq_some hi
  have hseq := h.seq_entry he
  rwa [show 257 + (i - 257) = i by omega] at hseq

theorem Trie.ParentsFirst.seq_ne_nil {t : Trie} (h : t.ParentsFirst) {i : Nat} (hi : Trie.live t i = true) :
    Trie.seq t i ≠ [] := by
  rcases Trie.live_cases hi with hbyte | ⟨j, e, rfl, he⟩
  · simp [Trie.seq_byte t hbyte]
  · simp [h.seq_entry he]

/-- A child's sequence begins as the index's does. -/
theorem Trie.ParentsFirst.headD_seq_child {t : Trie} (h : t.ParentsFirst) {p i : Nat} {b : Byte} (hp : Trie.live t p = true)
    (hi : Trie.child t p b = some i) : (Trie.seq t i).headD 0 = (Trie.seq t p).headD 0 := by
  obtain ⟨b', rest, hcons⟩ := List.exists_cons_of_ne_nil (h.seq_ne_nil hp)
  rw [h.seq_child hi, hcons]
  rfl

/-- A new entry leaves the sequence of every index that was live. -/
theorem Trie.ParentsFirst.seq_append {t : Trie} {e : TrieEntry} (h : t.ParentsFirst) (he : Trie.live t e.parent = true) {i : Nat}
    (hi : Trie.live t i = true) : Trie.seq (t ++ [e]) i = Trie.seq t i := by
  induction i using Nat.strong_induction_on with
  | h i ih =>
    rcases Trie.live_cases hi with hbyte | ⟨j, e', rfl, he'⟩
    · rw [Trie.seq_byte _ hbyte, Trie.seq_byte _ hbyte]
    · obtain ⟨hlt, _⟩ := h j e' he'
      rw [(h.append he).seq_entry (getElem?_append_of_eq_some he'), h.seq_entry he', ih _ hlt (h.live_parent he')]

/-- The sequence of a new entry, the last of the dictionary. -/
theorem Trie.ParentsFirst.seq_append_new {t : Trie} {e : TrieEntry} (h : t.ParentsFirst) (he : Trie.live t e.parent = true) :
    Trie.seq (t ++ [e]) (257 + t.length) = Trie.seq t e.parent ++ [e.last] := by
  rw [(h.append he).seq_entry List.getElem?_concat_length, h.seq_append he he]

/-- A sequence has at most one byte more than there are entries up to its own. -/
theorem Trie.ParentsFirst.length_seq_le {t : Trie} (h : t.ParentsFirst) {i : Nat} (hi : Trie.live t i = true) :
    (Trie.seq t i).length ≤ 1 + (i - 256) := by
  induction i using Nat.strong_induction_on with
  | h i ih =>
    rcases Trie.live_cases hi with hbyte | ⟨j, e, rfl, he⟩
    · simp [Trie.seq_byte t hbyte]
    · obtain ⟨hlt, _⟩ := h j e he
      have hlen := ih _ hlt (h.live_parent he)
      rw [h.seq_entry he, List.length_append, List.length_singleton]
      omega

end Sys2Proof.Machine
end

section
/-! PROOFS. The LZW round trip (43_lzw.md R244 to R251): the decoder's dictionary lags one entry behind the encoder's, and reading a code
brings it to the dictionary the encoder had when it wrote that code. -/

namespace Sys2Proof.Machine

/-! ### The decoder's lag (R248, R249) -/

/-- The decoder's dictionary and previous code, when the encoder's dictionary is the last one and the run it is in begins with the byte
`b`: both empty at the start; later the encoder has made one insertion more, under the previous code, of the byte that ended that
code's run and began this one. -/
inductive Trie.Lags (b : Byte) : Trie → Option Nat → Trie → Prop where
  | start : Lags b [] none []
  | behind {t : Trie} {prev : Nat} (ht : t.ParentsFirst) (hprev : Trie.live t prev = true) :
      Lags b t (some prev) (Trie.insert t prev b).1

theorem Trie.live_nil {c : Nat} (h : Trie.live [] c = true) : c < 256 := by
  rcases Trie.live_cases h with hbyte | ⟨_, _, _, he⟩
  · exact hbyte
  · simp at he

/-- A code the dictionary knows stands for its sequence, whose first byte the decoder inserts under the previous code (R248). -/
theorem lzwDecodeCode_known {t : Trie} {prev c : Nat} (hc : c < t.next) (hlast : t.next = 65535 → c < 256) :
    lzwDecodeCode t (some prev) c = some (Trie.seq t c, Trie.insert t prev ((Trie.seq t c).headD 0)) := by
  have hno : ¬ (t.next = 65535 ∧ 255 < c) := fun ⟨hnext, hgt⟩ => Nat.not_lt.2 hgt (hlast hnext)
  rw [lzwDecodeCode, if_neg (Nat.not_lt.2 (Nat.le_of_lt hc)), if_neg hno, if_pos hc]

/-- The next code to be assigned stands for the previous code's sequence and its first byte again (R249). -/
theorem lzwDecodeCode_next {t : Trie} {prev : Nat} {b : Byte} {rest : List Byte} (hnext : t.next ≠ 65535)
    (hprev : Trie.seq t prev = b :: rest) :
    lzwDecodeCode t (some prev) t.next = some (b :: rest ++ [b], Trie.insert t prev b) := by
  have hno : ¬ (t.next = 65535 ∧ 255 < t.next) := fun h => hnext h.1
  rw [lzwDecodeCode, if_neg (Nat.lt_irrefl _), if_neg hno, if_neg (Nat.lt_irrefl _), hprev]
  rfl

/-- Reading the code of the encoder's run gives the run's bytes and brings the decoder to the encoder's dictionary, the code of the
entry the decoder lacks and a flush included (R248, R249). -/
theorem Trie.Lags.lzwDecodeCode_eq {b : Byte} {t t' : Trie} {prev : Option Nat} (h : Trie.Lags b t prev t') {c : Nat}
    (hc : Trie.live t' c = true) (hhead : (Trie.seq t' c).headD 0 = b) :
    ∃ flushed, lzwDecodeCode t prev c = some (Trie.seq t' c, t', flushed) := by
  cases h with
  | start =>
    have hbyte := Trie.live_nil hc
    rw [Trie.seq_byte _ hbyte, lzwDecodeCode, if_neg (by omega)]
    exact ⟨false, rfl⟩
  | @behind t prev ht hprev =>
    refine ⟨(Trie.insert t prev b).2, ?_⟩
    by_cases hflush : t.length = 65278
    · have hnil : (Trie.insert t prev b).1 = [] := by rw [Trie.insert_eq, if_pos hflush]
      rw [hnil] at hc hhead
      have hbyte := Trie.live_nil hc
      have hseq : Trie.seq t c = Trie.seq [] c := by rw [Trie.seq_byte t hbyte, Trie.seq_byte [] hbyte]
      rw [lzwDecodeCode_known (by rw [Trie.next_eq]; omega) fun _ => hbyte, hseq, hhead, hnil, ← hnil]
    · have hnew : (Trie.insert t prev b).1 = t ++ [{ parent := prev, last := b }] := by rw [Trie.insert_eq, if_neg hflush]
      rw [hnew] at hc hhead
      obtain ⟨hne, hlt⟩ := (Trie.live_iff _ c).1 hc
      rw [List.length_append, List.length_singleton] at hlt
      rcases Nat.lt_succ_iff_lt_or_eq.1 hlt with hlt | hc
      · have hseq := ht.seq_append (e := { parent := prev, last := b }) hprev ((Trie.live_iff t c).2 ⟨hne, hlt⟩)
        rw [hseq] at hhead
        rw [lzwDecodeCode_known hlt fun hnext => by rw [Trie.next_eq] at hnext; omega, hhead, hnew, hseq, ← hnew]
      · obtain rfl : c = t.next := hc
        obtain ⟨b', rest, hcons⟩ := List.exists_cons_of_ne_nil (ht.seq_ne_nil hprev)
        have hseq := ht.seq_append_new (e := { parent := prev, last := b }) hprev
        rw [← Trie.next_eq, hcons] at hseq
        rw [hseq] at hhead
        obtain rfl : b' = b := hhead
        rw [lzwDecodeCode_next (by rw [Trie.next_eq]; omega) hcons, hnew, hseq, ← hnew]

/-- The encoder's dictionary has its parents first. -/
theorem Trie.Lags.parentsFirst {b : Byte} {t t' : Trie} {prev : Option Nat} (h : Trie.Lags b t prev t') : t'.ParentsFirst := by
  cases h with
  | start => exact Trie.parentsFirst_nil
  | behind ht hprev => exact ht.insert hprev b

/-! ### The encoder's codes (R244, R245) -/

/-- The encoder's count after one more code (R242, R250). -/
def lzwNextCount (n : Nat) : Nat := if n + 1 = Config.lzwDictCap then Config.lzwFirstFree else n + 1

theorem Trie.next_insert (t : Trie) (p : Nat) (b : Byte) : Trie.next (Trie.insert t p b).1 = lzwNextCount (Trie.next t) := by
  unfold Trie.insert lzwNextCount
  split
  · rfl
  · simp only [Trie.next_eq, List.length_append, List.length_singleton, Nat.add_assoc]

/-- A count leaves room for the EOF index. -/
theorem le_lzwNextCount {n : Nat} (h : 256 ≤ n) : 256 ≤ lzwNextCount n := by
  unfold lzwNextCount
  split
  · simp
  · omega

/-- At the end of the input the encoder writes the run's code, and the EOF index at the width of the next count (R245). -/
theorem lzwEncode_nil (t : Trie) (c nflush : Nat) : (lzwEncode [] (some c) t nflush).1 =
    bitsOf c (codeWidth t.next) ++ bitsOf 256 (codeWidth (lzwNextCount t.next)) := by
  simp only [lzwEncode, lzwEncodeEnd, lzwNextCount, decide_eq_true_eq]

/-- A byte that leads to a known entry continues the run (R244). -/
theorem lzwEncode_child {t : Trie} {c i : Nat} {b : Byte} (h : Trie.child t c b = some i) (rest : List Byte) (nflush : Nat) :
    lzwEncode (b :: rest) (some c) t nflush = lzwEncode rest (some i) t nflush := by
  simp only [lzwEncode, h]

/-- A byte that does not ends the run: the encoder writes its code, inserts the new entry and starts a run with the byte (R244). -/
theorem lzwEncode_new {t : Trie} {c : Nat} {b : Byte} (h : Trie.child t c b = none) (rest : List Byte) (nflush : Nat) :
    (lzwEncode (b :: rest) (some c) t nflush).1 = bitsOf c (codeWidth t.next) ++
      (lzwEncode rest (some b.toNat) (Trie.insert t c b).1 (addFlush nflush (Trie.insert t c b).2)).1 := by
  simp only [lzwEncode, h]

/-! ### Codes read back (R248, R250) -/

/-- No code is shorter than 9 bits (R241). -/
theorem le_codeWidth (n : Nat) : 9 ≤ codeWidth n := (codeWidth_spec n).1

/-- A code is read back at the width of any count from it on. -/
theorem ofBits_bitsOf_codeWidth {c n : Nat} (h : c ≤ n) : ofBits (bitsOf c (codeWidth n)) = c := by
  obtain ⟨_, hfits, _⟩ := codeWidth_spec n
  rw [ofBits_bitsOf, Nat.mod_eq_of_lt (Nat.lt_of_le_of_lt h hfits)]

/-- The decoder's writer after some more bytes. -/
def Writer.add (w : Writer) (bytes : List Byte) : Writer :=
  { w with len := w.len + bytes.length, out := bytes.reverse ++ w.out }

theorem Writer.add_add (w : Writer) (l l' : List Byte) : (w.add l).add l' = w.add (l ++ l') := by
  simp [Writer.add, Nat.add_assoc]

theorem appendAll_of_fits {cap : Nat} {bytes : List Byte} {w : Writer} (h : w.len + bytes.length ≤ cap) :
    appendAll cap bytes w = .ok (w.add bytes) := by
  have hspec := appendAll_spec cap bytes w (by omega)
  rwa [if_pos h] at hspec

/-- The code loop at the EOF code (R248). -/
theorem lzwPayload_eof (cap fuel : Nat) (rest : List Bool) (w : Writer) (t : Trie) {encNext : Nat} (prev : Option Nat)
    (nflush : Nat) (h : 256 ≤ encNext) :
    lzwPayload cap (fuel + 1) (bitsOf 256 (codeWidth encNext) ++ rest) w t encNext prev nflush = .ok (w, nflush, rest) := by
  simp only [lzwPayload, takeBits_bitsOf, ofBits_bitsOf_codeWidth h, lzwEof_eq, if_true]

/-- The code loop at the code of a run of the encoder (R248). -/
theorem Trie.Lags.lzwPayload_code {b : Byte} {t t' : Trie} {prev : Option Nat} (h : Trie.Lags b t prev t') {c : Nat}
    (hc : Trie.live t' c = true) (hhead : (Trie.seq t' c).headD 0 = b) {cap : Nat} {w : Writer}
    (hcap : w.len + (Trie.seq t' c).length ≤ cap) (fuel : Nat) (rest : List Bool) (nflush : Nat) :
    ∃ nflush', lzwPayload cap (fuel + 1) (bitsOf c (codeWidth t'.next) ++ rest) w t t'.next prev nflush =
      lzwPayload cap fuel rest (w.add (Trie.seq t' c)) t' (lzwNextCount t'.next) (some c) nflush' := by
  obtain ⟨flushed, hdecode⟩ := h.lzwDecodeCode_eq hc hhead
  obtain ⟨hne, hlt⟩ := (Trie.live_iff t' c).1 hc
  have hread : ofBits (bitsOf c (codeWidth t'.next)) = c := ofBits_bitsOf_codeWidth (Nat.le_of_lt hlt)
  exact ⟨addFlush nflush flushed, by
    simp only [lzwPayload, takeBits_bitsOf, hread, lzwEof_eq, if_neg hne, hdecode, appendAll_of_fits hcap, lzwNextCount]⟩

/-- The code loop over what the encoder writes from inside a run gives back the run's bytes and the rest of the input, and reads no
further (R248, R250). -/
theorem Trie.Lags.lzwPayload_lzwEncode {cap : Nat} (padding : List Bool) {input : List Byte} {b : Byte} {t t' : Trie}
    {prev : Option Nat} (h : Trie.Lags b t prev t') {c : Nat} (hc : Trie.live t' c = true)
    (hhead : (Trie.seq t' c).headD 0 = b) (encFlush : Nat) {fuel : Nat} {w : Writer}
    (hfuel : ((lzwEncode input (some c) t' encFlush).1 ++ padding).length < fuel)
    (hcap : w.len + (Trie.seq t' c ++ input).length ≤ cap) (nflush : Nat) :
    ∃ nflush', lzwPayload cap fuel ((lzwEncode input (some c) t' encFlush).1 ++ padding) w t t'.next prev nflush =
      .ok (w.add (Trie.seq t' c ++ input), nflush', padding) := by
  rw [List.length_append] at hcap
  induction input generalizing b t t' prev c encFlush fuel w nflush with
  | nil =>
    have hwidth := le_codeWidth t'.next
    have hcount : 256 ≤ lzwNextCount t'.next := le_lzwNextCount (by rw [Trie.next_eq]; omega)
    rw [lzwEncode_nil, List.append_assoc] at hfuel ⊢
    rw [List.length_append, List.length_append, bitsOf_length, bitsOf_length] at hfuel
    obtain ⟨fuel, rfl⟩ : ∃ k, fuel = k + 2 := ⟨fuel - 2, by omega⟩
    obtain ⟨nflush', hcode⟩ := h.lzwPayload_code hc hhead (w := w) (cap := cap) (by omega) (fuel + 1)
      (bitsOf 256 (codeWidth (lzwNextCount t'.next)) ++ padding) nflush
    rw [hcode, lzwPayload_eof _ _ _ _ _ _ _ hcount, List.append_nil]
    exact ⟨_, rfl⟩
  | cons b' input ih =>
    have hpf := h.parentsFirst
    rw [List.length_cons] at hcap
    cases hchild : Trie.child t' c b' with
    | some i =>
      have hseq := hpf.seq_child hchild
      rw [lzwEncode_child hchild] at hfuel ⊢
      obtain ⟨nflush', hrun⟩ := ih (w := w) h (Trie.live_child hchild) ((hpf.headD_seq_child hc hchild).trans hhead)
        encFlush hfuel (by rw [hseq, List.length_append, List.length_singleton]; omega) nflush
      rw [hseq, List.append_assoc] at hrun
      exact ⟨nflush', hrun⟩
    | none =>
      have hwidth := le_codeWidth t'.next
      rw [lzwEncode_new hchild, List.append_assoc] at hfuel ⊢
      rw [List.length_append, bitsOf_length] at hfuel
      obtain ⟨fuel, rfl⟩ : ∃ k, fuel = k + 1 := ⟨fuel - 1, by omega⟩
      obtain ⟨nflush₁, hcode⟩ := h.lzwPayload_code hc hhead (w := w) (cap := cap) (by omega) fuel
        ((lzwEncode input (some b'.toNat) (Trie.insert t' c b').1 (addFlush encFlush (Trie.insert t' c b').2)).1 ++ padding)
        nflush
      obtain ⟨nflush', hrun⟩ := ih (w := w.add (Trie.seq t' c)) (Trie.Lags.behind (b := b') hpf hc) (Trie.live_byte _ b')
        (by rw [Trie.seq_toNat]; rfl) (addFlush encFlush (Trie.insert t' c b').2) (fuel := fuel) (by omega)
        (by simp only [Trie.seq_toNat, Writer.add, List.length_singleton]; omega) nflush₁
      rw [Trie.next_insert, Writer.add_add, Trie.seq_toNat] at hrun
      exact ⟨nflush', hcode.trans hrun⟩

/-- The code loop over the whole of what the encoder writes (R246, R248). -/
theorem lzwPayload_lzwEncode {cap : Nat} {input : List Byte} (hcap : input.length ≤ cap) (padding : List Bool) :
    ∃ nflush, lzwPayload cap (((lzwEncode input none [] 0).1 ++ padding).length + 1) ((lzwEncode input none [] 0).1 ++ padding)
      Writer.fresh [] 257 none 0 = .ok (Writer.fresh.add input, nflush, padding) := by
  cases input with
  | nil => exact ⟨0, lzwPayload_eof cap _ padding Writer.fresh [] (encNext := 257) none 0 (by omega)⟩
  | cons b input =>
    have hrun := (Trie.Lags.start (b := b)).lzwPayload_lzwEncode padding (cap := cap) (input := input) (Trie.live_byte [] b)
      (by simp) 0 (w := Writer.fresh) (Nat.lt_succ_self _) (by simpa [Writer.fresh, Nat.add_comm] using hcap) 0
    rwa [Trie.seq_toNat] at hrun

/-! ### The commands (R246, R248) -/

/-- LZW_DECOMPRESS of a byte string that holds LZW_COMPRESS's stream of an input, and whatever bits after it (R246, R248). -/
theorem lzwDecompress_lzwStream {p : Config.Params} {input bytes : List Byte} {padding : List Bool}
    (hcap : input.length ≤ p.outCap)
    (hbits : streamBits bytes = tagBits p.tagLzw ++ (lzwEncode input none [] 0).1 ++ padding) :
    ∃ nflush, lzwDecompress p bytes =
      .ok { out := input, r1 := (tagBits p.tagLzw ++ (lzwEncode input none [] 0).1).length, r2 := nflush } := by
  have hopen : openStream p.tagLzw (streamBits bytes) = .ok ((lzwEncode input none [] 0).1 ++ padding) := by
    rw [hbits, List.append_assoc, openStream_tagBits]
  obtain ⟨nflush, hrun⟩ := lzwPayload_lzwEncode hcap padding
  have hout : (Writer.fresh.add input).out.reverse = input := by simp [Writer.add, Writer.fresh]
  refine ⟨nflush, ?_⟩
  simp only [lzwDecompress, hopen, lzwFirstFree_eq, hrun, hout]
  rw [hbits, List.length_append (bs := padding), Nat.add_sub_cancel]

/-- LZW_DECOMPRESS undoes LZW_COMPRESS, and counts the same bits; it may count a flush less, as the last code's entry is the encoder's
alone (R245, R246, R248). -/
theorem lzwDecompress_of_lzwCompress {p : Config.Params} {input : List Byte} {d : CodecDone} (hcap : input.length ≤ p.outCap)
    (h : lzwCompress p input = .ok d) : ∃ nflush, lzwDecompress p d.out = .ok { out := input, r1 := d.r1, r2 := nflush } := by
  have hpack := packStream_spec p.outCap (tagBits p.tagLzw ++ (lzwEncode input none [] 0).1) (lzwEncode input none [] 0).2
  split at hpack
  · obtain ⟨d', hd', _, hr1, _, hbits⟩ := hpack
    obtain rfl := Except.ok.inj (hd'.symm.trans h)
    rw [hr1]
    exact lzwDecompress_lzwStream hcap hbits
  · cases hpack.symm.trans h

/-- Settles O49: LZW_COMPRESS ran, so the input had a legal length, and LZW_DECOMPRESS undoes it. -/
theorem lzwRoundTrip : Obligations.LzwRoundTrip := by
  intro s t u hwf hexec herr hcap hparams hlen hin
  have hcomp : IsCodec .lzwCompress := by simp [IsCodec]
  have hdec : IsCodec .lzwDecompress := by simp [IsCodec]
  obtain ⟨hle, d, hrun⟩ := codecRun_of_exec hcomp hexec herr
  obtain ⟨t', hexec', hout, _, ⟨_, hr1, _⟩, _⟩ := exec_codec_done hcomp hwf hle hrun
  obtain rfl := Host.Outcome.next.inj (hexec.symm.trans hexec')
  obtain ⟨nflush, hback⟩ := lzwDecompress_of_lzwCompress (by rwa [State.inBytes_length]) hrun
  rw [← hparams, ← hout, ← hin] at hback
  obtain ⟨v, hexecv, hvout, hvlen, ⟨hv0, hv1, _, hverr, _⟩, _⟩ := exec_codec_done hdec (hparams ▸ hwf) hlen hback
  have hlength : v.outLen = s.operands.inLen := BitVec.eq_of_toNat_eq (hvlen.trans (State.inBytes_length _ _))
  exact ⟨v, hexecv, hvout, hverr, hv0.trans hlength, hv1.trans hr1.symm⟩

end Sys2Proof.Machine
end

section
/-! PROOFS. The LZW commands on the dictionary (43_lzw.md R252 to R257): the width, what LZW_INSERT leaves, what LZW_LOOKUP and LZW_ENTRY
report; and the errors of these and of the collection commands (44_collections.md). -/

namespace Sys2Proof.Machine

/-! ### The width (R241, R255) -/

theorem exec_lzwWidth {s : State} (h : s.opArg0.toNat ≤ 65535) :
    exec .lzwWidth s = .next (s.complete { r0 := BitVec.ofNat 32 (codeWidth s.opArg0.toNat) }) := by
  rw [exec, execLzwWidth, if_neg (Nat.not_lt.2 h), settle_ok]

/-- Settles O50: `codeWidth` is the least such width, and the command reports it. -/
theorem widthIsLeastThatFits : Obligations.WidthIsLeastThatFits := by
  refine fun s => ⟨fun hle => ?_, fun hgt => failedWith_of_settle_error rfl (if_pos hgt)⟩
  obtain ⟨hmin, hfits, hleast⟩ := codeWidth_spec s.opArg0.toNat
  obtain ⟨t, hexec, hunits, hout, hdone⟩ := statusCommand_completes (exec_lzwWidth hle)
  exact ⟨t, _, hexec, hdone, hmin, codeWidth_le (Nat.lt_succ_of_le hle), hfits, hleast,
    commandsLeaveHostSide _ _ _ hexec, hunits, hout⟩

/-! ### LZW_INSERT (R242, R254) -/

/-- LZW_INSERT of an entry that is not there, below a live index. -/
theorem exec_lzwInsert {s : State} (hlive : Trie.live s.lzw s.opArg0.toNat = true)
    (hnew : Trie.child s.lzw s.opArg0.toNat (s.opArg1.setWidth 8) = none) {t : Trie} {flushed : Bool}
    (hins : Trie.insert s.lzw s.opArg0.toNat (s.opArg1.setWidth 8) = (t, flushed)) :
    exec .lzwInsert s = .next ({ s with lzw := t }.complete
      { r0 := BitVec.ofNat 32 (257 + s.lzw.length), r1 := BitVec.ofNat 32 (Trie.width t), r2 := if flushed then 1 else 0 }) := by
  simp only [exec, execLzwInsert, byteOperand_eq, hlive, if_true, hnew, hins, settle_ok]
  rfl

/-- A new entry is found at its index, and every other lookup is as before. -/
theorem Trie.child_append_new {t : Trie} {p : Nat} {b : Byte} (hnew : Trie.child t p b = none) (p' : Nat) (b' : Byte) :
    Trie.child (t ++ [{ parent := p, last := b }]) p' b' =
      if p' = p ∧ b' = b then some (257 + t.length) else Trie.child t p' b' := by
  rw [Trie.child_append]
  by_cases hsame : p' = p ∧ b' = b
  · obtain ⟨rfl, rfl⟩ := hsame
    simp [hnew]
  · have hother : ¬ (p = p' ∧ b = b') := fun ⟨hp, hb⟩ => hsame ⟨hp.symm, hb.symm⟩
    simp only [if_neg hsame, if_neg hother]
    cases Trie.child t p' b' <;> rfl

/-- Settles O51: the command leaves what Insert makes of the dictionary, by its two cases. -/
theorem insertAssignsNextIndex : Obligations.InsertAssignsNextIndex := by
  intro s _ hne hlt hnew
  have hlive := (Trie.live_iff s.lzw _).2 ⟨hne, hlt⟩
  refine ⟨fun hroom => ?_, fun hfull => ?_⟩
  · have hins := Trie.insert_eq s.lzw s.opArg0.toNat (s.opArg1.setWidth 8)
    rw [if_neg (Nat.ne_of_lt hroom)] at hins
    have hexec := exec_lzwInsert hlive hnew hins
    have hnext : Trie.next (s.lzw ++ [{ parent := s.opArg0.toNat, last := s.opArg1.setWidth 8 }]) = 258 + s.lzw.length := by
      rw [Trie.next_eq, List.length_append, List.length_singleton]
      omega
    rw [Trie.width, hnext] at hexec
    refine ⟨_, hexec, ⟨rfl, rfl, rfl, rfl, rfl, rfl⟩, hnext, ?_, fun p b hother => ?_, commandsLeaveHostSide _ _ _ hexec,
      rfl, fun _ => rfl⟩
    · rw [State.complete_lzw, Trie.child_append_new hnew, if_pos ⟨rfl, rfl⟩]
    · rw [State.complete_lzw, Trie.child_append_new hnew, if_neg hother]
  · have hins := Trie.insert_eq s.lzw s.opArg0.toNat (s.opArg1.setWidth 8)
    rw [if_pos hfull] at hins
    have hexec := exec_lzwInsert hlive hnew hins
    rw [hfull] at hexec
    exact ⟨_, hexec, ⟨rfl, rfl, rfl, rfl, rfl, rfl⟩, rfl, commandsLeaveHostSide _ _ _ hexec, rfl, fun _ => rfl⟩

/-! ### LZW_LOOKUP and LZW_ENTRY (R253, R257) -/

/-- What LZW_LOOKUP reports of a live parent (R253). -/
def lookupResults : Option Nat → Results
  | some i => { r0 := 1, r1 := BitVec.ofNat 32 i }
  | none => {}

theorem exec_lzwLookup_none {s : State} (h : s.opArg0 = 0xFFFFFFFF) :
    exec .lzwLookup s = .next (s.complete { r0 := 1, r1 := (s.opArg1.setWidth 8).setWidth 32 }) := by
  rw [exec, execLzwLookup, byteOperand_eq, if_pos h, settle_ok]

theorem exec_lzwLookup_live {s : State} (hparent : s.opArg0 ≠ 0xFFFFFFFF) (hlive : Trie.live s.lzw s.opArg0.toNat = true) :
    exec .lzwLookup s = .next (s.complete (lookupResults (Trie.child s.lzw s.opArg0.toNat (s.opArg1.setWidth 8)))) := by
  rw [exec, execLzwLookup, byteOperand_eq, if_neg hparent, if_pos hlive]
  cases Trie.child s.lzw s.opArg0.toNat (s.opArg1.setWidth 8) <;> rfl

theorem exec_lzwEntry_byte {s : State} (h : s.opArg0.toNat ≤ 255) :
    exec .lzwEntry s = .next (s.complete { r0 := 0xFFFFFFFF, r1 := s.opArg0, r2 := 1 }) := by
  rw [exec, execLzwEntry, if_pos h, settle_ok]

/-- The entry of an index above 256 is the dictionary's at its place. -/
theorem Trie.entry_of_ge (t : Trie) {i : Nat} (h : 257 ≤ i) : Trie.entry t i = t[i - 257]? :=
  if_neg (Nat.not_lt.2 h)

theorem exec_lzwEntry_entry {s : State} {e : TrieEntry} (h : 257 ≤ s.opArg0.toNat) (he : s.lzw[s.opArg0.toNat - 257]? = some e) :
    exec .lzwEntry s = .next (s.complete { r0 := BitVec.ofNat 32 e.parent, r1 := e.last.setWidth 32,
                                           r2 := BitVec.ofNat 32 (Trie.seq s.lzw s.opArg0.toNat).length }) := by
  rw [exec, execLzwEntry, if_neg (by omega), Trie.entry_of_ge _ h, he]
  rfl

/-- Settles O52: both commands report the dictionary they found, in which parents come before their entries. -/
theorem lookupAndEntryDescribeTheTrie : Obligations.LookupAndEntryDescribeTheTrie := by
  intro s hs
  refine ⟨fun hnone => ?_, fun hparent hne hlt => ?_, fun hbyte => ?_, fun e hge he => ?_⟩
  · obtain ⟨t, hexec, hunits, hout, hdone⟩ := statusCommand_completes (exec_lzwLookup_none hnone)
    exact ⟨t, hexec, hdone, hunits, hout⟩
  · obtain ⟨t, hexec, hunits, hout, hdone⟩ :=
      statusCommand_completes (exec_lzwLookup_live hparent ((Trie.live_iff s.lzw _).2 ⟨hne, hlt⟩))
    refine ⟨t, hexec, hunits, hout, fun i hi => ?_, fun hno => ⟨?_, Trie.child_eq_none.1 hno⟩⟩
    · obtain ⟨_, _, hentry⟩ := Trie.child_eq_some hi
      rw [hi] at hdone
      exact ⟨hdone, hentry⟩
    · rwa [hno] at hdone
  · obtain ⟨t, hexec, hunits, hout, hdone⟩ := statusCommand_completes (exec_lzwEntry_byte hbyte)
    exact ⟨t, hexec, hdone, hunits, hout⟩
  · obtain ⟨t, hexec, hunits, hout, hdone⟩ := statusCommand_completes (exec_lzwEntry_entry hge he)
    have hindex : s.opArg0.toNat = 257 + (s.opArg0.toNat - 257) := by omega
    obtain ⟨hlen, _⟩ := List.getElem?_eq_some_iff.1 he
    have hlive := (Trie.live_iff s.lzw s.opArg0.toNat).2 (by omega)
    have hseq := hs.parentsFirst.seq_entry he
    rw [← hindex] at hseq
    exact ⟨t, hexec, hunits, hout, hdone, hseq, hs.parentsFirst.length_seq_le hlive⟩

/-! ### Errors (R253, R254, R257, R285, R286, R293, R294, R303) -/

/-- An index that is not live: 256, or one that is not assigned (R253). -/
theorem Trie.live_eq_false {t : Trie} {i : Nat} (h : i = 256 ∨ 257 + t.length ≤ i) : Trie.live t i = false := by
  rw [← Bool.not_eq_true, Trie.live_iff]
  omega

theorem Trie.entry_eq_none {t : Trie} {i : Nat} (h : i = 256 ∨ 257 + t.length ≤ i) : Trie.entry t i = none := by
  rcases h with rfl | hge
  · rfl
  · rw [Trie.entry_of_ge t (by omega), List.getElem?_eq_none (by omega)]

/-- Settles O53: each command's check comes before its own work, and the error is raised in the state the command found. -/
theorem collectionCommandErrors : Obligations.CollectionCommandErrors := by
  intro s
  refine ⟨fun hfull => failedWith_of_settle_error rfl (if_pos hfull), fun hempty => ?_,
    fun hfull => failedWith_of_settle_error rfl (if_pos hfull), fun hnone => ?_,
    fun htop => failedWith_of_settle_error rfl (if_pos htop), fun hbelow hevict => ?_, fun hdead => ?_, fun hne hlt hchild => ?_⟩
  · refine failedWith_of_settle_error rfl ?_
    rw [hempty]
    rfl
  · refine failedWith_of_settle_error rfl ?_
    simp only [keyOperand_eq, hnone]
  · refine failedWith_of_settle_error rfl ?_
    rw [if_neg (Nat.ne_of_lt hbelow)]
    exact if_pos hevict
  · have hlive : ¬ Trie.live s.lzw s.opArg0.toNat = true := by rw [Trie.live_eq_false hdead]; exact Bool.false_ne_true
    refine ⟨fun hparent => ?_, failedWith_of_settle_error rfl (if_neg hlive), fun hge => ?_⟩
    · refine failedWith_of_settle_error rfl ?_
      dsimp only
      rw [if_neg hparent, if_neg hlive]
    · refine failedWith_of_settle_error rfl ?_
      dsimp only
      rw [if_neg (by omega), Trie.entry_eq_none hdead]
  · obtain ⟨i, hi⟩ := hchild
    refine failedWith_of_settle_error rfl ?_
    dsimp only
    rw [if_pos ((Trie.live_iff s.lzw _).2 ⟨hne, hlt⟩), byteOperand_eq, hi]

end Sys2Proof.Machine
end

section
/-! PROOFS. The commands of the collections (44_collections.md): PQ_PUSH and PQ_POP on the heap, HD_INSERT, HD_REMOVE_OLDEST and HD_GET on
the dictionary, the buckets that refine it, and CW_WRITE, CW_READ and CW_MOVE_CURSOR on the window. -/

namespace Sys2Proof.Machine

/-- A command that completes a state with the output it found: its results stand, and the host's side and the output stay (R342). -/
theorem completes_keeping_output {i : Instr} {s u : State} {r : Results} (hexec : exec i s = .next (u.complete r))
    (hlen : u.outLen = s.outLen) (hbuf : u.outBuf = s.outBuf) :
    CompletedWith (u.complete r) r.r0 r.r1 r.r2 ∧ SameHostSide s (u.complete r) ∧ SameOutput s (u.complete r) :=
  ⟨⟨rfl, rfl, rfl, rfl, rfl, rfl⟩, commandsLeaveHostSide _ _ _ hexec, hlen,
    fun a => by rw [State.complete_outByte, State.outByte, hbuf, ← State.outByte]⟩

/-! ### PQ_PUSH and PQ_POP (R285, R286) -/

/-- PQ_PUSH of a heap with room. -/
theorem exec_pqPush {s : State} (hroom : s.pq.length < 257) :
    exec .pqPush s = .next
      ({ s with pq := heapPush s.pq { weight := s.opArg0, payload := s.opArg1 } }.complete
        { r0 := BitVec.ofNat 32 (s.pq.length + 1) }) := by
  rw [exec, execPqPush, if_neg (Nat.ne_of_lt hroom), settle_ok, heapPush_length]

/-- PQ_POP, once Pop is known. -/
theorem exec_pqPop {s : State} {e : HeapEntry} {h : List HeapEntry} (hpop : heapPop s.pq = some (e, h)) :
    exec .pqPop s = .next
      ({ s with pq := h }.complete { r0 := e.weight, r1 := e.payload, r2 := BitVec.ofNat 32 h.length }) := by
  rw [exec, execPqPop, hpop, settle_ok]

/-- In heap order no entry is lighter than the root (R281). -/
theorem HeapOrder.root_le_of_mem {h : List HeapEntry} (ho : HeapOrder h) {x : HeapEntry} (hx : x ∈ h) :
    (heapAt h 0).weight.toNat ≤ x.weight.toNat := by
  obtain ⟨k, hk, rfl⟩ := List.getElem_of_mem hx
  rw [← heapAt_of_lt hk]
  exact ho.root_le k hk

/-- Settles O31: Push and Pop carry the entries and keep heap order, and Pop returns the root. -/
theorem heapCommandsKeepTheEntries : Obligations.HeapCommandsKeepTheEntries := by
  refine fun s horder => ⟨fun hroom => ?_, fun hne => ?_⟩
  · obtain ⟨hperm, hkeeps⟩ := heapPush_spec s.pq { weight := s.opArg0, payload := s.opArg1 }
    have hexec := exec_pqPush hroom
    exact ⟨_, hexec, hperm, hkeeps horder, completes_keeping_output hexec rfl rfl⟩
  · rcases heapPop_spec s.pq with ⟨hnil, _⟩ | ⟨e, h, hpop, hroot, hperm, hkeeps⟩
    · exact absurd hnil hne
    · have hexec := exec_pqPop hpop
      rw [Nat.eq_sub_of_add_eq (heapPop_length hpop)] at hexec
      refine ⟨_, e, hexec, hperm, fun x hx => ?_, hkeeps horder, completes_keeping_output hexec rfl rfl⟩
      rw [← hroot]
      exact horder.root_le_of_mem hx

/-! ### HD_INSERT and HD_REMOVE_OLDEST (R293, R294) -/

/-- HD_INSERT of a dictionary with room. -/
theorem exec_hdInsert {s : State} (hwf : Sparse.wf s.hd) (hroom : Dict.total s.hd < 4095) :
    exec .hdInsert s = .next
      ({ s with hd := Dict.insert s.hd (s.opArg0.toNat % 2 ^ 24) s.opArg1 }.complete
        { r0 := BitVec.ofNat 32 ((Dict.list s.hd (s.opArg0.toNat % 2 ^ 24)).length + 1),
          r1 := BitVec.ofNat 32 (Dict.total s.hd + 1) }) := by
  rw [exec, execHdInsert, if_neg (Nat.ne_of_lt hroom), settle_ok, keyOperand_eq, Dict.total_insert hwf, Dict.list_insert,
    if_pos rfl, List.length_append, List.length_singleton]

/-- HD_REMOVE_OLDEST of a key that has positions. -/
theorem exec_hdRemoveOldest {s : State} (hwf : Sparse.wf s.hd) {x : Word} {rest : List Word}
    (hlist : Dict.list s.hd (s.opArg0.toNat % 2 ^ 24) = x :: rest) :
    exec .hdRemoveOldest s = .next
      ({ s with hd := Dict.removeOldest s.hd (s.opArg0.toNat % 2 ^ 24) }.complete
        { r0 := x, r1 := BitVec.ofNat 32 rest.length, r2 := BitVec.ofNat 32 (Dict.total s.hd - 1) }) := by
  have hleft : Dict.list (Dict.removeOldest s.hd (s.opArg0.toNat % 2 ^ 24)) (s.opArg0.toNat % 2 ^ 24) = rest := by
    rw [Dict.list_removeOldest hwf, if_pos rfl, hlist, List.tail_cons]
  have htotal : Dict.total (Dict.removeOldest s.hd (s.opArg0.toNat % 2 ^ 24)) = Dict.total s.hd - 1 := by
    rw [Dict.total_removeOldest hwf, hlist, if_neg (List.cons_ne_nil _ _)]
  simp only [exec, execHdRemoveOldest, keyOperand_eq, hlist, hleft, htotal, settle_ok]

/-- Settles O32: Insert and RemoveOldest change the list of their key only. -/
theorem dictionaryIsFifoPerKey : Obligations.DictionaryIsFifoPerKey := by
  intro s ⟨hwf, _, _⟩
  refine ⟨fun hroom => ?_, fun x rest hlist => ?_⟩
  · have hexec := exec_hdInsert hwf hroom
    refine ⟨_, hexec, fun k => ?_, completes_keeping_output hexec rfl rfl⟩
    rw [State.complete_hd, Dict.list_insert]
    split
    · subst_vars; rfl
    · rfl
  · have hexec := exec_hdRemoveOldest hwf hlist
    refine ⟨_, hexec, fun k => ?_, completes_keeping_output hexec rfl rfl⟩
    rw [State.complete_hd, Dict.list_removeOldest hwf, hlist, List.tail_cons]

/-! ### HD_GET (R296) -/

/-- Settles O33: the list read from its newest end. -/
theorem getCountsFromNewest : Obligations.GetCountsFromNewest := by
  rintro s l rfl
  refine ⟨fun x hrank hx => ?_, fun hpast => failedWith_of_settle_error rfl ?_⟩
  · have hexec : exec .hdGet s = .next (s.complete { r0 := x }) := by
      rw [exec, execHdGet, keyOperand_eq, List.getElem?_reverse hrank, hx, settle_ok]
    obtain ⟨t, hnext, hunits, hout, hdone⟩ := statusCommand_completes hexec
    exact ⟨t, hnext, hdone, commandsLeaveHostSide _ _ _ hnext, hunits, hout⟩
  · rw [keyOperand_eq, List.getElem?_eq_none (by rwa [List.length_reverse])]

/-! ### The reference buckets (R290) -/

theorem Buckets.pairs_put (b : Buckets) (h h' : Nat) (ps : List (Nat × Word)) :
    Buckets.pairs (Sparse.put b h ps) h' = if h' = h then ps else Buckets.pairs b h' := by
  rw [Buckets.pairs, Sparse.get_put]
  split <;> rfl

/-- The pairs of one key after an insertion: those of the bucket the key falls in. -/
theorem Buckets.list_insert (b : Buckets) (k k' : Nat) (x : Word) :
    Buckets.list (Buckets.insert b k x) k' = if k' = k then Buckets.list b k ++ [x] else Buckets.list b k' := by
  rw [Buckets.list, Buckets.insert, Buckets.pairs_put]
  by_cases hkey : k' = k
  · subst hkey
    simp [Buckets.list]
  · rw [if_neg hkey]
    split
    · rename_i hsame
      simp [Buckets.list, hsame, Ne.symm hkey]
    · rfl

/-- Taking the first pair with key `k` out of a bucket takes the head of that key's pairs. -/
theorem filter_eraseP_key (ps : List (Nat × Word)) (k : Nat) :
    (ps.eraseP (fun e => e.1 == k)).filter (fun e => e.1 == k) = (ps.filter (fun e => e.1 == k)).tail := by
  induction ps with
  | nil => rfl
  | cons e rest ih =>
    by_cases he : e.1 = k
    · simp [he]
    · simpa [he] using ih

/-- It leaves the pairs of every other key, colliding ones included. -/
theorem filter_eraseP_other (ps : List (Nat × Word)) {k k' : Nat} (hkey : k' ≠ k) :
    (ps.eraseP (fun e => e.1 == k)).filter (fun e => e.1 == k') = ps.filter (fun e => e.1 == k') := by
  induction ps with
  | nil => rfl
  | cons e rest ih =>
    by_cases he : e.1 = k
    · simp [he, Ne.symm hkey]
    · simp [he, List.filter_cons, ih]

theorem Buckets.list_removeOldest (b : Buckets) (k k' : Nat) :
    Buckets.list (Buckets.removeOldest b k) k' = if k' = k then (Buckets.list b k).tail else Buckets.list b k' := by
  rw [Buckets.list, Buckets.removeOldest, Buckets.pairs_put]
  by_cases hkey : k' = k
  · subst hkey
    rw [if_pos rfl, if_pos rfl, filter_eraseP_key, List.map_tail, ← Buckets.list]
  · rw [if_neg hkey]
    split
    · rename_i hsame
      rw [filter_eraseP_other _ hkey, ← hsame, ← Buckets.list]
    · rfl

/-- Settles O34: both organisations change one key's list, and in the same way. -/
theorem bucketsRefineDictionary : Obligations.BucketsRefineDictionary := by
  refine fun b d hwf hrefines k hk => ⟨fun x k' hk' => ?_, fun k' hk' => ?_⟩
  · rw [Buckets.list_insert, Dict.list_insert, hrefines k hk, hrefines k' hk']
  · rw [Buckets.list_removeOldest, Dict.list_removeOldest hwf, hrefines k hk, hrefines k' hk']

/-! ### CW_WRITE (R303) -/

/-- CW_WRITE where neither check refuses it. -/
theorem exec_cwWrite {s : State} (hhead : s.cw.head < 2 ^ 32 - 1) (hkeeps : s.cw.head + 1 ≤ s.cw.cursor + 4113) :
    exec .cwWrite s = .next
      ({ s with cw := s.cw.push (s.opArg0.setWidth 8) }.complete { r0 := BitVec.ofNat 32 s.cw.head }) := by
  rw [exec, execCwWrite, if_neg (Nat.ne_of_lt hhead), if_neg (Nat.not_lt.2 hkeeps), settle_ok, byteOperand_eq]

/-- Settles O35: the window after the push, read at the old head and elsewhere. -/
theorem windowWriteStoresAtHead : Obligations.WindowWriteStoresAtHead := by
  intro s hhead hkeeps
  have hexec := exec_cwWrite hhead hkeeps
  exact ⟨_, hexec, rfl, rfl, Window.byteAt_push_head s.cw _, fun p hp hne => Window.byteAt_push_readable _ hp hne,
    completes_keeping_output hexec rfl rfl⟩

/-! ### CW_READ and CW_MOVE_CURSOR (R304, R305) -/

/-- CW_READ at a readable position. -/
theorem exec_cwRead {s : State} {p : Nat} (hp : (p : Int) = s.cw.cursor + s.opArg0.toInt) (hread : s.cw.readable p) :
    exec .cwRead s = .next (s.complete { r0 := (s.cw.byteAt p).setWidth 32, r1 := BitVec.ofNat 32 p }) := by
  obtain ⟨hlow, hhigh⟩ := hread
  rw [cwCap_eq] at hlow
  rw [exec, execCwRead, signedOperand, ← hp, cwCap_eq, if_pos (by omega), settle_ok, Int.toNat_natCast]

/-- CW_MOVE_CURSOR to a place within the window, the head included. -/
theorem exec_cwMoveCursor {s : State} {c : Nat} (hc : (c : Int) = s.cw.cursor + s.opArg0.toInt)
    (hlow : s.cw.head - 4113 ≤ c) (hhigh : c ≤ s.cw.head) :
    exec .cwMoveCursor s = .next
      ({ s with cw := { s.cw with cursor := c } }.complete { r0 := BitVec.ofNat 32 c }) := by
  rw [exec, execCwMoveCursor, signedOperand, ← hc, cwCap_eq, if_pos (by omega), settle_ok, Int.toNat_natCast]

/-- A place that passes the check of the signed sum is a position of the window. -/
theorem exists_position_of_check {head : Nat} {p : Int} (hpos : 0 ≤ p) (hlow : (head : Int) - (Config.cwCap : Nat) ≤ p) :
    ∃ n : Nat, (n : Int) = p ∧ head - Config.cwCap ≤ n := by
  obtain ⟨n, rfl⟩ := Int.eq_ofNat_of_zero_le hpos
  exact ⟨n, rfl, by omega⟩

/-- Settles O36: a check of the signed sum succeeds exactly at the positions named; a sum below 0 is no position. -/
theorem windowAccessByDisplacement : Obligations.WindowAccessByDisplacement := by
  refine fun s => ⟨fun p hp hread => ?_, fun hnone => failedWith_of_settle_error rfl (if_neg ?_),
    fun c hc hlow hhigh => ?_, fun hnone => failedWith_of_settle_error rfl (if_neg ?_)⟩
  · obtain ⟨t, hexec, hunits, hout, hdone⟩ := statusCommand_completes (exec_cwRead hp hread)
    exact ⟨t, hexec, hdone, commandsLeaveHostSide _ _ _ hexec, hunits, hout⟩
  · rintro ⟨hpos, hlow, hhigh⟩
    obtain ⟨p, hp, hge⟩ := exists_position_of_check hpos hlow
    exact hnone p hp ⟨hge, by omega⟩
  · have hexec := exec_cwMoveCursor hc hlow hhigh
    exact ⟨_, hexec, rfl, completes_keeping_output hexec rfl rfl⟩
  · rintro ⟨hpos, hlow, hhigh⟩
    obtain ⟨c, hc, hge⟩ := exists_position_of_check hpos hlow
    exact hnone c hc ⟨hge, by omega⟩

end Sys2Proof.Machine
end

section
/-! PROOFS. NOP and the clearing commands (45_system.md R320, R322; R151, R186, R252, R284, R292, R302), and which commands may change
each sub-unit (R60, R187, R384). -/

namespace Sys2Proof.Machine

/-! ### NOP and the clearing commands -/

/-- A command that has no results completes the state it leaves with every RESULT 0 (R342). -/
theorem completes_without_results {i : Instr} {s u : State} {P : State → Prop} (hexec : exec i s = settle s (.ok ({}, u)))
    (hleft : P (u.complete {})) : ∃ t, exec i s = .next t ∧ CompletedWith t 0 0 0 ∧ P t :=
  ⟨u.complete {}, hexec.trans (settle_ok s u {}), ⟨rfl, rfl, rfl, rfl, rfl, rfl⟩, hleft⟩

/-- Positions are readable below the head only (R30, R302). -/
theorem Window.not_readable_of_head_zero {w : Window} (hhead : w.head = 0) (p : Nat) : ¬ w.readable p := by
  rintro ⟨_, hbelow⟩
  rw [hhead] at hbelow
  exact Nat.not_lt_zero p hbelow

/-- Settles O25: each of the eight completes the state its rule describes. -/
theorem systemAndClearCommandsComplete : Obligations.SystemAndClearCommandsComplete := by
  intro s
  have hclear : UnitsCleared (State.complete { s.clearUnits with outLen := 0 } {}) :=
    unitsCleared_of_sameUnits (s := s) ⟨rfl, rfl, rfl, rfl, rfl, rfl⟩
  refine ⟨completes_without_results rfl ?nop, completes_without_results rfl ?clearAll, completes_without_results rfl ?bsInit,
    completes_without_results rfl ?pqClear, completes_without_results rfl ?hdClear, completes_without_results rfl ?cwClear,
    completes_without_results rfl ?htClear, completes_without_results rfl ?lzwClear⟩
  case nop => exact ⟨commandsLeaveHostSide .nop _ _ rfl, ⟨rfl, rfl, rfl, rfl, rfl, rfl⟩, rfl, fun _ => rfl⟩
  case clearAll => exact ⟨hclear, rfl, commandsLeaveHostSide .clearAll _ _ rfl, fun _ => rfl⟩
  case bsInit => exact ⟨rfl, rfl, rfl, rfl, fun _ => rfl⟩
  case pqClear => rfl
  case hdClear => exact ⟨Dict.list_nil, rfl⟩
  case cwClear => exact ⟨rfl, rfl, rfl, Window.not_readable_of_head_zero rfl⟩
  case htClear =>
    obtain ⟨_, _, _, _, _, _, _, hcounts, hnodes, hroot, hvalid, _⟩ := hclear
    exact ⟨hcounts, hnodes, hroot, hvalid, rfl⟩
  case lzwClear =>
    obtain ⟨_, _, _, _, _, _, _, _, _, _, _, _, hnext, hwidth⟩ := hclear
    exact ⟨fun _ _ => rfl, hnext, hwidth⟩

/-! ### The commands that may change a sub-unit, one sub-unit at a time (R322, R384) -/

section
variable {s u : State} {i : Instr}

theorem Ran.bs_eq (h : Ran s i u) (hall : i ≠ .clearAll) (hinit : i ≠ .bsInit) (hfinish : i ≠ .bsFinish)
    (hreads : ∀ n, ¬ ReadForm i n) (hwrites : ∀ n, ¬ WriteForm i n) : u.bs = s.bs := by
  cases h
  case clearAll | bsInit | finish => contradiction
  case read n _ _ hform => exact absurd hform (hreads n)
  case write n _ _ _ hform => exact absurd hform (hwrites n)
  all_goals rfl

/-- HT_BUILD empties the queue it built with (R187). -/
theorem Ran.pq_eq (h : Ran s i u) (hall : i ≠ .clearAll) (hclear : i ≠ .pqClear) (hpush : i ≠ .pqPush) (hpop : i ≠ .pqPop)
    (hbuild : i ≠ .htBuild) : u.pq = s.pq := by
  cases h
  case clearAll | pqClear | pqPush | pqPop | htBuild => contradiction
  all_goals rfl

theorem Ran.hd_eq (h : Ran s i u) (hall : i ≠ .clearAll) (hclear : i ≠ .hdClear) (hinsert : i ≠ .hdInsert)
    (hremove : i ≠ .hdRemoveOldest) : u.hd = s.hd := by
  cases h
  case clearAll | hdClear | hdInsert | hdRemoveOldest => contradiction
  all_goals rfl

theorem Ran.cw_eq (h : Ran s i u) (hall : i ≠ .clearAll) (hclear : i ≠ .cwClear) (hwrite : i ≠ .cwWrite)
    (hmove : i ≠ .cwMoveCursor) : u.cw = s.cw := by
  cases h
  case clearAll | cwClear | cwWrite | cwMoveCursor => contradiction
  all_goals rfl

theorem Ran.ht_eq (h : Ran s i u) (hall : i ≠ .clearAll) (hclear : i ≠ .htClear) (hbuild : i ≠ .htBuild) : u.ht = s.ht := by
  cases h
  case clearAll | htClear | htBuild => contradiction
  all_goals rfl

theorem Ran.lzw_eq (h : Ran s i u) (hall : i ≠ .clearAll) (hclear : i ≠ .lzwClear) (hinsert : i ≠ .lzwInsert) :
    u.lzw = s.lzw := by
  cases h
  case clearAll | lzwClear | lzwInsert => contradiction
  all_goals rfl

end

/-- Settles O19: an error leaves every sub-unit, and a success leaves each by its own frame of `Ran`. -/
theorem commandsLeaveOtherUnits : Obligations.CommandsLeaveOtherUnits := by
  intro i s t h hclears
  have hall : i ≠ .clearAll := fun hi => hclears (.inr hi)
  rcases exec_primitive (fun hi => hclears (.inl hi)) h with ⟨e, rfl⟩ | ⟨r, u, rfl, hr⟩
  · exact ⟨fun _ => rfl, fun _ => rfl, fun _ => rfl, fun _ => rfl, fun _ => rfl, fun _ => rfl⟩
  · refine ⟨?bs, ?pq, ?hd, ?cw, ?ht, ?lzw⟩
    case bs => exact fun ⟨hinit, hfinish, hreads, hwrites⟩ => hr.bs_eq hall hinit hfinish hreads hwrites
    case pq => exact fun ⟨hclear, hpush, hpop, hbuild⟩ => hr.pq_eq hall hclear hpush hpop hbuild
    case hd => exact fun ⟨hclear, hinsert, hremove⟩ => hr.hd_eq hall hclear hinsert hremove
    case cw => exact fun ⟨hclear, hwrite, hmove⟩ => hr.cw_eq hall hclear hwrite hmove
    case ht => exact fun ⟨hclear, hbuild⟩ => hr.ht_eq hall hclear hbuild
    case lzw => exact fun ⟨hclear, hinsert⟩ => hr.lzw_eq hall hclear hinsert

end Sys2Proof.Machine
end

section
/-! PROOFS. Issue and the flags it sets (60_exceptions.md R340, R343, R345, R380), completion (R342, R387), and what the errors of the
primitive and of the decompress commands leave (R333, R334). -/

namespace Sys2Proof.Machine

/-! ### Issue (R340) -/

/-- A CTRL write with START = 1 and SOFT_RESET = 0 sets IRQ_EN and accepts the command in CMD (R22, R340). -/
theorem State.writeCtrl_start (s : State) {v : Word} (hstart : v.getLsbD 0 = true) (hreset : v.getLsbD 2 = false) :
    s.writeCtrl v = { s with irqEn := v.getLsbD 1 }.accept := by
  rw [State.writeCtrl, hreset, hstart]
  rfl

/-- Settles O6: the write leaves the state with IRQ_EN set, accepted. -/
theorem startIssuesCommand : Obligations.StartIssuesCommand := by
  intro s v rest h hb hstart hreset
  have hstep : step s = .next { s with agenda := rest, irqEn := v.getLsbD 1 }.accept := by
    rw [step_writeReg_idle h rfl (by decide) hb]
    exact congrArg Host.Outcome.next (State.writeCtrl_start _ hstart hreset)
  exact ⟨_, hstep, rfl, rfl, rfl, rfl, rfl, rfl, rfl, rfl, rfl, rfl, rfl, rfl, rfl, rfl, fun _ => rfl,
    ⟨rfl, rfl, rfl, rfl, rfl, rfl⟩, ⟨rfl, fun _ => rfl⟩, rfl⟩

/-- With no command latched the issue invariant asks nothing. -/
theorem issueOk_of_latch_none {s : State} (h : s.latch = none) : IssueOk s := by
  intro l hl
  rw [h] at hl
  cases hl

/-- What acceptance latches are the registers, with DONE and ERR_CODE cleared (R340). -/
theorem State.accept_issueOk (s : State) : IssueOk s.accept := by
  intro l hl
  cases hl
  exact ⟨rfl, rfl, rfl⟩

/-- While BUSY = 0 a register write accepts a command or leaves none latched (R20, R340). -/
theorem State.hostWriteReg_issueOk {s : State} (hb : s.busy = false) (off : Nat) (v : Word) : IssueOk (s.hostWriteReg off v) := by
  have hidle : s.latch = none := State.not_busy_iff.1 hb
  rcases s.hostWriteReg_cases off v with ⟨_, e⟩ | e | ⟨_, e | e | e | e | e | e | e | e⟩ <;> rw [e]
  case inr.inl => exact issueOk_of_latch_none rfl
  case inr.inr.inl => exact State.accept_issueOk _
  all_goals exact issueOk_of_latch_none hidle

/-- Settles O60: acceptance sets it up, a completion or a reset leaves no command, and no other move touches what it speaks of. -/
theorem stepKeepsIssue : Obligations.StepKeepsIssue := by
  intro s t hs h
  refine step_keeps (P := IssueOk) ?agenda ?raise ?codec ?codecRaise ?ran ?deliver ?violate ?soft ?reg ?input hs h
  case raise | codec | codecRaise | ran | soft => intros; exact issueOk_of_latch_none rfl
  case reg => exact fun s off v _ hb _ => State.hostWriteReg_issueOk hb off v
  case agenda | deliver | violate | input => intros; assumption

/-! ### DONE (R343, R346) -/

/-- No register write sets DONE. -/
theorem State.done_of_hostWriteReg {s : State} {off : Nat} {v : Word} (h : (s.hostWriteReg off v).done = true) :
    s.done = true := by
  rcases s.hostWriteReg_cases off v with ⟨_, e⟩ | e | ⟨_, e | e | e | e | e | e | e | e⟩ <;> rw [e] at h
  case inr.inl | inr.inr.inl => cases h
  case inr.inr.inr.inr.inl =>
    rw [State.acknowledge_done, Bool.and_eq_true] at h
    exact h.1
  all_goals exact h

/-- DONE is 1 after a step that completes a command, and otherwise only where it was 1 before. -/
theorem step_done {s t : State} (h : step s = .next t) (ht : t.done = true) :
    s.done = true ∨ s.busy = true ∧ t.busy = false := by
  obtain ⟨u, ⟨rest, rfl⟩, h⟩ := step_cases h
  rcases h with ⟨_, rfl⟩ | ⟨i, hb, _, he⟩ | ⟨e, hb, _, rfl⟩ | ⟨off, rfl⟩ | ⟨a, rfl⟩ | ⟨a, rfl⟩ | ⟨off, v, rfl⟩ | ⟨a, v, rfl⟩ | rfl
  · exact .inl ht
  · exact .inr ⟨hb, exec_not_busy he⟩
  · exact .inr ⟨hb, rfl⟩
  · rcases State.readReg_cases _ off with ⟨v, e⟩ | ⟨_, e⟩ <;> rw [e] at ht <;> exact .inl ht
  · exact .inl ht
  · unfold State.hostReadOut at ht
    split at ht <;> exact .inl ht
  · have hdone : ({ s with agenda := rest } : State).done = true := State.done_of_hostWriteReg ht
    exact .inl hdone
  · unfold State.hostWriteIn at ht
    (repeat' split at ht) <;> exact .inl ht
  · rcases State.hostWriteOut_cases _ with ⟨_, e⟩ | ⟨_, e⟩ <;> rw [e] at ht <;> exact .inl ht

/-- Settles O11: IRQ by its definition (R345), DONE by what a step can do to it. -/
theorem doneRisesOnlyAtCompletion : Obligations.DoneRisesOnlyAtCompletion := by
  intro s t h
  refine ⟨rfl, fun hs ht => ?_⟩
  rcases step_done h ht with hdone | hcompletes
  · exact absurd (hs.symm.trans hdone) (by decide)
  · exact hcompletes

/-! ### Completion (R342, R387) -/

/-- No command faults or is refused (R387). -/
theorem exec_isNext (i : Instr) (s : State) : ∃ t, exec i s = .next t := by
  cases i <;> exact ⟨_, rfl⟩

/-- A command ends with DONE = 1, and with an error every RESULT is 0 (R342). -/
theorem exec_completion {i : Instr} {s t : State} (h : exec i s = .next t) :
    t.done = true ∧ (t.err ≠ none → t.result0 = 0 ∧ t.result1 = 0 ∧ t.result2 = 0) := by
  by_cases hi : IsCodec i
  · rcases exec_codec_cases hi h with ⟨d, _, rfl⟩ | ⟨e, _, rfl⟩
    · exact ⟨rfl, fun herr => absurd rfl herr⟩
    · exact ⟨rfl, fun _ => ⟨rfl, rfl, rfl⟩⟩
  · rcases exec_primitive hi h with ⟨e, rfl⟩ | ⟨r, u, rfl, _⟩
    · exact ⟨rfl, fun _ => ⟨rfl, rfl, rfl⟩⟩
    · exact ⟨rfl, fun herr => absurd rfl herr⟩

/-- Settles O12: every command answers a next state, and that state is a completion. -/
theorem everyCommandCompletes : Obligations.EveryCommandCompletes := by
  intro i s
  obtain ⟨t, ht⟩ := exec_isNext i s
  exact ⟨t, ht, exec_not_busy ht, exec_completion ht⟩

/-- Settles O20: with an error the command's end is `raise` in the state it found; a success has none. -/
theorem failedPrimitiveChangesNothing : Obligations.FailedPrimitiveChangesNothing := by
  intro i s t e hi h herr
  rcases exec_primitive hi h with ⟨e', rfl⟩ | ⟨r, u, rfl, _⟩
  · obtain rfl := Option.some.inj herr
    exact s.raise_failedWith e'
  · cases herr

/-! ### The header of a decompress command (R333) -/

/-- The bits of two words put together are those of the first and then those of the second. -/
theorem bitsOf_toNat_append {m n : Nat} (x : BitVec m) (y : BitVec n) :
    bitsOf (x ++ y).toNat (m + n) = bitsOf x.toNat m ++ bitsOf y.toNat n := by
  have hhigh : (x ++ y).toNat / 2 ^ n = x.toNat := by
    rw [BitVec.toNat_append, ← Nat.shiftLeft_add_eq_or_of_lt y.isLt, Nat.shiftLeft_eq, Nat.mul_comm,
      Nat.mul_add_div (Nat.two_pow_pos n), Nat.div_eq_of_lt y.isLt, Nat.add_zero]
  have hlow : bitsOf (x ++ y).toNat n = bitsOf y.toNat n := bitsOf_congr fun j hj => by
    rw [← BitVec.getLsbD, ← BitVec.getLsbD, BitVec.getLsbD_append, if_pos hj]
  rw [bitsOf_add, hhigh, hlow]

/-- Four bytes are read as the tag whose bytes they are, most significant first (R107). -/
theorem streamBits_four_bytes (b0 b1 b2 b3 : Byte) : streamBits [b0, b1, b2, b3] = tagBits (b0 ++ b1 ++ b2 ++ b3) := by
  have hword : tagBits (b0 ++ b1 ++ b2 ++ b3) = bitsOf (b0 ++ b1 ++ b2).toNat 24 ++ bitsOf b3.toNat 8 := bitsOf_toNat_append _ _
  have h24 : bitsOf (b0 ++ b1 ++ b2).toNat 24 = bitsOf (b0 ++ b1).toNat 16 ++ bitsOf b2.toNat 8 := bitsOf_toNat_append _ _
  have h16 : bitsOf (b0 ++ b1).toNat 16 = bitsOf b0.toNat 8 ++ bitsOf b1.toNat 8 := bitsOf_toNat_append _ _
  rw [hword, h24, h16]
  simp

/-- An input of at least 4 bytes begins with them, whatever follows. -/
theorem State.inBytes_four (s : State) {n : Nat} (h : 4 ≤ n) :
    ∃ rest, s.inBytes n = [s.inByte 0, s.inByte 1, s.inByte 2, s.inByte 3] ++ rest := by
  obtain ⟨k, rfl⟩ := Nat.exists_eq_add_of_le h
  exact ⟨_, by rw [State.inBytes, List.range_add, List.map_append]; rfl⟩

/-- A stream of fewer than 4 bytes ends before its tag can be compared (R333). -/
theorem openStream_short (tag : Word) {input : List Byte} (h : input.length < 4) :
    openStream tag (streamBits input) = .error { err := .unexpectedEndOfStream, written := 0 } := by
  rw [openStream_eq, if_pos (by rw [streamBits_length]; omega)]

/-- A stream that starts with another tag does not open (R333). -/
theorem openStream_tagBits_ne {tag tag' : Word} (h : tag' ≠ tag) (rest : List Bool) :
    openStream tag (tagBits tag' ++ rest) = .error { err := .invalidHeader, written := 0 } := by
  have htag : ofBits (bitsOf tag'.toNat 32) = tag'.toNat := by rw [ofBits_bitsOf, Nat.mod_eq_of_lt tag'.isLt]
  rw [openStream, tagBits, takeBits_bitsOf]
  exact if_neg fun he => h (BitVec.eq_of_toNat_eq (htag.symm.trans he))

/-- A decompress command with the tag it expects (R107). -/
def DecompressTag (p : Config.Params) (i : Instr) (tag : Word) : Prop :=
  (i = .hufDecompress ∧ tag = p.tagHuf) ∨ (i = .lzssDecompress ∧ tag = p.tagLzss) ∨ (i = .lzwDecompress ∧ tag = p.tagLzw)

theorem DecompressTag.isCodec {p : Config.Params} {i : Instr} {tag : Word} (h : DecompressTag p i tag) : IsCodec i := by
  rcases h with ⟨rfl, _⟩ | ⟨rfl, _⟩ | ⟨rfl, _⟩ <;> simp [IsCodec]

/-- The tag comes first: its error is the command's (R184, R219, R248). -/
theorem DecompressTag.codecRun_error {p : Config.Params} {i : Instr} {tag : Word} (h : DecompressTag p i tag)
    {input : List Byte} {e : CodecRaise} (he : openStream tag (streamBits input) = .error e) :
    codecRun p i input = .error e := by
  rcases h with ⟨rfl, rfl⟩ | ⟨rfl, rfl⟩ | ⟨rfl, rfl⟩
  · simp [codecRun, hufDecompress, he]
  · simp [codecRun, lzssDecompress, he]
  · simp [codecRun, lzwDecompress, he]

/-- Settles O46: the stream does not open, and the codec commands' common end reports why. -/
theorem headerErrorsOfDecompress : Obligations.HeaderErrorsOfDecompress := by
  intro s i tag hlen (hform : DecompressTag s.params i tag)
  refine ⟨fun hshort => ?_, fun hfour hne => ?_⟩
  · have hopen := openStream_short tag (input := s.inBytes s.opLen) (by rwa [State.inBytes_length])
    exact exec_codec_raised hform.isCodec hlen (hform.codecRun_error hopen)
  · obtain ⟨rest, hinput⟩ := s.inBytes_four hfour
    have hopen : openStream tag (streamBits (s.inBytes s.opLen)) = .error { err := .invalidHeader, written := 0 } := by
      rw [hinput, streamBits_append, streamBits_four_bytes, openStream_tagBits_ne hne]
    exact exec_codec_raised hform.isCodec hlen (hform.codecRun_error hopen)

end Sys2Proof.Machine
end

section
/-! PROOFS. The engine's turn on a command (70_reset_and_hazards.md R386), writes while BUSY = 1 and what clears VIOLATION (R380), and
the two resets (R370 to R373). -/

namespace Sys2Proof.Machine

/-! ### The engine's turn (R386) -/

/-- On a legal word the engine's turn is the command's run. -/
theorem engineTurn_command {s : State} {l : Latch} {i : Instr} (hl : s.latch = some l) (hd : decode l.cmd = .ok i) :
    engineTurn s = exec i s := by
  rw [engineTurn, if_pos (State.busy_iff.2 ⟨l, hl⟩), engineStep, State.operands_of_latch hl, hd]

/-- Settles O4: both forms of the engine's move are its turn. -/
theorem stepRunsLatchedCommand : Obligations.StepRunsLatchedCommand := by
  intro s l i hl hd
  refine ⟨fun h => ?_, fun rest h => ?_⟩
  · exact (step_agenda_nil h).trans (engineTurn_command hl hd)
  · exact (step_engine h).trans (engineTurn_command (s := { s with agenda := rest }) hl hd)

/-! ### Writes to REG -/

/-- A 32-bit write of a word offset that the REG space has (R71, R73). -/
theorem step_hostWriteReg {s : State} {off : Nat} {v : Word} {rest : List Event}
    (h : s.agenda = .host (.write .reg off 4 v) :: rest) (h4 : off % 4 = 0) (hlt : off < 4096) :
    step s = .next (({ s with agenda := rest } : State).hostWriteReg off v) := by
  rw [step_host h]
  exact regAccess_legal _ h4 hlt

/-- While BUSY = 1 a write to REG is ignored but for VIOLATION, unless it is CTRL with SOFT_RESET = 1 (R380). -/
theorem State.hostWriteReg_busy {s : State} {off : Nat} {v : Word} (hb : s.busy = true)
    (hreset : ¬ (off = 0 ∧ v.getLsbD 2 = true)) : s.hostWriteReg off v = s.violate := by
  rw [State.hostWriteReg, if_pos hb, if_neg hreset]

/-- A CTRL write with SOFT_RESET = 1 is a soft reset, BUSY or not, whatever START is (R372, R373). -/
theorem State.hostWriteReg_softReset (s : State) {v : Word} (hreset : v.getLsbD 2 = true) :
    s.hostWriteReg 0 v = s.softReset := by
  unfold State.hostWriteReg
  split
  · exact if_pos ⟨rfl, hreset⟩
  · exact if_pos hreset

/-- A CTRL write with SOFT_RESET = 1 at the front of the agenda is a soft reset (R372). -/
theorem step_softReset {s : State} {v : Word} {rest : List Event} (h : s.agenda = .host (.write .reg 0 4 v) :: rest)
    (hreset : v.getLsbD 2 = true) : step s = .next ({ s with agenda := rest } : State).softReset := by
  rw [step_hostWriteReg h rfl (by decide), State.hostWriteReg_softReset _ hreset]

/-! ### VIOLATION (R380) -/

/-- The writes that may clear VIOLATION: STATUS with bit 8 = 1 while BUSY = 0, and CTRL with SOFT_RESET = 1. -/
def ClearsViolation (s : State) (off : Nat) (v : Word) : Prop :=
  (off = 4 ∧ v.getLsbD 8 = true ∧ s.busy = false) ∨ (off = 0 ∧ v.getLsbD 2 = true)

/-- An acknowledgement clears VIOLATION by bit 8 only (R23). -/
theorem State.acknowledge_clears_violation {s : State} {v : Word} (hs : s.violation = true)
    (h : (s.acknowledge v).violation = false) : v.getLsbD 8 = true := by
  rw [State.acknowledge_violation, hs] at h
  simpa using h

/-- An idle CTRL write clears VIOLATION only by a soft reset (R22, R372). -/
theorem State.writeCtrl_clears_violation {s : State} {v : Word} (hs : s.violation = true)
    (h : (s.writeCtrl v).violation = false) : v.getLsbD 2 = true := by
  unfold State.writeCtrl at h
  split at h
  · assumption
  · split at h <;> exact absurd (hs.symm.trans h) (by decide)

/-- The register writes that clear VIOLATION. -/
theorem State.hostWriteReg_clears_violation {s : State} {off : Nat} {v : Word} (hs : s.violation = true)
    (h : (s.hostWriteReg off v).violation = false) : ClearsViolation s off v := by
  unfold State.hostWriteReg at h
  split at h
  next =>
    split at h
    next hreset => exact .inr hreset
    next => cases h
  next hb =>
    unfold State.writeReg at h
    split at h
    case h_1 => exact .inr ⟨rfl, State.writeCtrl_clears_violation hs h⟩
    case h_2 => exact .inl ⟨rfl, State.acknowledge_clears_violation hs h, Bool.eq_false_iff.2 hb⟩
    all_goals exact absurd (hs.symm.trans h) (by decide)

/-- No read of REG changes VIOLATION. -/
@[simp] theorem State.readReg_violation (s : State) (off : Nat) : (s.readReg off).violation = s.violation := by
  rcases s.readReg_cases off with ⟨v, e⟩ | ⟨_, e⟩ <;> rw [e] <;> rfl

/-- No read of OUT changes VIOLATION. -/
@[simp] theorem State.hostReadOut_violation (s : State) (a : Nat) : (s.hostReadOut a).violation = s.violation := by
  unfold State.hostReadOut
  split <;> rfl

/-- A write to IN never clears VIOLATION. -/
theorem State.hostWriteIn_violation {s : State} (hs : s.violation = true) (a : Nat) (v : Word) :
    (s.hostWriteIn a v).violation = true := by
  unfold State.hostWriteIn
  split
  · rfl
  · split <;> exact hs

/-- A write to OUT never clears VIOLATION. -/
theorem State.hostWriteOut_violation {s : State} (hs : s.violation = true) : s.hostWriteOut.violation = true := by
  rcases s.hostWriteOut_cases with ⟨_, e⟩ | ⟨_, e⟩ <;> rw [e]
  · exact hs
  · rfl

/-- The host accesses that clear VIOLATION are two register writes. -/
theorem hostAccess_clears_violation {a : Access} {s t : State} (hs : s.violation = true) (h : hostAccess a s = .next t)
    (ht : t.violation = false) : ∃ off v, a = .write .reg off 4 v ∧ ClearsViolation s off v := by
  have keeps {u : State} (hu : u.violation = true) (e : t = u) : False :=
    absurd (hu.symm.trans (e ▸ ht)) (by decide)
  unfold hostAccess at h
  split at h
  next =>
    obtain ⟨_, _, _, e⟩ := regAccess_next h
    exact (keeps ((s.readReg_violation _).trans hs) e).elim
  next => exact (keeps (u := s.hostReadIn _) hs (byteAccess_next h).2).elim
  next => exact (keeps ((s.hostReadOut_violation _).trans hs) (byteAccess_next h).2).elim
  next off n v =>
    obtain ⟨rfl, _, _, rfl⟩ := regAccess_next h
    exact ⟨off, v, rfl, State.hostWriteReg_clears_violation hs ht⟩
  next => exact (keeps (State.hostWriteIn_violation hs _ _) (byteAccess_next h).2).elim
  next => exact (keeps (State.hostWriteOut_violation hs) (byteAccess_next h).2).elim

/-- The engine's turn leaves VIOLATION: a command does (R21), and so does the completion of an illegal word. -/
theorem engineTurn_violation {s t : State} (h : engineTurn s = .next t) : t.violation = s.violation := by
  unfold engineTurn at h
  split at h
  · unfold engineStep at h
    split at h
    · obtain ⟨_, _, hviolation, _⟩ := commandsLeaveHostSide _ s t h
      exact hviolation
    · cases h; rfl
  · cases h; rfl

/-- The moves that clear VIOLATION are two register writes. -/
theorem step_clears_violation {s t : State} (hs : s.violation = true) (h : step s = .next t) (ht : t.violation = false) :
    ∃ off v rest, s.agenda = .host (.write .reg off 4 v) :: rest ∧ ClearsViolation s off v := by
  have engine {u : State} (hu : u.violation = true) (he : engineTurn u = .next t) : False :=
    absurd (hu.symm.trans ((engineTurn_violation he).symm.trans ht)) (by decide)
  rcases ha : s.agenda with _ | ⟨a | _, rest⟩
  case nil => exact (engine hs ((step_agenda_nil ha).symm.trans h)).elim
  case cons.engine => exact (engine (u := { s with agenda := rest }) hs ((step_engine ha).symm.trans h)).elim
  case cons.host =>
    obtain ⟨off, v, rfl, hclears⟩ :=
      hostAccess_clears_violation (s := { s with agenda := rest }) hs ((step_host ha).symm.trans h) ht
    exact ⟨off, v, rest, rfl, hclears⟩

/-- Settles O7: a busy write is `violate`, and a step that clears VIOLATION is one of the two register writes that do. -/
theorem writeWhileBusyOnlyViolates : Obligations.WriteWhileBusyOnlyViolates := by
  refine ⟨?_, fun s t hs h ht => ?_⟩
  · rintro s _ rest h hb (⟨off, v, rfl, h4, hlt, hreset⟩ | ⟨addr, v, rfl⟩)
    · rw [step_hostWriteReg h h4 hlt]
      exact congrArg Host.Outcome.next (State.hostWriteReg_busy hb hreset)
    · rw [step_host h]
      exact congrArg Host.Outcome.next (if_pos hb)
  · obtain ⟨off, v, rest, h, ⟨rfl, h8, hb⟩ | ⟨rfl, h2⟩⟩ := step_clears_violation hs h ht
    · exact ⟨v, rest, .inl ⟨h, h8, hb⟩⟩
    · exact ⟨v, rest, .inr ⟨h, h2⟩⟩

/-! ### The resets (R370 to R373) -/

/-- Sub-units as after power-on are cleared (R371). -/
theorem unitsCleared_of_powerOn {p : Config.Params} {t : State} (h : SameUnits (State.powerOn p) t) : UnitsCleared t :=
  unitsCleared_of_sameUnits (s := State.powerOn p) h

/-- CTRL reads 0 with IRQ_EN at 0 (R22). -/
theorem State.ctrlWord_eq_zero {s : State} (hirq : s.irqEn = false) : s.ctrlWord = 0 := by
  rw [State.ctrlWord, hirq]
  decide

/-- STATUS reads 0 with no command latched and DONE, ERR_CODE and VIOLATION at 0 (R23). -/
theorem State.statusWord_eq_zero {s : State} (hbusy : s.busy = false) (hdone : s.done = false) (herr : s.err = none)
    (hviolation : s.violation = false) : s.statusWord = 0 := by
  rw [State.statusWord, State.errorFlag, hbusy, hdone, herr, hviolation]
  decide

/-- An abandoned illegal word has written nothing (R104, log 7). -/
theorem State.abandon_illegal {s : State} (h : ∀ i, decode s.operands.cmd ≠ .ok i) : s.abandon = s := by
  unfold State.abandon
  split
  · split
    · exact absurd ‹_› (h _)
    · rfl
  · rfl

/-- Where there is nothing to abandon OUT keeps its bytes over a soft reset (R372). -/
theorem State.softReset_outByte_of_abandon {s : State} (h : s.abandon = s) (a : Nat) : s.softReset.outByte a = s.outByte a := by
  show s.abandon.outByte a = s.outByte a
  rw [h]

/-- IN keeps its bytes over a soft reset (R372). -/
theorem State.softReset_inByte (s : State) (a : Nat) : s.softReset.inByte a = s.inByte a := by
  rw [State.inByte, State.softReset_inBuf, State.abandon_inBuf]
  rfl

/-- Settles O8: the step is `softReset`, and OUT is split by what was in progress. -/
theorem softResetRestoresReset : Obligations.SoftResetRestoresReset := by
  intro s v rest h hreset
  refine ⟨_, step_softReset h hreset, rfl, State.ctrlWord_eq_zero rfl, State.statusWord_eq_zero rfl rfl rfl rfl, rfl, rfl, rfl,
    rfl, rfl, rfl, rfl, rfl, rfl, rfl, unitsCleared_of_powerOn (p := s.params) ⟨rfl, rfl, rfl, rfl, rfl, rfl⟩,
    State.softReset_inByte _, fun hidle => ?_, fun _ hillegal => ?_, fun i _ hd a ha => ?_, State.abandon_agenda _⟩
  · exact State.softReset_outByte_of_abandon (State.abandon_idle (s := { s with agenda := rest }) hidle)
  · exact State.softReset_outByte_of_abandon (State.abandon_illegal (s := { s with agenda := rest }) hillegal)
  · exact State.softReset_outByte (s := { s with agenda := rest }) hd (by rwa [outSpan_agenda])

/-- Every invariant holds after power-on with legal parameters (R370). -/
theorem State.powerOn_inv {p : Config.Params} (hp : p.wf = true) : (State.powerOn p).Inv := by
  have buffers : BuffersOk (State.powerOn p) := ⟨hp, by simp [State.powerOn]⟩
  have heap : HeapOk (State.powerOn p) := ⟨Nat.zero_le _, HeapOrder.nil⟩
  have window : WindowOk (State.powerOn p) := windowOk_of_head_zero (by simp [State.powerOn]) (by simp [State.powerOn]) rfl rfl
  exact ⟨buffers, shifterOk_of_cleared rfl, heap, dictOk_of_hd_nil rfl, window, .inl rfl, trieOk_of_lzw_nil rfl,
    issueOk_of_latch_none rfl⟩

/-- Settles O54: reset is power-on with parameters that are known to be legal. -/
theorem resetState : Obligations.ResetState :=
  ⟨rfl, State.ctrlWord_eq_zero rfl, State.statusWord_eq_zero rfl rfl rfl rfl, rfl, rfl, rfl, rfl, rfl, rfl, rfl, rfl, rfl, rfl,
    unitsCleared_of_powerOn (p := Config.params) ⟨rfl, rfl, rfl, rfl, rfl, rfl⟩, State.powerOn_inv Config.legalParams.legal⟩

end Sys2Proof.Machine
end
